-- ==== Sys2Proof/Word.lean ====
section
/-! DEFINITION. The words of the GlitchDelay core: samples, engine-port words, control-port transactions. -/

namespace Sys2Proof

/-- A 16-bit two's complement audio sample (00_scope.md R5, R8; log 14). -/
abbrev Sample := BitVec 16

/-- A 32-bit word of the engine port, of the response stream and of a control-port register (R80, R31). -/
abbrev Word := BitVec 32

/-- A 41-bit control-port transaction (30_encoding.md R86). -/
abbrev Transaction := BitVec 41

end Sys2Proof
end

