-- ==== Sys2Proof/Syntax.lean ====
section
/-! DEFINITION. The instructions: one constructor per row of spec/opcode_table.json, the engine-port (EP) commands
of 30_encoding.md R83 and the control-port (CP) transactions of R86. -/

namespace Sys2Proof

/-- One EP command or one CP transaction, its operand fields as the bits they are encoded in. -/
inductive Instr where
  /-- R251. -/
  | nop
  /-- R250. -/
  | processBlock
  /-- R105: `imm.i16` sample, `opa.u32` depth request. -/
  | encode (sample : BitVec 16) (depth : BitVec 32)
  /-- R106: `imm.raw` stored bytes, `opa.u32` depth request. -/
  | decode (stored : BitVec 16) (depth : BitVec 32)
  /-- R125: `imm.u16` count. -/
  | writeBlock (count : BitVec 16)
  /-- R126: `opa.i32` index. -/
  | readSample (index : BitVec 32)
  /-- R127: `opa.i32` new write head. -/
  | setWriteHead (position : BitVec 32)
  /-- R130: `imm.u16` depth request. -/
  | setBitDepth (depth : BitVec 16)
  /-- R136: `imm.u16` ratio. -/
  | delayFromRatio (ratio : BitVec 16)
  /-- R137: `opa.u32` milliseconds. -/
  | delayFromMs (ms : BitVec 32)
  /-- R160: head, `opa.i32` offset behind the write head. -/
  | setPlayHead (head : BitVec 4) (offset : BitVec 32)
  /-- R162: head, `imm.u16` count. -/
  | readBlock (head : BitVec 4) (count : BitVec 16)
  /-- R164: head, `opa.i32` start, `opb.i32` end. -/
  | enableLoop (head : BitVec 4) (loopStart loopEnd : BitVec 32)
  /-- R166: head. -/
  | disableLoop (head : BitVec 4)
  /-- R168: head, `opa.i32` offset. -/
  | shiftLoop (head : BitVec 4) (offset : BitVec 32)
  /-- R227: CP write of ERRSTAT. -/
  | cpwErrstat (data : BitVec 32)
  /-- R221: CP write of BIT_DEPTH. -/
  | cpwBitDepth (data : BitVec 32)
  /-- R222: CP write of LOOP_SIZE. -/
  | cpwLoopSize (data : BitVec 32)
  /-- R223: CP write of FREEZE. -/
  | cpwFreeze (data : BitVec 32)
  /-- R224: CP write of GLITCH. -/
  | cpwGlitch (data : BitVec 32)
  /-- R226: CP write of SPEED. -/
  | cpwSpeed (data : BitVec 32)
  /-- R225: CP write of DELAY_h at address 0x10 + h; whether h < H is checked when it runs (log 11). -/
  | cpwDelay (head : BitVec 4) (data : BitVec 32)
  /-- R220, R274: CP write to STATUS or to a reserved address; the data is carried and ignored. -/
  | cpwRefused (addr : BitVec 8) (data : BitVec 32)
  /-- R228: CP read of any address; the data bits of the transaction are carried and ignored (R86). -/
  | cpr (addr : BitVec 8) (data : BitVec 32)
deriving DecidableEq, Repr

/-- The error causes of 60_exceptions.md R270 (NONE is the absence of a recorded error; 5 to 15 are never raised). -/
inductive ErrCause where
  /-- Cause 1: an EP header whose OPC is not in the map of R83. -/
  | illegalOpcode
  /-- Cause 2: an EP header with a non-zero field its command does not use. -/
  | reservedField
  /-- Cause 3: a head command with HEAD >= H. -/
  | badHead
  /-- Cause 4: a CP write to an address that takes none. -/
  | cpBadWrite
deriving DecidableEq, Repr

end Sys2Proof
end

