-- ==== Sys2Proof/WellFormed.lean ====
section
/-! DEFINITION. Which terms of `Instr` stand for an encoding. Every operand field is as wide as its encoding, so
only the address of a refused CP write can be ill-formed. -/

namespace Sys2Proof

/-- The CP addresses 0x01 to 0x06, which name a writable register (10_state.md R31). -/
def namedWriteAddr (addr : BitVec 8) : Bool := 0x01#8 ≤ addr && addr ≤ 0x06#8

/-- The CP addresses 0x10 to 0x1F, the row CPW_DELAY (R39, R40). -/
def delayAddr (addr : BitVec 8) : Bool := 0x10#8 ≤ addr && addr ≤ 0x1F#8

/-- CPW_REFUSED "applies only when no CPW_* row above matches" (opcode_table.json): its address is that of none of
the other write rows. Every other term is well-formed. -/
def Instr.wf : Instr → Bool
  | .cpwRefused addr _ => !namedWriteAddr addr && !delayAddr addr
  | .nop | .processBlock | .encode _ _ | .decode _ _ | .writeBlock _ | .readSample _ | .setWriteHead _
  | .setBitDepth _ | .delayFromRatio _ | .delayFromMs _ | .setPlayHead _ _ | .readBlock _ _ | .enableLoop _ _ _
  | .disableLoop _ | .shiftLoop _ _ | .cpwErrstat _ | .cpwBitDepth _ | .cpwLoopSize _ | .cpwFreeze _ | .cpwGlitch _
  | .cpwSpeed _ | .cpwDelay _ _ | .cpr _ _ => true

end Sys2Proof
end

