-- ==== Sys2Proof/Decode.lean ====
section
/-! DEFINITION. Decoding and encoding of engine-port commands (30_encoding.md R80 to R88) and control-port
transactions (R86). -/

namespace Sys2Proof

/-- OPC, header bits 31:24 (R80). -/
def opcOf (header : Word) : BitVec 8 := header.extractLsb' 24 8
/-- HEAD, header bits 23:20 (R80). -/
def headOf (header : Word) : BitVec 4 := header.extractLsb' 20 4
/-- RSV, header bits 19:16 (R80). -/
def rsvOf (header : Word) : BitVec 4 := header.extractLsb' 16 4
/-- IMM16, header bits 15:0 (R80). -/
def immOf (header : Word) : BitVec 16 := header.extractLsb' 0 16

/-- One row of the opcode map of R83: the length in words, whether the HEAD and IMM16 columns name an operand (else
the field must be zero), and the command made from HEAD, IMM16, OPA and OPB. -/
structure OpcodeRow where
  opc : BitVec 8
  words : Nat
  usesHead : Bool
  usesImm : Bool
  build : BitVec 4 → BitVec 16 → Word → Word → Instr

/-- The complete EP opcode map of R83. -/
def opcodeMap : List OpcodeRow := [
  ⟨0x00#8, 1, false, false, fun _ _ _ _ => .nop⟩,
  ⟨0x01#8, 1, false, false, fun _ _ _ _ => .processBlock⟩,
  ⟨0x08#8, 2, false, true,  fun _ m a _ => .encode m a⟩,
  ⟨0x09#8, 2, false, true,  fun _ m a _ => .decode m a⟩,
  ⟨0x10#8, 1, false, true,  fun _ m _ _ => .writeBlock m⟩,
  ⟨0x11#8, 2, false, false, fun _ _ a _ => .readSample a⟩,
  ⟨0x12#8, 2, false, false, fun _ _ a _ => .setWriteHead a⟩,
  ⟨0x13#8, 1, false, true,  fun _ m _ _ => .setBitDepth m⟩,
  ⟨0x14#8, 1, false, true,  fun _ m _ _ => .delayFromRatio m⟩,
  ⟨0x15#8, 2, false, false, fun _ _ a _ => .delayFromMs a⟩,
  ⟨0x20#8, 2, true,  false, fun h _ a _ => .setPlayHead h a⟩,
  ⟨0x21#8, 1, true,  true,  fun h m _ _ => .readBlock h m⟩,
  ⟨0x22#8, 3, true,  false, fun h _ a b => .enableLoop h a b⟩,
  ⟨0x23#8, 1, true,  false, fun h _ _ _ => .disableLoop h⟩,
  ⟨0x24#8, 2, true,  false, fun h _ a _ => .shiftLoop h a⟩]

/-- The row of an opcode, if the map has one. -/
def opcodeRow (opc : BitVec 8) : Option OpcodeRow := opcodeMap.find? (fun r => r.opc == opc)

/-- A command's length in words, a function of OPC alone; an OPC not in the map is one word long (R81). -/
def commandWords (opc : BitVec 8) : Nat := (opcodeRow opc).elim 1 (fun r => r.words)

/-- The second check of R87: RSV, and HEAD or IMM16 where the command does not use it, are zero. -/
def reservedZero (row : OpcodeRow) (header : Word) : Bool :=
  rsvOf header == 0 && (row.usesHead || headOf header == 0) && (row.usesImm || immOf header == 0)

/-- What the engine port's pending words hold. -/
inductive EpDecoded where
  /-- Fewer words than the next command has (log 5). -/
  | wait
  /-- A malformed command: its error cause, its opcode byte, the words behind it (R87). -/
  | reject (cause : ErrCause) (opc : BitVec 8) (rest : List Word)
  /-- A command and the words behind it. -/
  | instr (i : Instr) (rest : List Word)

/-- Decode the oldest command of the engine port: the checks of R87 in their order, but for HEAD >= H, which needs
the parameter H and is the first thing a head command does (R87 item 3, log 11). -/
def decodeEp : List Word → EpDecoded
  | [] => .wait
  | header :: ops =>
    match opcodeRow (opcOf header) with
    | none => .reject .illegalOpcode (opcOf header) ops
    | some row =>
      if ops.length < row.words - 1 then .wait
      else if reservedZero row header then
        .instr (row.build (headOf header) (immOf header) (ops.getD 0 0) (ops.getD 1 0)) (ops.drop (row.words - 1))
      else .reject .reservedField (opcOf header) (ops.drop (row.words - 1))

/-- RW, bit 40 (R86): 1 for a write. -/
def rwOf (t : Transaction) : Bool := t.getLsbD 40
/-- ADDR, bits 39:32 (R86). -/
def addrOf (t : Transaction) : BitVec 8 := t.extractLsb' 32 8
/-- DATA, bits 31:0 (R86). -/
def dataOf (t : Transaction) : BitVec 32 := t.extractLsb' 0 32

/-- The transaction a CP write of `data` to `addr` is (R220). -/
def decodeCpWrite (addr : BitVec 8) (data : BitVec 32) : Instr :=
  if addr = 0x01#8 then .cpwErrstat data
  else if addr = 0x02#8 then .cpwBitDepth data
  else if addr = 0x03#8 then .cpwLoopSize data
  else if addr = 0x04#8 then .cpwFreeze data
  else if addr = 0x05#8 then .cpwGlitch data
  else if addr = 0x06#8 then .cpwSpeed data
  else if delayAddr addr then .cpwDelay (addr.extractLsb' 0 4) data
  else .cpwRefused addr data

/-- Decode a CP transaction; every one has a meaning (R86, R88). -/
def decodeCp (t : Transaction) : Instr :=
  if rwOf t then decodeCpWrite (addrOf t) (dataOf t) else .cpr (addrOf t) (dataOf t)

/-- Where an instruction travels, and as which words. -/
inductive Encoding where
  /-- The words of an EP command, header first. -/
  | ep (words : List Word)
  /-- A CP transaction. -/
  | cp (t : Transaction)
deriving DecidableEq, Repr

/-- A header word with RSV = 0 (R80). -/
def header (opc : BitVec 8) (head : BitVec 4) (imm : BitVec 16) : Word := opc ++ head ++ (0#4) ++ imm

/-- A CP transaction word (R86). -/
def transaction (write : Bool) (addr : BitVec 8) (data : BitVec 32) : Transaction :=
  (BitVec.ofBool write) ++ addr ++ data

/-- The address of DELAY_h (R31). -/
def delayAddrOf (head : BitVec 4) : BitVec 8 := 0x1#4 ++ head

/-- The words of an instruction (R83, R86). -/
def encode : Instr → Encoding
  | .nop => .ep [header 0x00 0 0]
  | .processBlock => .ep [header 0x01 0 0]
  | .encode sample depth => .ep [header 0x08 0 sample, depth]
  | .decode stored depth => .ep [header 0x09 0 stored, depth]
  | .writeBlock count => .ep [header 0x10 0 count]
  | .readSample index => .ep [header 0x11 0 0, index]
  | .setWriteHead position => .ep [header 0x12 0 0, position]
  | .setBitDepth depth => .ep [header 0x13 0 depth]
  | .delayFromRatio ratio => .ep [header 0x14 0 ratio]
  | .delayFromMs ms => .ep [header 0x15 0 0, ms]
  | .setPlayHead head offset => .ep [header 0x20 head 0, offset]
  | .readBlock head count => .ep [header 0x21 head count]
  | .enableLoop head loopStart loopEnd => .ep [header 0x22 head 0, loopStart, loopEnd]
  | .disableLoop head => .ep [header 0x23 head 0]
  | .shiftLoop head offset => .ep [header 0x24 head 0, offset]
  | .cpwErrstat data => .cp (transaction true 0x01 data)
  | .cpwBitDepth data => .cp (transaction true 0x02 data)
  | .cpwLoopSize data => .cp (transaction true 0x03 data)
  | .cpwFreeze data => .cp (transaction true 0x04 data)
  | .cpwGlitch data => .cp (transaction true 0x05 data)
  | .cpwSpeed data => .cp (transaction true 0x06 data)
  | .cpwDelay head data => .cp (transaction true (delayAddrOf head) data)
  | .cpwRefused addr data => .cp (transaction true addr data)
  | .cpr addr data => .cp (transaction false addr data)

/-- DESIGN CHOICE (log 15): a table row of 33 to 63 bits is a CP transaction (41 bits, 6 whole bytes); any other is
an EP command of 32-bit words. -/
def isCpWidth (nbits : Nat) : Bool := 32 < nbits && nbits < 64

/-- The words of an EP command given as one number, first word in the low bits, up to the longest command. -/
def tableWords (w : Nat) : List Word :=
  [BitVec.ofNat 32 w, BitVec.ofNat 32 (w / 4294967296), BitVec.ofNat 32 (w / 18446744073709551616)]

/-- The instruction the decoder reads from the `nbits` bits `w` of an opcode-table row, bit 0 the least significant
bit of the first word and every bit above `nbits` zero (log 15). -/
def decodeTableWord (nbits w : Nat) : Option Instr :=
  if isCpWidth nbits then
    if w < 2199023255552 then some (decodeCp (BitVec.ofNat 41 w)) else none
  else
    match decodeEp (tableWords w) with
    | .instr i _ => some i
    | .wait => none
    | .reject _ _ _ => none

end Sys2Proof
end

