-- ==== Sys2Proof/Config.lean ====
section
/-! DEFINITION. The implementation parameters of an instance (00_scope.md R5). -/

namespace Sys2Proof

/-- The nine parameters of R5, "fixed for the life of an instance": a machine's state carries them in a field that
no step writes, so a statement over all states is a statement over all parameters (log 1). -/
structure Config where
  /-- CAPACITY_BYTES, C: bytes of the arena. -/
  capacity : Nat
  /-- BLOCK_SIZE, B: samples a PROCESS_BLOCK takes and makes. -/
  blockSize : Nat
  /-- SAMPLE_RATE, FS: samples per second. -/
  sampleRate : Nat
  /-- FADE_WINDOW, W: samples of a fade. -/
  fadeWindow : Nat
  /-- NUM_HEADS, H: number of play heads. -/
  numHeads : Nat
  /-- LOOP_MARGIN, M: samples between a loop's end and the write head. -/
  loopMargin : Nat
  /-- SHIFT_PERIOD, P: callbacks between two loop shifts, 0 for none. -/
  shiftPeriod : Nat
  /-- SHIFT_SAMPLES, A: samples a loop shift moves the loop by. -/
  shiftSamples : Nat
  /-- SHIFT_REVERSE_EVERY, R: shifts between two reversals of the direction. -/
  shiftReverseEvery : Nat
deriving DecidableEq, Repr

/-- The legal ranges of R5. -/
abbrev Config.Legal (c : Config) : Prop :=
  (4 ≤ c.capacity ∧ c.capacity ≤ 2147483647) ∧ (1 ≤ c.blockSize ∧ c.blockSize ≤ 65535) ∧
  (1 ≤ c.sampleRate ∧ c.sampleRate ≤ 1048576) ∧ (1 ≤ c.fadeWindow ∧ c.fadeWindow ≤ 65535) ∧
  (1 ≤ c.numHeads ∧ c.numHeads ≤ 16) ∧ c.loopMargin ≤ 2147483647 ∧ c.shiftPeriod ≤ 65535 ∧
  c.shiftSamples ≤ 2147483647 ∧ (1 ≤ c.shiftReverseEvery ∧ c.shiftReverseEvery ≤ 65535)

/-- DESIGN CHOICE (log 1): the instance whose reset state is `State.reset`. Capacity, block size and sample rate are
the examples R5 quotes; the others are those of the spec's worked example E8 (95_test_vectors.md), with the shift
cadence off. No rule of the model reads this constant: every rule reads the parameters of the state at hand. -/
def Config.reference : Config where
  capacity := 50000
  blockSize := 128
  sampleRate := 48000
  fadeWindow := 16
  numHeads := 1
  loopMargin := 0
  shiftPeriod := 0
  shiftSamples := 0
  shiftReverseEvery := 1

end Sys2Proof
end

