-- ==== Sys2Proof/Machine/State.lean ====
section
/-! DEFINITION. Every piece of state of the GDC (10_state.md), the three outcomes' reasons, and reset (R290). -/

namespace Sys2Proof.Machine

/-- A supported bit depth, "exactly {4, 8, 12, 16}" (40_codec.md R100). -/
inductive Depth where
  | d4 | d8 | d12 | d16
deriving DecidableEq, Repr

/-- CSTATE (10_state.md R29). -/
inductive CtlState where
  | idle | armed | active | releasing
deriving DecidableEq, Repr

/-- CMODE (R29). -/
inductive CtlMode where
  | glitch | freeze
deriving DecidableEq, Repr

/-- FREEZE.REQ (R36): NONE = 0, ON = 1, OFF = 2, TOGGLE = 3. -/
inductive FreezeReq where
  | none | on | off | toggle
deriving DecidableEq, Repr

/-- The arena's bytes: addresses strictly rising, no entry equal to what an unlisted address reads as (log 10). -/
abbrev Memory := List Host.Cell

/-- The delay-buffer unit (R21 to R24). -/
structure Buffer where
  /-- DEPTH (R21). -/
  depth : Depth
  /-- WH (R22), 31 bits, in [0, N). -/
  wh : Nat
  /-- WFADE (R23), 16 bits, in [0, W]. -/
  wfade : Nat
  /-- ARENA (R24). -/
  arena : Memory
deriving DecidableEq, Repr

/-- The register bank of one play head (R26), and its output stream OUT_h (R41). -/
structure Head where
  /-- POS_h, 31 bits, in [0, N). -/
  pos : Nat
  /-- XPOS_h, 31 bits, in [0, N). -/
  xpos : Nat
  /-- XREM_h, 16 bits, in [0, W]. -/
  xrem : Nat
  /-- LOOP_EN_h. -/
  loopEn : Bool
  /-- LOOP_START_h, 31 bits, in [0, N). -/
  loopStart : Nat
  /-- LOOP_END_h, 31 bits, in [0, N). -/
  loopEnd : Nat
  /-- LOOP_XF_DONE_h. -/
  xfDone : Bool
  /-- DOFF_h, 31 bits, in [0, N). -/
  doff : Nat
  /-- OUT_h, oldest sample first. -/
  out : List Sample
deriving DecidableEq, Repr

/-- The glitch/freeze controller (R29). -/
structure Controller where
  /-- CSTATE. -/
  cstate : CtlState
  /-- CMODE. -/
  cmode : CtlMode
  /-- UPDATES, 32 bits. -/
  updates : Nat
  /-- SHIFT_FWD. -/
  shiftFwd : Bool
  /-- SHIFT_TIMER, 16 bits, in [0, P]. -/
  shiftTimer : Nat
  /-- SHIFT_COUNT, 16 bits, in [0, R). -/
  shiftCount : Nat
  /-- LSS, 31 bits, in [1, N - 1]. -/
  lss : Nat
deriving DecidableEq, Repr

/-- ERRSTAT (R33): the first error since it was last cleared. -/
structure ErrStat where
  /-- ERR, bit 0. -/
  err : Bool
  /-- CAUSE, bits 7:4. -/
  cause : BitVec 4
  /-- INFO, bits 15:8. -/
  info : BitVec 8
deriving DecidableEq, Repr

/-- DELAY_h (R39): MODE (true = milliseconds) and VALUE. -/
structure DelayReg where
  ms : Bool
  value : BitVec 16
deriving DecidableEq, Repr

/-- The staging registers (R30, R34 to R39). -/
structure Staging where
  /-- BIT_DEPTH.DEPTH (R34). -/
  bitDepth : Depth
  /-- LOOP_SIZE.RATIO (R35). -/
  loopSize : BitVec 16
  /-- FREEZE.REQ (R36). -/
  freeze : FreezeReq
  /-- GLITCH.DURATION_MS (R37). -/
  glitchMs : BitVec 16
  /-- GLITCH.PENDING (R37). -/
  glitchPending : Bool
  /-- SPEED.RATIO (R38). -/
  speed : BitVec 16
  /-- DELAY_h for h = 0 to H - 1 (R39). -/
  delays : List DelayReg
deriving DecidableEq, Repr

/-- The three agents of R7. -/
inductive Agent where
  | engine | control | host
deriving DecidableEq, Repr

/-- What the host does to the machine (R7, R41, R290; logs 8 and 9). -/
inductive HostAction where
  /-- Append one sample to IN. -/
  | supply (x : Sample)
  /-- Remove the oldest sample of OUT_h. -/
  | takeOut (head : BitVec 4)
  /-- Remove the oldest word of RESP. -/
  | takeResp
  /-- Assert the reset input. -/
  | assertReset
deriving DecidableEq, Repr

/-- The MODEL's own fields (log 3): what each agent has offered and the machine not yet taken, and the order in
which the agents move. -/
structure Ports where
  /-- Words on the engine port, oldest first. -/
  ep : List Word
  /-- Transactions on the control port, oldest first. -/
  cp : List Transaction
  /-- Words that CP reads have returned, oldest first (log 7). -/
  cpOut : List Word
  /-- The host's pending actions, oldest first. -/
  host : List HostAction
  /-- The agents in the order they move; when it is empty `nextAgent` chooses (log 3). -/
  sched : List Agent
deriving DecidableEq, Repr

/-- The whole machine: the parameters of the instance (log 1), the units of 10_state.md, the streams IN and RESP
(R41), and what waits on the ports. -/
structure State where
  cfg : Config
  buf : Buffer
  heads : List Head
  ctl : Controller
  stg : Staging
  err : ErrStat
  /-- IN, oldest sample first. -/
  inq : List Sample
  /-- RESP, oldest word first. -/
  resp : List Word
  ports : Ports
deriving DecidableEq, Repr

/-- Why a step stops. The GDC itself has no fault: "the real-time callback must never fail" (R250, R272). -/
inductive Fault where
  /-- Raised by `step` alone, where the parameters are outside the legal ranges of R5: no such instance exists.
  Safe: it stops where no hardware is (log 2). -/
  | illegalParameters
deriving DecidableEq, Repr

/-- Why an instruction has no meaning. -/
inductive Refusal where
  /-- Raised by an arm of `exec` for an instruction that has no meaning yet; safe. No arm raises it. -/
  | notModelled (mnemonic : String)
deriving DecidableEq, Repr

/-- A play head after reset (R26, R290). -/
def Head.reset : Head where
  pos := 0
  xpos := 0
  xrem := 0
  loopEn := false
  loopStart := 0
  loopEnd := 0
  xfDone := false
  doff := 0
  out := []

/-- The state after reset of an instance with parameters `c` (R290); N0 = floor(C / 2) is the slot count at the
reset depth of 16. The ports are empty: nothing has been offered yet (log 3). -/
def State.resetWith (c : Config) : State where
  cfg := c
  buf := { depth := .d16, wh := 0, wfade := 0, arena := [] }
  heads := List.replicate c.numHeads Head.reset
  ctl := { cstate := .idle, cmode := .glitch, updates := 0, shiftFwd := true, shiftTimer := 0, shiftCount := 0,
           lss := min (max (4096 * (c.capacity / 2) / 65536) 1) (c.capacity / 2 - 1) }
  stg := { bitDepth := .d16, loopSize := 0x1000, freeze := .none, glitchMs := 0, glitchPending := false,
           speed := 0x0100, delays := List.replicate c.numHeads { ms := false, value := 0 } }
  err := { err := false, cause := 0, info := 0 }
  inq := []
  resp := []
  ports := { ep := [], cp := [], cpOut := [], host := [], sched := [] }

/-- The machine right after reset, for the instance `Config.reference` (log 1). -/
def State.reset : State := State.resetWith Config.reference

end Sys2Proof.Machine
end

