-- ==== Sys2Proof/Machine/Operands.lean ====
section
/-! DEFINITION. Operand assembly (30_encoding.md R82) and the arithmetic of positions (00_scope.md R8, R9). -/

namespace Sys2Proof.Machine

/-- `imm.u16` (R82). -/
def immU16 (imm : BitVec 16) : Nat := imm.toNat
/-- `imm.i16` (R82): the field as a sample. -/
def immI16 (imm : BitVec 16) : Sample := imm
/-- `imm.raw` (R82): the field as a bit pattern, read as a stored value. -/
def immRaw (imm : BitVec 16) : Nat := imm.toNat
/-- `opa.i32`, `opb.i32` (R82). -/
def opI32 (op : Word) : Int := op.toInt
/-- `opa.u32` (R82). -/
def opU32 (op : Word) : Nat := op.toNat
/-- `head` (R82). -/
def headNum (head : BitVec 4) : Nat := head.toNat

/-- `x mod n`, the Euclidean remainder, in [0, n) also for negative x (R8, R9). -/
def wrap (x : Int) (n : Nat) : Nat := (x % (n : Int)).toNat

/-- `clamp(v, lo, hi) = min(max(v, lo), hi)` (R8). -/
def clamp (v lo hi : Nat) : Nat := min (max v lo) hi

/-- The circular distance `cdist(a, b) = min((a - b) mod N, (b - a) mod N)` (R9). -/
def cdist (a b n : Nat) : Nat := min (wrap ((a : Int) - b) n) (wrap ((b : Int) - a) n)

/-- `inregion(p, s, e) = ((p - s) mod N) < ((e - s) mod N)` (R9). -/
def inregion (p s e n : Nat) : Bool := decide (wrap ((p : Int) - s) n < wrap ((e : Int) - s) n)

/-- `sext_32` of an i16 sample, as a response word (R84). -/
def sext32 (x : Sample) : Word := x.signExtend 32

/-- `zext_32` of a number below 2^32, as a response word (R84). -/
def zext32 (v : Nat) : Word := BitVec.ofNat 32 v

end Sys2Proof.Machine
end

