-- ==== Sys2Proof/Machine/Codec.lean ====
section
/-! DEFINITION. The sample codec (40_codec.md section 1 and 2). -/

namespace Sys2Proof.Machine

/-- The number of bits of a supported depth (R100). -/
def Depth.bits : Depth → Nat
  | .d4 => 4
  | .d8 => 8
  | .d12 => 12
  | .d16 => 16

/-- The depth of a number of bits; `clampDepth` asks only for 4, 8, 12 and 16. -/
def depthOfBits (n : Nat) : Depth :=
  if n ≤ 4 then .d4 else if n ≤ 8 then .d8 else if n ≤ 12 then .d12 else .d16

/-- `clampDepth(r) = 4 * floor((clamp(r, 4, 16) + 2) / 4)` (R100). -/
def clampDepth (r : Nat) : Depth := depthOfBits (4 * ((clamp r 4 16 + 2) / 4))

/-- Bytes per sample, `bps(d) = ceil(d / 8)` (R101). -/
def Depth.bps (d : Depth) : Nat := (d.bits + 7) / 8

/-- `Encode(s, d)` (R102): the stored code, an unsigned number of 8 * bps(d) bits. The shift right is the floored
division by a power of two (log 14). -/
def encodeSample (x : Sample) (d : Depth) : Nat :=
  ((x.toInt / 2 ^ (16 - d.bits)) % 2 ^ (8 * d.bps)).toNat

/-- `Decode(v, d)` (R103): the low d bits as a d-bit two's complement number, scaled to 16 bits. -/
def decodeSample (v : Nat) (d : Depth) : Sample :=
  BitVec.ofInt 16 ((BitVec.ofNat d.bits v).toInt * 2 ^ (16 - d.bits))

end Sys2Proof.Machine
end

