-- ==== Sys2Proof/Machine/Flags.lean ====
section
/-! DEFINITION. The status bits: the GDC has no condition flags (R11), so these are STATUS (R32), ERRSTAT (R33) and
the words a CP read of each register returns (10_state.md R34 to R40). -/

namespace Sys2Proof.Machine

/-- `freeze_active()` (R32). -/
def freezeActive (k : Controller) : Bool := k.cstate == .active && k.cmode == .freeze

/-- `glitch_active()` (R32). -/
def glitchActive (k : Controller) : Bool := k.cstate == .active && k.cmode == .glitch

/-- STATUS: bit 0 FREEZE_ACTIVE, bit 1 GLITCH_ACTIVE, bits 31:2 zero (R32). -/
def statusWord (k : Controller) : Word :=
  (0#30) ++ BitVec.ofBool (glitchActive k) ++ BitVec.ofBool (freezeActive k)

/-- The cause codes of R270. -/
def causeCode : ErrCause → BitVec 4
  | .illegalOpcode => 1
  | .reservedField => 2
  | .badHead => 3
  | .cpBadWrite => 4

/-- ERRSTAT: bit 0 ERR, bits 7:4 CAUSE, bits 15:8 INFO, the others zero (R33). -/
def errstatWord (e : ErrStat) : Word := (0#16) ++ e.info ++ e.cause ++ (0#3) ++ BitVec.ofBool e.err

/-- ERRSTAT cleared (R33, R227). -/
def errNone : ErrStat := { err := false, cause := 0, info := 0 }

/-- ERRSTAT after an error: the first error is kept (R272). -/
def recordErr (cause : ErrCause) (info : BitVec 8) (e : ErrStat) : ErrStat :=
  if e.err then e else { err := true, cause := causeCode cause, info := info }

/-- FREEZE.REQ as its two bits (R36). -/
def reqBits : FreezeReq → BitVec 2
  | .none => 0
  | .on => 1
  | .off => 2
  | .toggle => 3

/-- BIT_DEPTH as read (R34). -/
def bitDepthWord (g : Staging) : Word := BitVec.ofNat 32 g.bitDepth.bits
/-- LOOP_SIZE as read (R35). -/
def loopSizeWord (g : Staging) : Word := (0#16) ++ g.loopSize
/-- FREEZE as read (R36). -/
def freezeWord (g : Staging) : Word := (0#30) ++ reqBits g.freeze
/-- GLITCH as read (R37). -/
def glitchWord (g : Staging) : Word := (0#15) ++ BitVec.ofBool g.glitchPending ++ g.glitchMs
/-- SPEED as read (R38). -/
def speedWord (g : Staging) : Word := (0#16) ++ g.speed
/-- DELAY_h as read (R39). -/
def delayWord (d : DelayReg) : Word := BitVec.ofBool d.ms ++ (0#15) ++ d.value

end Sys2Proof.Machine
end

