-- ==== Sys2Proof/Machine/Ops.lean ====
section
/-! DEFINITION. The shared operations: the parts of the state, the arena's bytes and slots, the crossfade function,
the streams, and the recording of an error (the GDC's only exception-like action, 60_exceptions.md R272, R277). -/

namespace Sys2Proof.Machine

/-! ### Replacing one part of the state -/

def State.setBuf (s : State) (b : Buffer) : State := { s with buf := b }
def State.setHeads (s : State) (hs : List Head) : State := { s with heads := hs }
def State.setCtl (s : State) (k : Controller) : State := { s with ctl := k }
def State.setStg (s : State) (g : Staging) : State := { s with stg := g }
def State.setErr (s : State) (e : ErrStat) : State := { s with err := e }
def State.setInq (s : State) (xs : List Sample) : State := { s with inq := xs }
def State.setResp (s : State) (ws : List Word) : State := { s with resp := ws }
def State.setPorts (s : State) (p : Ports) : State := { s with ports := p }

/-! ### The arena's bytes (R24, R60 to R62) -/

/-- What an address the arena's list does not hold reads as: "every byte 0x00" at reset (R24). -/
def Memory.unlisted : BitVec 8 := 0x00#8

/-- One byte of the arena. -/
def Memory.read : Memory → Nat → BitVec 8
  | [], _ => Memory.unlisted
  | (b, v) :: m, a => if a = b then v else Memory.read m a

/-- Write one byte, keeping the canonical form. -/
def Memory.write : Memory → Nat → BitVec 8 → Memory
  | [], a, v => if v = Memory.unlisted then [] else [(a, v)]
  | (b, w) :: m, a, v =>
    if a < b then (if v = Memory.unlisted then (b, w) :: m else (a, v) :: (b, w) :: m)
    else if a = b then (if v = Memory.unlisted then m else (a, v) :: m)
    else (b, w) :: Memory.write m a v

/-- The canonical form: addresses strictly rising, no entry equal to what an unlisted address reads as. -/
abbrev Memory.wf (m : Memory) : Prop :=
  List.Pairwise (fun x y => x < y) (m.map (fun c => c.1)) ∧ ∀ c ∈ m, c.2 ≠ Memory.unlisted

/-- No listed address is outside the arena of `capacity` bytes (R60, R61). -/
abbrev Memory.within (capacity : Nat) (m : Memory) : Prop := ∀ c ∈ m, c.1 < capacity

/-- `MemRead(addr, n)` (R10): n bytes as an unsigned number, little-endian (R62). -/
def memRead (m : Memory) (addr : Nat) : Nat → Nat
  | 0 => 0
  | n + 1 => (m.read addr).toNat + 256 * memRead m (addr + 1) n

/-- `MemWrite(addr, n, v)` (R10): the low 8n bits of v, little-endian (R62). -/
def memWrite (m : Memory) (addr : Nat) : Nat → Nat → Memory
  | 0, _ => m
  | n + 1, v => memWrite (m.write addr (BitVec.ofNat 8 v)) (addr + 1) n (v / 256)

/-! ### Slots -/

/-- The slot count at a depth, `floor(C / bps(d))` (R6). -/
def slotsAt (c : Config) (d : Depth) : Nat := c.capacity / d.bps

/-- N, the slot count at the live depth (R6). -/
def Buffer.slots (c : Config) (b : Buffer) : Nat := slotsAt c b.depth

/-- N of a state (R6). -/
def State.slots (s : State) : Nat := s.buf.slots s.cfg

/-- The first byte address of slot `i` (R60); a slot access at index x touches slot x mod N (R61, log 10). -/
def Buffer.slotAddr (c : Config) (b : Buffer) (i : Nat) : Nat := (i % b.slots c) * b.depth.bps

/-- `SlotRead(i)` (R120). -/
def slotRead (c : Config) (b : Buffer) (i : Nat) : Sample :=
  decodeSample (memRead b.arena (b.slotAddr c i) b.depth.bps) b.depth

/-- `SlotWrite(i, s)` (R121). -/
def slotWrite (c : Config) (b : Buffer) (i : Nat) (x : Sample) : Buffer :=
  { b with arena := memWrite b.arena (b.slotAddr c i) b.depth.bps (encodeSample x b.depth) }

/-- `Blend(o, n, r) = floor((o * r + n * (W - r)) / W)` (R122). -/
def blend (c : Config) (old new : Sample) (r : Nat) : Sample :=
  BitVec.ofInt 16 ((old.toInt * r + new.toInt * ((c.fadeWindow : Int) - r)) / c.fadeWindow)

/-! ### Conversions of staged and commanded delays -/

/-- `DR(v) = min(floor(v * N / 65536), N - 1)` (R136). -/
def delayFromRatio (n v : Nat) : Nat := min (v * n / 65536) (n - 1)

/-- `DM(ms) = min(floor(ms * FS / 1000), N - 1)` (R137). -/
def delayFromMs (c : Config) (n ms : Nat) : Nat := min (ms * c.sampleRate / 1000) (n - 1)

/-! ### Streams and errors -/

/-- `RespPush(w)` (R10). -/
def State.respPush (s : State) (w : Word) : State := s.setResp (s.resp ++ [w])

/-- `CmdError(cause, info)` (R272): "neither has an effect on any state but ERRSTAT" (R10). -/
def cmdError (cause : ErrCause) (info : BitVec 8) (s : State) : State := s.setErr (recordErr cause info s.err)

/-- `CpError(addr)` is `CmdError(4, addr)` (R274). -/
def cpError (addr : BitVec 8) (s : State) : State := cmdError .cpBadWrite addr s

/-- A command of head `head`: `f` on that head's bank and stream, or BAD_HEAD where HEAD >= H (R271, R87 item 3).
`opc` is the command's opcode byte, which ERRSTAT.INFO takes. -/
def State.onHead (s : State) (opc : BitVec 8) (head : BitVec 4) (f : Head → Head) : State :=
  if headNum head < s.cfg.numHeads then s.setHeads (s.heads.modify (headNum head) f)
  else cmdError .badHead opc s

end Sys2Proof.Machine
end

