-- ==== Sys2Proof/Machine/PlayHead.lean ====
section
/-! DEFINITION. The play heads (42_play_head.md). Every function here takes the delay buffer to read and one head's
bank, and gives that bank back: a head touches "only head h's bank, its output stream OUT_h, and (read-only) the
delay buffer". -/

namespace Sys2Proof.Machine

/-- `Advance(h)` on a ring of `n` slots (R151). -/
def advance (c : Config) (n : Nat) (hd : Head) : Head :=
  let p := (hd.pos + 1) % n
  if hd.loopEn && p == hd.loopEnd then
    if hd.xfDone then { hd with pos := hd.loopStart }
    else { hd with pos := hd.loopStart, xpos := hd.loopEnd, xrem := c.fadeWindow, xfDone := true }
  else { hd with pos := p }

/-- `PlaySample(h)` (R150): the output sample and the head after it. -/
def playSample (c : Config) (b : Buffer) (hd : Head) : Sample × Head :=
  let a := slotRead c b hd.pos
  if 0 < hd.xrem then
    (blend c (slotRead c b hd.xpos) a hd.xrem,
      advance c (b.slots c) { hd with xpos := (hd.xpos + 1) % b.slots c, xrem := hd.xrem - 1 })
  else (a, advance c (b.slots c) hd)

/-- n output samples in order, and the head after them. -/
def playSamples (c : Config) (b : Buffer) : Nat → Head → List Sample × Head
  | 0, hd => ([], hd)
  | n + 1, hd =>
    let r := playSample c b hd
    let q := playSamples c b n r.2
    (r.1 :: q.1, q.2)

/-- READ_BLOCK(h, n): the samples go to OUT_h (R162). -/
def readHead (c : Config) (b : Buffer) (n : Nat) (hd : Head) : Head :=
  let r := playSamples c b n hd
  { r.2 with out := hd.out ++ r.1 }

/-- `Retarget(h, t)` on a ring of `n` slots (R152). -/
def retarget (c : Config) (n t : Nat) (hd : Head) : Head :=
  if cdist t hd.pos n ≤ 1 then { hd with pos := t }
  else { hd with xpos := hd.pos, pos := t, xrem := c.fadeWindow }

/-- SET_PLAY_HEAD(h, off) (R160): ignored while a loop is active. -/
def followHead (c : Config) (b : Buffer) (off : Int) (hd : Head) : Head :=
  if hd.loopEn then hd else retarget c (b.slots c) (wrap ((b.wh : Int) - off) (b.slots c)) hd

/-- ENABLE_LOOP(h, s, e) on a ring of `n` slots (R164). -/
def enableLoopHead (c : Config) (n : Nat) (loopStart loopEnd : Int) (hd : Head) : Head :=
  let s' := wrap loopStart n
  let e₀ := wrap loopEnd n
  let e' := if e₀ = s' then wrap ((s' : Int) - 1) n else e₀
  let hd' := { hd with loopStart := s', loopEnd := e', loopEn := true, xfDone := false }
  if inregion hd.pos s' e' n then hd' else retarget c n s' hd'

/-- DISABLE_LOOP(h) (R166): the bounds are kept, though nothing reads them now (log 17). -/
def disableLoopHead (hd : Head) : Head := { hd with loopEn := false }

/-- SHIFT_LOOP(h, off) on a ring of `n` slots (R168). -/
def shiftLoopHead (n : Nat) (off : Int) (hd : Head) : Head :=
  if hd.loopEn then
    { hd with
      loopStart := wrap (hd.loopStart + off) n
      loopEnd := wrap (hd.loopEnd + off) n
      pos := wrap (hd.pos + off) n }
  else hd

/-- SET_PLAY_HEAD (R160). -/
def execSetPlayHead (head : BitVec 4) (offset : BitVec 32) (s : State) : Host.Outcome State Fault Refusal :=
  .next (s.onHead 0x20 head (followHead s.cfg s.buf (opI32 offset)))

/-- READ_BLOCK (R162). -/
def execReadBlock (head : BitVec 4) (count : BitVec 16) (s : State) : Host.Outcome State Fault Refusal :=
  .next (s.onHead 0x21 head (readHead s.cfg s.buf (immU16 count)))

/-- ENABLE_LOOP (R164). -/
def execEnableLoop (head : BitVec 4) (loopStart loopEnd : BitVec 32) (s : State) :
    Host.Outcome State Fault Refusal :=
  .next (s.onHead 0x22 head (enableLoopHead s.cfg s.slots (opI32 loopStart) (opI32 loopEnd)))

/-- DISABLE_LOOP (R166). -/
def execDisableLoop (head : BitVec 4) (s : State) : Host.Outcome State Fault Refusal :=
  .next (s.onHead 0x23 head disableLoopHead)

/-- SHIFT_LOOP (R168). -/
def execShiftLoop (head : BitVec 4) (offset : BitVec 32) (s : State) : Host.Outcome State Fault Refusal :=
  .next (s.onHead 0x24 head (shiftLoopHead s.slots (opI32 offset)))

end Sys2Proof.Machine
end

