-- ==== Sys2Proof/Machine/Controller.lean ====
section
/-! DEFINITION. The glitch/freeze controller (43_controller.md). It performs each head operation on every head, 0 to
H - 1; since a head operation touches only its own head, the loop over the heads is a map (log 13). -/

namespace Sys2Proof.Machine

/-- `U(ms) = max(1, floor(ms * FS / (1000 * B)))`, the length of a glitch in callbacks (R192). -/
def glitchCallbacks (c : Config) (ms : Nat) : Nat := max 1 (ms * c.sampleRate / (1000 * c.blockSize))

/-- The end of the loop window that trails the write head by M (R194). -/
def windowEnd (s : State) : Nat := wrap ((s.buf.wh : Int) - s.cfg.loopMargin) s.slots

/-- The start of that window, LSS before its end (R194). -/
def windowStart (s : State) : Nat := wrap ((windowEnd s : Int) - s.ctl.lss) s.slots

/-- `LoopEnter()` (R194). -/
def loopEnter (s : State) : State :=
  (s.setHeads (s.heads.map (enableLoopHead s.cfg s.slots (windowStart s) (windowEnd s)))).setCtl
    { s.ctl with shiftFwd := true, shiftTimer := s.cfg.shiftPeriod, shiftCount := 0 }

/-- The offset of the next loop shift: A forward, -A backward (R195). -/
def shiftOffset (s : State) : Int := if s.ctl.shiftFwd then (s.cfg.shiftSamples : Int) else -(s.cfg.shiftSamples : Int)

/-- The controller after a shift: the timer reloaded, the direction reversed after R shifts (R195). -/
def shiftedCtl (c : Config) (k : Controller) : Controller :=
  if k.shiftCount + 1 = c.shiftReverseEvery then
    { k with shiftTimer := c.shiftPeriod, shiftFwd := !k.shiftFwd, shiftCount := 0 }
  else { k with shiftTimer := c.shiftPeriod, shiftCount := k.shiftCount + 1 }

/-- `ShiftTick()` (R195). -/
def shiftTick (s : State) : State :=
  if s.cfg.shiftPeriod = 0 then s
  else if s.ctl.shiftTimer - 1 = 0 then
    (s.setHeads (s.heads.map (shiftLoopHead s.slots (shiftOffset s)))).setCtl (shiftedCtl s.cfg s.ctl)
  else s.setCtl { s.ctl with shiftTimer := s.ctl.shiftTimer - 1 }

/-- `LoopRelease()` (R196). -/
def loopRelease (s : State) : State := s.setHeads (s.heads.map disableLoopHead)

/-- CSTATE <- RELEASING, then the release at the end of the controller step and IDLE (R193, R196). -/
def releaseToIdle (s : State) : State := (loopRelease s).setCtl { s.ctl with cstate := .idle }

/-- The countdown of an ACTIVE timed glitch (R193): UPDATES is decremented unless this callback loaded it; at zero
the loop is released, else the shift cadence ticks. -/
def glitchTick (reloaded : Bool) (s : State) : State :=
  let u := if reloaded then s.ctl.updates else s.ctl.updates - 1
  let s' := s.setCtl { s.ctl with updates := u }
  if u = 0 then releaseToIdle s' else shiftTick s'

/-- `ControllerStep(reloaded)` (R193), by the state the apply step left. -/
def controllerStep (reloaded : Bool) (s : State) : State :=
  match s.ctl.cstate with
  | .idle => s
  | .armed => (loopEnter s).setCtl { (loopEnter s).ctl with cstate := .active }
  | .active =>
    match s.ctl.cmode with
    | .glitch => glitchTick reloaded s
    | .freeze => s
  | .releasing => releaseToIdle s

end Sys2Proof.Machine
end

