-- ==== Sys2Proof/Machine/DelayBuffer.lean ====
section
/-! DEFINITION. The delay-buffer commands (41_delay_buffer.md section 2). -/

namespace Sys2Proof.Machine

/-- One turn of WRITE_BLOCK's loop (R125): blend while a write fade runs, store, advance the write head. WFADE = 0
stays 0, since it is decremented only while it is positive. -/
def writeSample (c : Config) (b : Buffer) (x : Sample) : Buffer :=
  let y := if 0 < b.wfade then blend c (slotRead c b b.wh) x b.wfade else x
  { slotWrite c b b.wh y with wh := (b.wh + 1) % b.slots c, wfade := b.wfade - 1 }

/-- The samples of a block, written in order (R125). -/
def writeSamples (c : Config) (b : Buffer) (xs : List Sample) : Buffer := xs.foldl (writeSample c) b

/-- WRITE_BLOCK(n) on a state whose IN holds at least n samples (R125). -/
def writeBlock (n : Nat) (s : State) : State :=
  (s.setBuf (writeSamples s.cfg s.buf (s.inq.take n))).setInq (s.inq.drop n)

/-- The positions of a head after a depth change to `n` slots (R130). -/
def renormHead (n : Nat) (hd : Head) : Head :=
  let p := hd.pos % n
  let ls := hd.loopStart % n
  let le₀ := hd.loopEnd % n
  let le := if hd.loopEn && le₀ == ls then wrap ((ls : Int) - 1) n else le₀
  { hd with
    pos := if hd.loopEn && !inregion p ls le n then ls else p
    xpos := hd.xpos % n
    loopStart := ls
    loopEnd := le
    doff := min hd.doff (n - 1) }

/-- SET_BIT_DEPTH to the supported depth `d` (R130): no state changes where it is the live depth. -/
def setDepth (d : Depth) (s : State) : State :=
  if d = s.buf.depth then s
  else
    let n := slotsAt s.cfg d
    ((s.setBuf { s.buf with depth := d, wh := s.buf.wh % n }).setCtl
      { s.ctl with lss := min s.ctl.lss (n - 1) }).setHeads (s.heads.map (renormHead n))

/-- WRITE_BLOCK (R125); with fewer than n samples in IN it does not start and nothing changes (R301, log 6). -/
def execWriteBlock (count : BitVec 16) (s : State) : Host.Outcome State Fault Refusal :=
  if s.inq.length < immU16 count then .next s else .next (writeBlock (immU16 count) s)

/-- READ_SAMPLE (R126). -/
def execReadSample (index : BitVec 32) (s : State) : Host.Outcome State Fault Refusal :=
  .next (s.respPush (sext32 (slotRead s.cfg s.buf (wrap (opI32 index) s.slots))))

/-- SET_WRITE_HEAD (R127). -/
def execSetWriteHead (position : BitVec 32) (s : State) : Host.Outcome State Fault Refusal :=
  .next (s.setBuf { s.buf with wh := wrap (opI32 position) s.slots, wfade := s.cfg.fadeWindow })

/-- SET_BIT_DEPTH (R130). -/
def execSetBitDepth (depth : BitVec 16) (s : State) : Host.Outcome State Fault Refusal :=
  .next (setDepth (clampDepth (immU16 depth)) s)

/-- DELAY_FROM_RATIO (R136). -/
def execDelayFromRatio (ratio : BitVec 16) (s : State) : Host.Outcome State Fault Refusal :=
  .next (s.respPush (zext32 (delayFromRatio s.slots (immU16 ratio))))

/-- DELAY_FROM_MS (R137). -/
def execDelayFromMs (ms : BitVec 32) (s : State) : Host.Outcome State Fault Refusal :=
  .next (s.respPush (zext32 (delayFromMs s.cfg s.slots (opU32 ms))))

end Sys2Proof.Machine
end

