-- ==== Sys2Proof/Machine/Staging.lean ====
section
/-! DEFINITION. Parameter staging (44_staging.md): the CP transactions, and the apply step of PROCESS_BLOCK. -/

namespace Sys2Proof.Machine

/-! ### Control-port transactions (section 1) -/

/-- The request a write of FREEZE makes of data bits 1:0; 0 makes none and leaves the pending one (R36, R223). -/
def freezeRequest (data : BitVec 32) (pending : FreezeReq) : FreezeReq :=
  if data.extractLsb' 0 2 = 1#2 then .on
  else if data.extractLsb' 0 2 = 2#2 then .off
  else if data.extractLsb' 0 2 = 3#2 then .toggle
  else pending

/-- DELAY_h of h < H; a head number the list does not hold has the reset value (R39). -/
def delayOf (g : Staging) (h : Nat) : DelayReg := g.delays.getD h { ms := false, value := 0 }

/-- `ReadValue(addr)` (R228, R31 to R40); reserved addresses read 0. -/
def readValue (addr : BitVec 8) (s : State) : Word :=
  if addr = 0x00#8 then statusWord s.ctl
  else if addr = 0x01#8 then errstatWord s.err
  else if addr = 0x02#8 then bitDepthWord s.stg
  else if addr = 0x03#8 then loopSizeWord s.stg
  else if addr = 0x04#8 then freezeWord s.stg
  else if addr = 0x05#8 then glitchWord s.stg
  else if addr = 0x06#8 then speedWord s.stg
  else if 0x10 ≤ addr.toNat ∧ addr.toNat < 0x10 + s.cfg.numHeads then delayWord (delayOf s.stg (addr.toNat - 0x10))
  else 0

/-- CPW_ERRSTAT (R227): data bit 0 clears the recorded error. -/
def execCpwErrstat (data : BitVec 32) (s : State) : Host.Outcome State Fault Refusal :=
  .next (if data.getLsbD 0 then s.setErr errNone else s)

/-- CPW_BIT_DEPTH (R221): the clamp is at the write, on the whole 32-bit value. -/
def execCpwBitDepth (data : BitVec 32) (s : State) : Host.Outcome State Fault Refusal :=
  .next (s.setStg { s.stg with bitDepth := clampDepth data.toNat })

/-- CPW_LOOP_SIZE (R222). -/
def execCpwLoopSize (data : BitVec 32) (s : State) : Host.Outcome State Fault Refusal :=
  .next (s.setStg { s.stg with loopSize := data.extractLsb' 0 16 })

/-- CPW_FREEZE (R223). -/
def execCpwFreeze (data : BitVec 32) (s : State) : Host.Outcome State Fault Refusal :=
  .next (s.setStg { s.stg with freeze := freezeRequest data s.stg.freeze })

/-- CPW_GLITCH (R224). -/
def execCpwGlitch (data : BitVec 32) (s : State) : Host.Outcome State Fault Refusal :=
  .next (s.setStg { s.stg with glitchMs := data.extractLsb' 0 16, glitchPending := true })

/-- CPW_SPEED (R226): stored and read back, read by no rule. -/
def execCpwSpeed (data : BitVec 32) (s : State) : Host.Outcome State Fault Refusal :=
  .next (s.setStg { s.stg with speed := data.extractLsb' 0 16 })

/-- CPW_DELAY (R225); for h >= H the address is reserved (R220, R274, log 11). -/
def execCpwDelay (head : BitVec 4) (data : BitVec 32) (s : State) : Host.Outcome State Fault Refusal :=
  if headNum head < s.cfg.numHeads then
    .next (s.setStg { s.stg with
      delays := s.stg.delays.set (headNum head) { ms := data.getLsbD 31, value := data.extractLsb' 0 16 } })
  else .next (cpError (delayAddrOf head) s)

/-- CPW_REFUSED (R220, R274). -/
def execCpwRefused (addr : BitVec 8) (_data : BitVec 32) (s : State) : Host.Outcome State Fault Refusal :=
  .next (cpError addr s)

/-- CPR (R228): the word goes back to the control agent (log 7); "a read changes no register". -/
def execCpr (addr : BitVec 8) (_data : BitVec 32) (s : State) : Host.Outcome State Fault Refusal :=
  .next (s.setPorts { s.ports with cpOut := s.ports.cpOut ++ [readValue addr s] })

/-! ### The apply step of PROCESS_BLOCK (section 2) -/

/-- Step (a), R231. -/
def applyDepth (s : State) : State := setDepth s.stg.bitDepth s

/-- The sample offset of a staged delay (R232). -/
def delayOffset (c : Config) (n : Nat) (d : DelayReg) : Nat :=
  if d.ms then delayFromMs c n d.value.toNat else delayFromRatio n d.value.toNat

/-- Step (b), R232, on every head. -/
def applyDelays (s : State) : State :=
  s.setHeads (s.heads.mapIdx (fun h hd => { hd with doff := delayOffset s.cfg s.slots (delayOf s.stg h) }))

/-- `LS(v) = clamp(floor(v * N / 65536), 1, N - 1)` (R233). -/
def loopSamples (n v : Nat) : Nat := clamp (v * n / 65536) 1 (n - 1)

/-- Step (c), R233. -/
def applyLoopSize (s : State) : State :=
  s.setCtl { s.ctl with lss := loopSamples s.slots s.stg.loopSize.toNat }

/-- A toggle "is resolved against the freeze state as it stood before this step" (R234). -/
def resolveToggle (k : Controller) : FreezeReq → FreezeReq
  | .toggle => if freezeActive k then .off else .on
  | .none => .none
  | .on => .on
  | .off => .off

/-- The controller after a freeze request (R234). -/
def freezeCtl (req : FreezeReq) (k : Controller) : Controller :=
  match resolveToggle k req with
  | .on =>
    match k.cstate with
    | .idle => { k with cstate := .armed, cmode := .freeze }
    | .active => { k with cmode := .freeze }
    | .armed => k
    | .releasing => k
  | .off => if freezeActive k then { k with cstate := .releasing } else k
  | .none => k
  | .toggle => k

/-- Step (d), R234. -/
def applyFreeze (s : State) : State :=
  (s.setCtl (freezeCtl s.stg.freeze s.ctl)).setStg { s.stg with freeze := .none }

/-- The controller after a pending glitch request of `u` callbacks, and whether it loaded UPDATES (R235). -/
def glitchCtl (u : Nat) (k : Controller) : Controller × Bool :=
  match k.cstate with
  | .idle => ({ k with cstate := .armed, cmode := .glitch, updates := u }, true)
  | .releasing => ({ k with cstate := .armed, cmode := .glitch, updates := u }, true)
  | .active =>
    match k.cmode with
    | .glitch => ({ k with updates := u }, true)
    | .freeze => (k, false)
  | .armed => (k, false)

/-- Step (e), R235: the state and the flag `reloaded`. -/
def applyGlitch (s : State) : State × Bool :=
  if s.stg.glitchPending then
    let r := glitchCtl (glitchCallbacks s.cfg s.stg.glitchMs.toNat) s.ctl
    ((s.setCtl r.1).setStg { s.stg with glitchPending := false }, r.2)
  else (s, false)

/-- Step 1 of PROCESS_BLOCK in its fixed order (R230). -/
def applyStaged (s : State) : State × Bool :=
  applyGlitch (applyFreeze (applyLoopSize (applyDelays (applyDepth s))))

end Sys2Proof.Machine
end

