-- ==== Sys2Proof/Machine/Callback.lean ====
section
/-! DEFINITION. The block callback and NOP (45_callback.md). -/

namespace Sys2Proof.Machine

/-- Steps 1 and 2 of PROCESS_BLOCK (R250): apply the staged parameters, advance the controller. -/
def applyAndControl (s : State) : State := controllerStep (applyStaged s).2 (applyStaged s).1

/-- Step 3: heads that do not loop follow the write head at their delay (R250). -/
def followDelays (s : State) : State :=
  s.setHeads (s.heads.map (fun hd => followHead s.cfg s.buf hd.doff hd))

/-- Step 4: every head's output block (R250). -/
def readBlocks (n : Nat) (s : State) : State := s.setHeads (s.heads.map (readHead s.cfg s.buf n))

/-- The five steps of PROCESS_BLOCK on a state whose IN holds at least B samples (R250). -/
def processBlock (s : State) : State :=
  writeBlock s.cfg.blockSize (readBlocks s.cfg.blockSize (followDelays (applyAndControl s)))

/-- NOP (R251). -/
def execNop (s : State) : Host.Outcome State Fault Refusal := .next s

/-- PROCESS_BLOCK (R250); with fewer than B samples in IN it does not start and nothing changes (R301, log 6). -/
def execProcessBlock (s : State) : Host.Outcome State Fault Refusal :=
  if s.inq.length < s.cfg.blockSize then .next s else .next (processBlock s)

end Sys2Proof.Machine
end

