-- ==== Sys2Proof/Machine/CodecCmds.lean ====
section
/-! DEFINITION. The codec commands (40_codec.md section 3). -/

namespace Sys2Proof.Machine

/-- ENCODE (R105). -/
def execEncode (sample : BitVec 16) (depth : BitVec 32) (s : State) : Host.Outcome State Fault Refusal :=
  .next (s.respPush (zext32 (encodeSample (immI16 sample) (clampDepth (opU32 depth)))))

/-- DECODE (R106). -/
def execDecode (stored : BitVec 16) (depth : BitVec 32) (s : State) : Host.Outcome State Fault Refusal :=
  .next (s.respPush (sext32 (decodeSample (immRaw stored) (clampDepth (opU32 depth)))))

end Sys2Proof.Machine
end

