-- ==== Sys2Proof/Machine/Dispatch.lean ====
section
/-! DEFINITION. One arm per instruction. -/

namespace Sys2Proof.Machine

/-- The effect of one instruction. -/
def exec (i : Instr) (s : State) : Host.Outcome State Fault Refusal :=
  match i with
  | .nop => Sys2Proof.Machine.execNop s
  | .processBlock => Sys2Proof.Machine.execProcessBlock s
  | .encode sample depth => Sys2Proof.Machine.execEncode sample depth s
  | .decode stored depth => Sys2Proof.Machine.execDecode stored depth s
  | .writeBlock count => Sys2Proof.Machine.execWriteBlock count s
  | .readSample index => Sys2Proof.Machine.execReadSample index s
  | .setWriteHead position => Sys2Proof.Machine.execSetWriteHead position s
  | .setBitDepth depth => Sys2Proof.Machine.execSetBitDepth depth s
  | .delayFromRatio ratio => Sys2Proof.Machine.execDelayFromRatio ratio s
  | .delayFromMs ms => Sys2Proof.Machine.execDelayFromMs ms s
  | .setPlayHead head offset => Sys2Proof.Machine.execSetPlayHead head offset s
  | .readBlock head count => Sys2Proof.Machine.execReadBlock head count s
  | .enableLoop head loopStart loopEnd => Sys2Proof.Machine.execEnableLoop head loopStart loopEnd s
  | .disableLoop head => Sys2Proof.Machine.execDisableLoop head s
  | .shiftLoop head offset => Sys2Proof.Machine.execShiftLoop head offset s
  | .cpwErrstat data => Sys2Proof.Machine.execCpwErrstat data s
  | .cpwBitDepth data => Sys2Proof.Machine.execCpwBitDepth data s
  | .cpwLoopSize data => Sys2Proof.Machine.execCpwLoopSize data s
  | .cpwFreeze data => Sys2Proof.Machine.execCpwFreeze data s
  | .cpwGlitch data => Sys2Proof.Machine.execCpwGlitch data s
  | .cpwSpeed data => Sys2Proof.Machine.execCpwSpeed data s
  | .cpwDelay head data => Sys2Proof.Machine.execCpwDelay head data s
  | .cpwRefused addr data => Sys2Proof.Machine.execCpwRefused addr data s
  | .cpr addr data => Sys2Proof.Machine.execCpr addr data s

end Sys2Proof.Machine
end

