-- ==== Sys2Proof/Machine/Fetch.lean ====
section
/-! DEFINITION. The ports: which agent moves, and what it does short of running an instruction (00_scope.md R7,
60_exceptions.md R272, 70_reset_and_hazards.md R290, R301; logs 3 to 9). -/

namespace Sys2Proof.Machine

/-- The input samples a command must find in IN before it starts (R125, R250, R301). -/
def inputNeeded (c : Config) : Instr → Nat
  | .writeBlock count => immU16 count
  | .processBlock => c.blockSize
  | .nop | .encode _ _ | .decode _ _ | .readSample _ | .setWriteHead _ | .setBitDepth _ | .delayFromRatio _
  | .delayFromMs _ | .setPlayHead _ _ | .readBlock _ _ | .enableLoop _ _ _ | .disableLoop _ | .shiftLoop _ _
  | .cpwErrstat _ | .cpwBitDepth _ | .cpwLoopSize _ | .cpwFreeze _ | .cpwGlitch _ | .cpwSpeed _ | .cpwDelay _ _
  | .cpwRefused _ _ | .cpr _ _ => 0

/-- The input hold (R301). -/
def holds (i : Instr) (s : State) : Bool := decide (s.inq.length < inputNeeded s.cfg i)

/-- Whether the engine agent has something it can do now. -/
def engineCanMove (s : State) : Bool :=
  match decodeEp s.ports.ep with
  | .wait => false
  | .reject _ _ _ => true
  | .instr i _ => !holds i s

/-- The agent that moves next: the schedule's first, and where the schedule is empty the engine if it can move, else
the control agent if it has a transaction, else the host (DESIGN CHOICE, log 3). -/
def nextAgent (s : State) : Agent :=
  match s.ports.sched with
  | a :: _ => a
  | [] => if engineCanMove s then .engine else if s.ports.cp.isEmpty then .host else .control

/-- The agent's turn is over: the schedule moves on. -/
def popTurn (s : State) : State := s.setPorts { s.ports with sched := s.ports.sched.tail }

/-- The words behind the engine's command are what is left on the engine port. -/
def leaveEp (rest : List Word) (s : State) : State := s.setPorts { s.ports with ep := rest }

/-- The reset input (R290): every piece of state of the GDC goes to its reset value; what waits on the ports belongs
to the agents outside and is kept (log 8). -/
def resetInput (s : State) : State := (State.resetWith s.cfg).setPorts s.ports

/-- One action of the host (R7, R41, R290; a removal from an empty stream finds nothing, log 9). -/
def hostAct (a : HostAction) (s : State) : State :=
  match a with
  | .supply x => s.setInq (s.inq ++ [x])
  | .takeOut head => s.setHeads (s.heads.modify (headNum head) (fun hd => { hd with out := hd.out.tail }))
  | .takeResp => s.setResp s.resp.tail
  | .assertReset => resetInput s

/-- What a turn comes to: an instruction to run at a state, or a state and no instruction. -/
inductive Fetched where
  | settled (s : State)
  | run (i : Instr) (s : State)
deriving DecidableEq, Repr

/-- The engine agent's turn: a malformed command is recorded and its words are consumed (R272); a command that must
wait for input, or whose words have not all come, stays on the port (R301, log 5). -/
def fetchEngine (s : State) : Fetched :=
  match decodeEp s.ports.ep with
  | .wait => .settled s
  | .reject cause opc rest => .settled (cmdError cause opc (leaveEp rest s))
  | .instr i rest => if holds i s then .settled s else .run i (leaveEp rest s)

/-- The control agent's turn: its oldest transaction. -/
def fetchControl (s : State) : Fetched :=
  match s.ports.cp with
  | [] => .settled s
  | t :: rest => .run (decodeCp t) (s.setPorts { s.ports with cp := rest })

/-- The host's turn: its oldest action. -/
def fetchHost (s : State) : Fetched :=
  match s.ports.host with
  | [] => .settled s
  | a :: rest => .settled (hostAct a (s.setPorts { s.ports with host := rest }))

/-- One turn of the agent that moves next. -/
def fetch (s : State) : Fetched :=
  match nextAgent s with
  | .engine => fetchEngine (popTurn s)
  | .control => fetchControl (popTurn s)
  | .host => fetchHost (popTurn s)

/-- The state with an EP command put before what waits on the engine port, the engine to move next, and IN holding
the samples the command needs before it can start (zero samples added where it holds fewer, log 4). -/
def offerEp (words : List Word) (s : State) : State :=
  let command := words.take (commandWords (opcOf (words.getD 0 0)))
  let need := match decodeEp words with
    | .instr i _ => inputNeeded s.cfg i
    | .wait => 0
    | .reject _ _ _ => 0
  (s.setInq (s.inq ++ List.replicate (need - s.inq.length) 0)).setPorts
    { s.ports with ep := command ++ s.ports.ep, sched := .engine :: s.ports.sched }

/-- The state with a CP transaction put before what waits on the control port, the control agent to move next. -/
def offerCp (t : Transaction) (s : State) : State :=
  s.setPorts { s.ports with cp := t :: s.ports.cp, sched := .control :: s.ports.sched }

end Sys2Proof.Machine
end

