-- ==== Sys2Proof/Machine/Step.lean ====
section
/-! DEFINITION. One step of the machine: one turn of one agent, with no notion of time (log 16). -/

namespace Sys2Proof.Machine

/-- One turn of the agent that moves next (R7): a machine with parameters outside R5 does not exist (log 2). -/
def step (s : State) : Host.Outcome State Fault Refusal :=
  if s.cfg.Legal then
    match fetch s with
    | .settled s' => .next s'
    | .run i s' => exec i s'
  else .fault .illegalParameters

/-- `s` with the instruction of `nbits` bits `w` (numbered as spec/opcode_table.json numbers them) offered on its port
and its agent to move next (logs 4 and 15). -/
def State.withFetchWord (s : State) (nbits w : Nat) : State :=
  if isCpWidth nbits then offerCp (BitVec.ofNat 41 w) s else offerEp (tableWords w) s

end Sys2Proof.Machine
end

