-- ==== Sys2Proof/Machine/Assembler.lean ====
section
/-! DEFINITION. The textual syntax of commands and transactions (30_encoding.md R90) and the pseudo-instructions (R91).
No rule of the machine reads this file: it says which words a line of text stands for (log 18). -/

namespace Sys2Proof

/-! ### Pseudo-instructions -/

/-- The pseudo-instructions of R91. -/
inductive Pseudo where
  | stageDelayRatio (head : BitVec 4) (v : BitVec 16)
  | stageDelayMs (head : BitVec 4) (ms : BitVec 16)
  | stageBitDepth (d : BitVec 32)
  | stageLoopSize (v : BitVec 32)
  | setFreezeOn
  | setFreezeOff
  | setFreezeToggle
  | activateGlitch (ms : BitVec 16)
  | stageSpeed (v : BitVec 32)
  | clearErrors
  | freezeActive
  | glitchActive
deriving DecidableEq, Repr

/-- The expansion of R91: one CP write, or for the two questions one CP read of STATUS, whose DATA,
which a read ignores (R86), is 0 (DESIGN CHOICE, log 18). -/
def Pseudo.expand : Pseudo → Instr
  | .stageDelayRatio head v => .cpwDelay head (v.setWidth 32)
  | .stageDelayMs head ms => .cpwDelay head (0x80000000#32 + ms.setWidth 32)
  | .stageBitDepth d => .cpwBitDepth d
  | .stageLoopSize v => .cpwLoopSize v
  | .setFreezeOn => .cpwFreeze 1
  | .setFreezeOff => .cpwFreeze 2
  | .setFreezeToggle => .cpwFreeze 3
  | .activateGlitch ms => .cpwGlitch (ms.setWidth 32)
  | .stageSpeed v => .cpwSpeed v
  | .clearErrors => .cpwErrstat 1
  | .freezeActive => .cpr 0x00 0
  | .glitchActive => .cpr 0x00 0

/-! ### Characters and numbers -/

/-- A blank character. -/
def isBlank (c : Char) : Bool := c == ' ' || c == '\t'

/-- The characters without the blanks at both ends. -/
def trimBlanks (cs : List Char) : List Char := ((cs.dropWhile isBlank).reverse.dropWhile isBlank).reverse

/-- The value of a digit of base 10 or 16, lower case. -/
def digitOf (base : Nat) (c : Char) : Option Nat :=
  let v := if '0' ≤ c ∧ c ≤ '9' then c.toNat - 48 else if 'a' ≤ c ∧ c ≤ 'f' then c.toNat - 87 else base
  if v < base then some v else none

/-- A number written in a base, with at least one digit; leading zeros count for nothing (DESIGN CHOICE, log 18). -/
def digitsOf (base : Nat) (cs : List Char) : Option Nat :=
  if cs.isEmpty then none else cs.foldlM (fun n c => (digitOf base c).map (fun d => n * base + d)) 0

/-- "numbers in decimal ... or hexadecimal with 0x" (R90). -/
def unsignedOf (cs : List Char) : Option Nat :=
  match cs with
  | '0' :: 'x' :: ds => digitsOf 16 ds
  | ds => digitsOf 10 ds

/-- "with optional leading - for signed operands" (R90), on a decimal number (DESIGN CHOICE, log 18). -/
def signedOf (cs : List Char) : Option Int :=
  match cs with
  | '-' :: ds => (digitsOf 10 ds).map (fun n => -(n : Int))
  | ds => (unsignedOf ds).map (fun n => (n : Int))

/-! ### Operands -/

/-- What stands at an operand's place (R90, R91). -/
inductive OperandKind where
  /-- A head, h0 to h15. -/
  | head
  /-- An unsigned number below 2^bits. -/
  | unsigned (bits : Nat)
  /-- A signed number of `bits` bits. -/
  | signed (bits : Nat)
  /-- A register name of R31 or a numeric address. -/
  | register
  /-- on, off or toggle. -/
  | request
deriving DecidableEq, Repr

/-- A number below `bound`: out of its field's range it "is an assembly error, not a command" (R90). -/
def boundedOf (bound : Nat) (cs : List Char) : Option Int :=
  (unsignedOf cs).bind (fun n => if n < bound then some (n : Int) else none)

/-- The named registers of R31 but for DELAY_h, lower case, at their addresses. -/
def registerNames : List (List Char) :=
  ["status", "errstat", "bit_depth", "loop_size", "freeze", "glitch", "speed"].map String.toList

/-- The address of a register name or number. R90 writes DELAY0 to DELAY15; the model takes any decimal number below
16, leading zeros included (DELAY007; DESIGN CHOICE, log 18). -/
def registerOf (cs : List Char) : Option Int :=
  match cs with
  | 'd' :: 'e' :: 'l' :: 'a' :: 'y' :: ds =>
    (digitsOf 10 ds).bind (fun k => if k < 16 then some (0x10 + (k : Int)) else none)
  | cs =>
    match registerNames.findIdx? (fun n => n == cs) with
    | some k => some (k : Int)
    | none => boundedOf 256 cs

/-- The value of one operand. R90 writes a head as h0 to h15; the model takes any decimal number below 16, leading zeros
included (h01, h0015; DESIGN CHOICE, log 18). -/
def operandOf : OperandKind → List Char → Option Int
  | .head, 'h' :: ds => (digitsOf 10 ds).bind (fun k => if k < 16 then some (k : Int) else none)
  | .head, _ => none
  | .unsigned bits, cs => boundedOf (2 ^ bits) cs
  | .signed bits, cs =>
    (signedOf cs).bind (fun v => if -(2 ^ (bits - 1)) ≤ v ∧ v < 2 ^ (bits - 1) then some v else none)
  | .register, cs => registerOf cs
  | .request, ['o', 'n'] => some 1
  | .request, ['o', 'f', 'f'] => some 2
  | .request, ['t', 'o', 'g', 'g', 'l', 'e'] => some 3
  | .request, _ => none

/-- The values of a line's operands, one for each kind. -/
def operandsOf : List OperandKind → List (List Char) → Option (List Int)
  | [], [] => some []
  | k :: ks, cs :: css => (operandOf k cs).bind (fun v => (operandsOf ks css).map (fun vs => v :: vs))
  | [], _ :: _ => none
  | _ :: _, [] => none

/-! ### Lines -/

/-- One row of the tables of R90 and R91. -/
structure AsmRow where
  mnemonic : String
  kinds : List OperandKind
  build : List Int → Option Instr

/-- The bits of an operand's value. -/
def bits (w : Nat) (v : Int) : BitVec w := BitVec.ofInt w v

/-- R90's table. It gives a `cpr` line an ADDR alone; the model assembles its DATA, which a read ignores (R86), as 0
(DESIGN CHOICE, log 18). -/
def commandRows : List AsmRow := [
  ⟨"nop", [], fun _ => some .nop⟩,
  ⟨"process_block", [], fun _ => some .processBlock⟩,
  ⟨"encode", [.signed 16, .unsigned 32], fun
    | [x, d] => some (.encode (bits 16 x) (bits 32 d))
    | _ => none⟩,
  ⟨"decode", [.unsigned 16, .unsigned 32], fun
    | [v, d] => some (.decode (bits 16 v) (bits 32 d))
    | _ => none⟩,
  ⟨"write_block", [.unsigned 16], fun vs => vs.head?.map (fun n => .writeBlock (bits 16 n))⟩,
  ⟨"read_sample", [.signed 32], fun vs => vs.head?.map (fun i => .readSample (bits 32 i))⟩,
  ⟨"set_write_head", [.signed 32], fun vs => vs.head?.map (fun p => .setWriteHead (bits 32 p))⟩,
  ⟨"set_bit_depth", [.unsigned 16], fun vs => vs.head?.map (fun d => .setBitDepth (bits 16 d))⟩,
  ⟨"delay_from_ratio", [.unsigned 16], fun vs => vs.head?.map (fun v => .delayFromRatio (bits 16 v))⟩,
  ⟨"delay_from_ms", [.unsigned 32], fun vs => vs.head?.map (fun ms => .delayFromMs (bits 32 ms))⟩,
  ⟨"set_play_head", [.head, .signed 32], fun
    | [h, off] => some (.setPlayHead (bits 4 h) (bits 32 off))
    | _ => none⟩,
  ⟨"read_block", [.head, .unsigned 16], fun
    | [h, n] => some (.readBlock (bits 4 h) (bits 16 n))
    | _ => none⟩,
  ⟨"enable_loop", [.head, .signed 32, .signed 32], fun
    | [h, s, e] => some (.enableLoop (bits 4 h) (bits 32 s) (bits 32 e))
    | _ => none⟩,
  ⟨"disable_loop", [.head], fun vs => vs.head?.map (fun h => .disableLoop (bits 4 h))⟩,
  ⟨"shift_loop", [.head, .signed 32], fun
    | [h, off] => some (.shiftLoop (bits 4 h) (bits 32 off))
    | _ => none⟩,
  ⟨"cpw", [.register, .unsigned 32], fun
    | [a, d] => some (decodeCp (transaction true (bits 8 a) (bits 32 d)))
    | _ => none⟩,
  ⟨"cpr", [.register], fun vs => vs.head?.map (fun a => decodeCp (transaction false (bits 8 a) 0))⟩]

/-- R91's table. -/
def pseudoRows : List AsmRow := [
  ⟨"stage_delay_ratio", [.head, .unsigned 16], fun
    | [h, v] => some (Pseudo.stageDelayRatio (bits 4 h) (bits 16 v)).expand
    | _ => none⟩,
  ⟨"stage_delay_ms", [.head, .unsigned 16], fun
    | [h, ms] => some (Pseudo.stageDelayMs (bits 4 h) (bits 16 ms)).expand
    | _ => none⟩,
  ⟨"stage_bit_depth", [.unsigned 32], fun vs => vs.head?.map (fun d => (Pseudo.stageBitDepth (bits 32 d)).expand)⟩,
  ⟨"stage_loop_size", [.unsigned 32], fun vs => vs.head?.map (fun v => (Pseudo.stageLoopSize (bits 32 v)).expand)⟩,
  ⟨"set_freeze", [.request], fun
    | [1] => some Pseudo.setFreezeOn.expand
    | [2] => some Pseudo.setFreezeOff.expand
    | [3] => some Pseudo.setFreezeToggle.expand
    | _ => none⟩,
  ⟨"activate_glitch", [.unsigned 16], fun vs => vs.head?.map (fun ms => (Pseudo.activateGlitch (bits 16 ms)).expand)⟩,
  ⟨"stage_speed", [.unsigned 32], fun vs => vs.head?.map (fun v => (Pseudo.stageSpeed (bits 32 v)).expand)⟩,
  ⟨"clear_errors", [], fun _ => some Pseudo.clearErrors.expand⟩,
  ⟨"freeze_active?", [], fun _ => some Pseudo.freezeActive.expand⟩,
  ⟨"glitch_active?", [], fun _ => some Pseudo.glitchActive.expand⟩]

/-- What a line of text comes to. -/
inductive AsmLine where
  /-- Nothing but blanks and a comment. -/
  | blank
  /-- A command or a transaction; its words are `encode` of it. -/
  | instr (i : Instr)
  /-- "an assembly error, not a command" (R90). -/
  | error
deriving DecidableEq, Repr

/-- The operands of a line, separated by commas. -/
def splitOperands (cs : List Char) : List (List Char) :=
  if (trimBlanks cs).isEmpty then [] else (cs.splitOn ',').map trimBlanks

/-- One line of text (R90): the characters from `;` on are a comment, and letters' case does not matter (log 18). -/
def assemble (line : List Char) : AsmLine :=
  let cs := trimBlanks ((line.takeWhile (fun c => c != ';')).map Char.toLower)
  if cs.isEmpty then .blank
  else
    let name := cs.takeWhile (fun c => !isBlank c)
    match (commandRows ++ pseudoRows).find? (fun r => r.mnemonic.toList == name) with
    | none => .error
    | some row =>
      match (operandsOf row.kinds (splitOperands (cs.drop name.length))).bind row.build with
      | none => .error
      | some i => .instr i

end Sys2Proof
end

