-- ==== Sys2Proof/Safety.lean ====
section
/-! DEFINITION. The terms claims about the machine use: the invariants of R27, R29 and R191, the opcode map and the
recorded error written out once more for claims to compare with, and runs of commands. -/

namespace Sys2Proof.Machine

/-! ### The invariant -/

/-- What the rules say of the delay-buffer unit (R22, R23), and that the arena is in canonical form and inside its C
bytes (R60, R61). -/
abbrev BufferInv (c : Config) (b : Buffer) : Prop :=
  b.wh < b.slots c ∧ b.wfade ≤ c.fadeWindow ∧ Memory.wf b.arena ∧ Memory.within c.capacity b.arena

/-- What R27 says of one head on a ring of `n` slots. -/
abbrev HeadInv (c : Config) (n : Nat) (hd : Head) : Prop :=
  (hd.pos < n ∧ hd.xpos < n ∧ hd.loopStart < n ∧ hd.loopEnd < n ∧ hd.doff < n) ∧ hd.xrem ≤ c.fadeWindow ∧
  (hd.loopEn = true → hd.loopEnd ≠ hd.loopStart ∧ inregion hd.pos hd.loopStart hd.loopEnd n = true)

/-- What R29 and R191 say of the controller between commands: IDLE or ACTIVE; an ACTIVE timed glitch has callbacks
left and, where shifting is on, a running shift timer; every register in its range. -/
abbrev ControllerInv (c : Config) (n : Nat) (k : Controller) : Prop :=
  (k.cstate = .idle ∨ k.cstate = .active) ∧
  (k.cstate = .active → k.cmode = .glitch → 1 ≤ k.updates ∧ (0 < c.shiftPeriod → 1 ≤ k.shiftTimer)) ∧
  k.updates < 4294967296 ∧ k.shiftTimer ≤ c.shiftPeriod ∧ k.shiftCount < c.shiftReverseEvery ∧
  1 ≤ k.lss ∧ k.lss ≤ n - 1

/-- ERRSTAT holds nothing where ERR is 0, and one of the four causes where it is 1 (R33, R270). -/
abbrev ErrInv (e : ErrStat) : Prop :=
  (e.err = false → e.cause = 0#4 ∧ e.info = 0#8) ∧ (e.err = true → 1#4 ≤ e.cause ∧ e.cause ≤ 4#4)

/-- The invariant of the machine between commands (R27, R29, R191). -/
structure Inv (s : State) : Prop where
  /-- The parameters are in the ranges of R5. -/
  legal : s.cfg.Legal
  /-- The delay buffer is as R22, R23 and R60 say. -/
  buffer : BufferInv s.cfg s.buf
  /-- There are H banks (R25). -/
  headCount : s.heads.length = s.cfg.numHeads
  /-- Every head is as R27 says. -/
  heads : ∀ hd ∈ s.heads, HeadInv s.cfg s.slots hd
  /-- The controller is as R29 and R191 say. -/
  controller : ControllerInv s.cfg s.slots s.ctl
  /-- There are H registers DELAY_h (R39). -/
  delayCount : s.stg.delays.length = s.cfg.numHeads
  /-- ERRSTAT is as R33 and R270 say. -/
  errors : ErrInv s.err

/-! ### The engine port -/

/-- The instruction is a command of the engine port (R83). -/
def onEnginePort (i : Instr) : Bool :=
  match encode i with
  | .ep _ => true
  | .cp _ => false

/-- One row of R83 for claims: OPC, words, and whether the HEAD and IMM16 columns name an operand. -/
structure MapRow where
  opc : BitVec 8
  words : Nat
  usesHead : Bool
  usesImm : Bool
deriving DecidableEq, Repr

/-- The map of R83 once more, without the commands: what claims compare the decoder with. -/
def commandMap : List MapRow := [
  ⟨0x00, 1, false, false⟩, ⟨0x01, 1, false, false⟩, ⟨0x08, 2, false, true⟩, ⟨0x09, 2, false, true⟩,
  ⟨0x10, 1, false, true⟩, ⟨0x11, 2, false, false⟩, ⟨0x12, 2, false, false⟩, ⟨0x13, 1, false, true⟩,
  ⟨0x14, 1, false, true⟩, ⟨0x15, 2, false, false⟩, ⟨0x20, 2, true, false⟩, ⟨0x21, 1, true, true⟩,
  ⟨0x22, 3, true, false⟩, ⟨0x23, 1, true, false⟩, ⟨0x24, 2, true, false⟩]

/-- The header breaks check 2 of R87 for a command of this row. -/
abbrev MapRow.reservedUsed (row : MapRow) (header : Word) : Prop :=
  header.extractLsb' 16 4 ≠ 0 ∨ (row.usesHead = false ∧ header.extractLsb' 20 4 ≠ 0) ∨
  (row.usesImm = false ∧ header.extractLsb' 0 16 ≠ 0)

/-- ERRSTAT after an error of this cause code and INFO: the first error is kept (R272). -/
def recorded (e : ErrStat) (cause : BitVec 4) (info : BitVec 8) : ErrStat :=
  if e.err = true then e else { err := true, cause := cause, info := info }

/-! ### Runs of commands -/

/-- Commands in a row, with nothing between them. -/
def runCommands : List Instr → State → Host.Outcome State Fault Refusal
  | [], s => .next s
  | i :: is, s =>
    match exec i s with
    | .next s' => runCommands is s'
    | .fault r => .fault r
    | .refused r => .refused r

/-- `k` PROCESS_BLOCK commands in a row, with nothing between them. -/
def callbacks : Nat → State → Host.Outcome State Fault Refusal
  | 0, s => .next s
  | k + 1, s =>
    match exec .processBlock s with
    | .next s' => callbacks k s'
    | .fault r => .fault r
    | .refused r => .refused r

end Sys2Proof.Machine
end

