-- ==== Sys2Proof/Certificates/Slice0/Obligations.lean ====
section
/-! DEFINITION. The statements for the provers. N is `s.slots`, H is `s.cfg.numHeads`, W is `s.cfg.fadeWindow`, B is
`s.cfg.blockSize`; `wrap`, `cdist` and `inregion` are the notations of 00_scope.md R9. -/

open Sys2Proof Sys2Proof.Machine

/-! ### Encoding and decoding -/

/-- 30_encoding.md sections 1 and 3: decoding an encoded well-formed instruction gives it back, on the engine port
with any words behind it. -/
def Obligations.DecodingAnEncodedInstructionReturnsIt : Prop :=
  ∀ i : Instr, i.wf = true →
    match encode i with
    | .ep words => ∀ rest : List Word, decodeEp (words ++ rest) = .instr i rest
    | .cp t => decodeCp t = i

/-- 30_encoding.md sections 1 and 3: what was decoded was the encoding of what it decoded to, and nothing else; no
bit of a legal command or of a transaction is dropped. -/
def Obligations.EncodingADecodedInstructionReturnsItsWords : Prop :=
  (∀ (words rest : List Word) (i : Instr), decodeEp words = .instr i rest →
    i.wf = true ∧ ∃ taken, words = taken ++ rest ∧ encode i = .ep taken) ∧
  (∀ t : Transaction, (decodeCp t).wf = true ∧ encode (decodeCp t) = .cp t)

/-- Words of 95_test_vectors.md and their commands. -/
def Obligations.WrittenOutWordsDecodeToTheirCommands : Prop :=
  decodeEp [0x08001234#32, 0x00000008#32] = .instr (.encode 0x1234#16 8#32) [] ∧
  decodeEp [0x11000000#32, 0xFFFFFFFF#32] = .instr (.readSample 0xFFFFFFFF#32) [] ∧
  decodeEp [0x20F00000#32, 0x00000003#32] = .instr (.setPlayHead 15#4 3#32) [] ∧
  decodeEp [0x22000000#32, 6#32, 2#32] = .instr (.enableLoop 0#4 6#32 2#32) [] ∧
  decodeEp [0x14008000#32] = .instr (.delayFromRatio 0x8000#16) [] ∧
  decodeCp 0x105000001F4#41 = .cpwGlitch 0x000001F4#32 ∧
  decodeCp 0x11100008000#41 = .cpwDelay 1#4 0x00008000#32 ∧
  decodeCp 0x18000000005#41 = .cpwRefused 0x80#8 5#32

/-- R87 and R273, at the machine: the first failing check of an EP header names the error; the command consumes its
words (one for an unknown opcode, its map length otherwise) and changes nothing but ERRSTAT, which keeps a first
error. (That the schedule moves on is the model's own, log 3.) -/
def Obligations.MalformedCommandIsRecordedAndConsumed : Prop :=
  ∀ (s : State) (header : Word) (ops : List Word) (turns : List Agent), s.cfg.Legal →
    s.ports.sched = .engine :: turns → s.ports.ep = header :: ops →
    let opc := header.extractLsb' 24 8
    let after : Nat → BitVec 4 → State := fun k cause =>
      { s with ports := { s.ports with ep := ops.drop k, sched := turns }, err := recorded s.err cause opc }
    ((∀ row ∈ commandMap, row.opc ≠ opc) → step s = .next (after 0 1)) ∧
    (∀ row ∈ commandMap, row.opc = opc → row.words - 1 ≤ ops.length →
      (row.reservedUsed header → step s = .next (after (row.words - 1) 2)) ∧
      (¬row.reservedUsed header → row.usesHead = true → s.cfg.numHeads ≤ (header.extractLsb' 20 4).toNat →
        step s = .next (after (row.words - 1) 3)))

/-- R81, R87: a header that passes the first two checks, with its operand words behind it, is a command, and its
encoding is those words. -/
def Obligations.EveryUnreservedHeaderIsACommand : Prop :=
  ∀ (header : Word) (ops : List Word), ∀ row ∈ commandMap, row.opc = header.extractLsb' 24 8 →
    row.words - 1 ≤ ops.length → ¬row.reservedUsed header →
    ∃ i, decodeEp (header :: ops) = .instr i (ops.drop (row.words - 1)) ∧
      encode i = .ep (header :: ops.take (row.words - 1))

/-- R91: each pseudo-instruction is the CP transaction of its expansion. The DATA bits of the two questions' read are the
model's choice, 0 (log 18). -/
def Obligations.PseudoInstructionsAreTheirTransactions : Prop :=
  (∀ (h : BitVec 4) (v : BitVec 16),
    encode (Pseudo.stageDelayRatio h v).expand = .cp (1#1 ++ 0x1#4 ++ h ++ 0#16 ++ v) ∧
    encode (Pseudo.stageDelayMs h v).expand = .cp (1#1 ++ 0x1#4 ++ h ++ 0x8000#16 ++ v) ∧
    encode (Pseudo.activateGlitch v).expand = .cp (1#1 ++ 0x05#8 ++ 0#16 ++ v)) ∧
  (∀ v : BitVec 32,
    encode (Pseudo.stageBitDepth v).expand = .cp (1#1 ++ 0x02#8 ++ v) ∧
    encode (Pseudo.stageLoopSize v).expand = .cp (1#1 ++ 0x03#8 ++ v) ∧
    encode (Pseudo.stageSpeed v).expand = .cp (1#1 ++ 0x06#8 ++ v)) ∧
  encode Pseudo.setFreezeOn.expand = .cp 0x10400000001#41 ∧
  encode Pseudo.setFreezeOff.expand = .cp 0x10400000002#41 ∧
  encode Pseudo.setFreezeToggle.expand = .cp 0x10400000003#41 ∧
  encode Pseudo.clearErrors.expand = .cp 0x10100000001#41 ∧
  encode Pseudo.freezeActive.expand = .cp 0x00000000000#41 ∧
  encode Pseudo.glitchActive.expand = .cp 0x00000000000#41

/-! ### The step -/

/-- The model's step (log 3): where the words at the head of the engine port decode to a command that need not wait
for input, and it is the engine's turn, the step is the command's effect, with its words and the turn consumed. -/
def Obligations.StepRunsTheDecodedCommand : Prop :=
  ∀ (s : State) (i : Instr) (rest : List Word) (turns : List Agent), s.cfg.Legal →
    s.ports.sched = .engine :: turns → decodeEp s.ports.ep = .instr i rest → inputNeeded s.cfg i ≤ s.inq.length →
    step s = exec i { s with ports := { s.ports with ep := rest, sched := turns } }

/-- The model's step (log 3): on the control agent's turn the step is the effect of the oldest transaction. -/
def Obligations.StepRunsTheOldestTransaction : Prop :=
  ∀ (s : State) (t : Transaction) (rest : List Transaction) (turns : List Agent), s.cfg.Legal →
    s.ports.sched = .control :: turns → s.ports.cp = t :: rest →
    step s = exec (decodeCp t) { s with ports := { s.ports with cp := rest, sched := turns } }

/-- 70_reset_and_hazards.md section 3 (R301), the model's hold (log 6): WRITE_BLOCK and PROCESS_BLOCK do not start
until IN holds their samples; the engine's turn passes, the command stays on the port and nothing changes. Run on
such a state, their meanings change nothing either. -/
def Obligations.InputHoldLeavesTheCommandWaiting : Prop :=
  (∀ (s : State) (i : Instr) (rest : List Word) (turns : List Agent), s.cfg.Legal →
    s.ports.sched = .engine :: turns → decodeEp s.ports.ep = .instr i rest → s.inq.length < inputNeeded s.cfg i →
    step s = .next { s with ports := { s.ports with sched := turns } }) ∧
  (∀ (s : State) (n : BitVec 16), s.inq.length < n.toNat → exec (.writeBlock n) s = .next s) ∧
  (∀ s : State, s.inq.length < s.cfg.blockSize → exec .processBlock s = .next s)

/-- The model's choice (log 5): while not all words of the next command have come, the engine's turn passes. -/
def Obligations.EngineWaitsForTheWordsOfACommand : Prop :=
  ∀ (s : State) (turns : List Agent), s.cfg.Legal → s.ports.sched = .engine :: turns →
    (s.ports.ep = [] ∨ ∃ header ops, s.ports.ep = header :: ops ∧ ∃ row ∈ commandMap,
      row.opc = header.extractLsb' 24 8 ∧ ops.length < row.words - 1) →
    step s = .next { s with ports := { s.ports with sched := turns } }

/-- 60_exceptions.md sections 1 and 2: no step of a machine with legal parameters stops; with illegal ones (log 2)
every step does. -/
def Obligations.EveryLegalStepHasANextState : Prop :=
  ∀ s : State, (s.cfg.Legal → ∃ t, step s = .next t) ∧ (¬s.cfg.Legal → step s = .fault .illegalParameters)

/-- 00_scope.md section 4: "Each is fixed for the life of an instance (from reset onward)". -/
def Obligations.NoStepChangesTheParameters : Prop :=
  ∀ s t : State, step s = .next t → t.cfg = s.cfg

/-- 10_state.md section 6: the host appends to IN and removes from OUT_h and RESP, and touches nothing else (one
sample or word an action, and nothing where the stream is empty: the model's choice, log 9). -/
def Obligations.HostMovesStreamsOnly : Prop :=
  ∀ (s : State) (a : HostAction) (rest : List HostAction) (turns : List Agent), s.cfg.Legal →
    s.ports.sched = .host :: turns → s.ports.host = a :: rest →
    let s' : State := { s with ports := { s.ports with host := rest, sched := turns } }
    (∀ x, a = .supply x → step s = .next { s' with inq := s.inq ++ [x] }) ∧
    (∀ h, a = .takeOut h → step s = .next { s' with
      heads := s.heads.modify h.toNat (fun hd => { hd with out := hd.out.drop 1 }) }) ∧
    (a = .takeResp → step s = .next { s' with resp := s.resp.drop 1 })

/-! ### Reset -/

/-- The model's reset input (log 8): asserted in any state, it leaves the reset state of the same parameters; what
waits on the ports is kept. -/
def Obligations.ResetInputGivesTheResetState : Prop :=
  ∀ (s : State) (rest : List HostAction) (turns : List Agent), s.cfg.Legal → s.ports.sched = .host :: turns →
    s.ports.host = .assertReset :: rest →
    step s = .next { State.resetWith s.cfg with ports := { s.ports with host := rest, sched := turns } }

/-- R290, the table: every register and stream at its reset value, for every instance; the CP registers as they
read. `State.reset` is the instance `Config.reference` (log 1). -/
def Obligations.ResetValuesAreThoseOfTheTable : Prop :=
  (∀ c : Config, let s := State.resetWith c
    s.buf = { depth := .d16, wh := 0, wfade := 0, arena := [] } ∧ (∀ a, s.buf.arena.read a = 0#8) ∧
    s.heads.length = c.numHeads ∧ s.stg.delays.length = c.numHeads ∧
    (∀ hd ∈ s.heads, hd = {
      pos := 0, xpos := 0, xrem := 0, loopEn := false, loopStart := 0, loopEnd := 0, xfDone := false, doff := 0,
      out := [] }) ∧
    s.ctl = {
      cstate := .idle, cmode := .glitch, updates := 0, shiftFwd := true, shiftTimer := 0, shiftCount := 0,
      lss := clamp (4096 * (c.capacity / 2) / 65536) 1 (c.capacity / 2 - 1) } ∧
    s.inq = [] ∧ s.resp = [] ∧
    readValue 0x00 s = 0 ∧ readValue 0x01 s = 0 ∧ readValue 0x02 s = 0x10 ∧ readValue 0x03 s = 0x1000 ∧
    readValue 0x04 s = 0 ∧ readValue 0x05 s = 0 ∧ readValue 0x06 s = 0x100 ∧
    (∀ h : BitVec 4, readValue (0x1#4 ++ h) s = 0)) ∧
  State.reset = State.resetWith Config.reference

/-- 70_reset_and_hazards.md section 1: the reset state of every instance satisfies the invariant. -/
def Obligations.ResetStateSatisfiesTheInvariant : Prop :=
  (∀ c : Config, c.Legal → Inv (State.resetWith c)) ∧ Inv State.reset

/-! ### The invariant -/

/-- 10_state.md sections 3 and 4, 43_controller.md section 1: every step of every agent keeps every register in its
range, every looping head inside its loop, the controller IDLE or ACTIVE, the arena in canonical form inside its C
bytes, and ERRSTAT to the four causes. -/
def Obligations.EveryStepKeepsTheInvariant : Prop :=
  ∀ s t : State, Inv s → step s = .next t → Inv t

/-- 10_state.md sections 2 to 4: the invariant puts every register, held as a number (log 12), in its width. -/
def Obligations.InvariantFitsTheRegisterWidths : Prop :=
  ∀ s : State, Inv s → s.buf.wh < 2 ^ 31 ∧ s.buf.wfade < 2 ^ 16 ∧ s.ctl.updates < 2 ^ 32 ∧
    s.ctl.shiftTimer < 2 ^ 16 ∧ s.ctl.shiftCount < 2 ^ 16 ∧ s.ctl.lss < 2 ^ 31 ∧
    ∀ hd ∈ s.heads, hd.pos < 2 ^ 31 ∧ hd.xpos < 2 ^ 31 ∧ hd.loopStart < 2 ^ 31 ∧ hd.loopEnd < 2 ^ 31 ∧
      hd.doff < 2 ^ 31 ∧ hd.xrem < 2 ^ 16

/-! ### The codec -/

/-- R100 and R101: the supported depths; `clampDepth` as a formula, as a table, and as the nearest supported depth
(the larger on a tie); bytes per sample. -/
def Obligations.ClampDepthIsNearestSupportedDepth : Prop :=
  (∀ r : Nat, (clampDepth r).bits = 4 * ((clamp r 4 16 + 2) / 4) ∧
    (clampDepth r).bits = (if r ≤ 5 then 4 else if r ≤ 9 then 8 else if r ≤ 13 then 12 else 16) ∧
    ∀ d : Depth, (clamp r 4 16 : Int) - (clampDepth r).bits ≤ |(clamp r 4 16 : Int) - d.bits| ∧
      ((clampDepth r).bits : Int) - clamp r 4 16 ≤ |(clamp r 4 16 : Int) - d.bits|) ∧
  (∀ b : Nat, (∃ d : Depth, d.bits = b) ↔ b = 4 ∨ b = 8 ∨ b = 12 ∨ b = 16) ∧
  Depth.d16.bps = 2 ∧ Depth.d12.bps = 2 ∧ Depth.d8.bps = 1 ∧ Depth.d4.bps = 1

/-- 40_codec.md section 2 (the law R104, from R102 and R103): quantization clears the low 16 - d bits, never errs by
2^(16-d) or more, is idempotent and monotonic, and is the identity at depth 16. -/
def Obligations.QuantizationClearsTheLowBits : Prop :=
  let q : Sample → Depth → Int := fun x d => (decodeSample (encodeSample x d) d).toInt
  (∀ (x : Sample) (d : Depth),
    q x d = x.toInt / 2 ^ (16 - d.bits) * 2 ^ (16 - d.bits) ∧
    decodeSample (encodeSample x d) d = (x >>> (16 - d.bits)) <<< (16 - d.bits) ∧
    0 ≤ x.toInt - q x d ∧ x.toInt - q x d < 2 ^ (16 - d.bits) ∧
    q (decodeSample (encodeSample x d) d) d = q x d) ∧
  (∀ x : Sample, q x .d16 = x.toInt) ∧
  (∀ (x y : Sample) (d : Depth), x.toInt ≤ y.toInt → q x d ≤ q y d)

/-- R103: `Decode` reads the low d bits only, is exact, and has zero in the discarded low bits. -/
def Obligations.DecodeIsExactAndIgnoresHighBits : Prop :=
  ∀ (v : Nat) (d : Depth),
    (decodeSample v d).toInt =
      (if 2 * (v % 2 ^ d.bits) < 2 ^ d.bits then ((v % 2 ^ d.bits : Nat) : Int)
        else ((v % 2 ^ d.bits : Nat) : Int) - 2 ^ d.bits) * 2 ^ (16 - d.bits) ∧
    (decodeSample v d).toNat % 2 ^ (16 - d.bits) = 0 ∧ decodeSample (v % 2 ^ d.bits) d = decodeSample v d

/-- R105: ENCODE's response, its encoding, and that it reads and changes nothing else. -/
def Obligations.EncodeRespondsWithTheStoredCode : Prop :=
  ∀ (x : BitVec 16) (r : BitVec 32) (s : State),
    encode (.encode x r) = .ep [0x08#8 ++ 0#4 ++ 0#4 ++ x, r] ∧
    let d := 4 * ((min (max r.toNat 4) 16 + 2) / 4)
    exec (.encode x r) s = .next { s with
      resp := s.resp ++ [BitVec.ofInt 32 (x.toInt / 2 ^ (16 - d) % 2 ^ (8 * ((d + 7) / 8)))] }

/-- R106: DECODE's response, its encoding, and that it reads and changes nothing else. -/
def Obligations.DecodeRespondsWithTheSample : Prop :=
  ∀ (v : BitVec 16) (r : BitVec 32) (s : State),
    encode (.decode v r) = .ep [0x09#8 ++ 0#4 ++ 0#4 ++ v, r] ∧
    let d := 4 * ((min (max r.toNat 4) 16 + 2) / 4)
    let u := v.toNat % 2 ^ d
    exec (.decode v r) s = .next { s with
      resp := s.resp ++ [BitVec.ofInt 32 ((if 2 * u < 2 ^ d then (u : Int) else (u : Int) - 2 ^ d) * 2 ^ (16 - d))] }

/-! ### The delay buffer -/

/-- R122 and 41_delay_buffer.md section 1 (the properties R123): the crossfade is the floored weighted mean, without
overflow; it lies between its two samples, starts at the outgoing one, and moves monotonically to the incoming. -/
def Obligations.BlendIsExactConvexAndMonotonic : Prop :=
  ∀ (c : Config) (o n : Sample) (r : Nat), c.Legal → 1 ≤ r → r ≤ c.fadeWindow →
    (blend c o n r).toInt = (o.toInt * r + n.toInt * (c.fadeWindow - r)) / c.fadeWindow ∧
    min o.toInt n.toInt ≤ (blend c o n r).toInt ∧ (blend c o n r).toInt ≤ max o.toInt n.toInt ∧
    blend c o n c.fadeWindow = o ∧ blend c o o r = o ∧
    (∀ r', 1 ≤ r' → r' ≤ r → (o.toInt ≤ n.toInt → (blend c o n r).toInt ≤ (blend c o n r').toInt) ∧
      (n.toInt ≤ o.toInt → (blend c o n r').toInt ≤ (blend c o n r).toInt))

/-- R125, the loop of WRITE_BLOCK one sample at a time, for every count, and its encoding. -/
def Obligations.WriteBlockStoresSampleBySample : Prop :=
  (∀ n : BitVec 16, encode (.writeBlock n) = .ep [0x10#8 ++ 0#4 ++ 0#4 ++ n]) ∧
  (∀ s : State, exec (.writeBlock 0) s = .next s) ∧
  (∀ (s : State) (x : Sample) (xs : List Sample) (n : Nat), n + 1 < 65536 → s.inq = x :: xs → n ≤ xs.length →
    let y := if 0 < s.buf.wfade then blend s.cfg (slotRead s.cfg s.buf s.buf.wh) x s.buf.wfade else x
    exec (.writeBlock (BitVec.ofNat 16 (n + 1))) s = exec (.writeBlock (BitVec.ofNat 16 n)) { s with
      inq := xs
      buf := { slotWrite s.cfg s.buf s.buf.wh y with
        wh := (s.buf.wh + 1) % s.slots
        wfade := if 0 < s.buf.wfade then s.buf.wfade - 1 else 0 } })

/-- 41_delay_buffer.md section 2 (R125): a block no longer than the ring puts sample j in slot (WH + j) mod N,
blended with the slot's old content while the write fade lasts, quantized, and leaves every other slot alone. -/
def Obligations.WriteBlockFillsItsSlots : Prop :=
  ∀ (s : State) (n : BitVec 16), s.cfg.Legal → BufferInv s.cfg s.buf → n.toNat ≤ s.slots → n.toNat ≤ s.inq.length →
    ∃ t, exec (.writeBlock n) s = .next t ∧
      (∀ j, j < n.toNat → slotRead t.cfg t.buf ((s.buf.wh + j) % s.slots) =
        let x := s.inq.getD j 0
        let y := if j < s.buf.wfade then
          blend s.cfg (slotRead s.cfg s.buf ((s.buf.wh + j) % s.slots)) x (s.buf.wfade - j) else x
        decodeSample (encodeSample y s.buf.depth) s.buf.depth) ∧
      (∀ i, i < s.slots → (∀ j, j < n.toNat → (s.buf.wh + j) % s.slots ≠ i) →
        slotRead t.cfg t.buf i = slotRead s.cfg s.buf i)

/-- 41_delay_buffer.md section 2 (R125), the frame: a block of any length takes its samples from IN, moves WH on by
its length round the ring, runs WFADE down, and changes no byte but those of the slots it stores to. -/
def Obligations.WriteBlockChangesOnlyItsSlots : Prop :=
  ∀ (s : State) (n : BitVec 16), s.buf.wh < s.slots → n.toNat ≤ s.inq.length →
    ∃ b : Buffer, exec (.writeBlock n) s = .next { s with buf := b, inq := s.inq.drop n.toNat } ∧
      b.depth = s.buf.depth ∧ b.wh = (s.buf.wh + n.toNat) % s.slots ∧ b.wfade = s.buf.wfade - n.toNat ∧
      ∀ a, (∀ j, j < n.toNat → a < s.buf.slotAddr s.cfg ((s.buf.wh + j) % s.slots) ∨
        s.buf.slotAddr s.cfg ((s.buf.wh + j) % s.slots) + s.buf.depth.bps ≤ a) →
        b.arena.read a = s.buf.arena.read a

/-- R126: READ_SAMPLE's response, its encoding, that indices congruent modulo N read the same, and that nothing else
changes. -/
def Obligations.ReadSampleRespondsWithTheWrappedSlot : Prop :=
  ∀ (i : BitVec 32) (s : State),
    encode (.readSample i) = .ep [0x11#8 ++ 0#4 ++ 0#4 ++ 0#16, i] ∧
    exec (.readSample i) s = .next { s with
      resp := s.resp ++ [(slotRead s.cfg s.buf (wrap i.toInt s.slots)).signExtend 32] } ∧
    (∀ (k : Int) (j : BitVec 32), j.toInt = i.toInt + k * s.slots → exec (.readSample j) s = exec (.readSample i) s)

/-- R127: SET_WRITE_HEAD moves WH, arms the write fade also where WH does not move, moves no head, and its
encoding. -/
def Obligations.SetWriteHeadMovesAndArmsTheFade : Prop :=
  ∀ (x : BitVec 32) (s : State),
    encode (.setWriteHead x) = .ep [0x12#8 ++ 0#4 ++ 0#4 ++ 0#16, x] ∧
    exec (.setWriteHead x) s = .next { s with
      buf := { s.buf with wh := wrap x.toInt s.slots, wfade := s.cfg.fadeWindow } }

/-- R130: SET_BIT_DEPTH to the live depth changes nothing; to another it re-wraps every position, clamps DOFF and
LSS, and keeps an active loop from closing and its head inside it; the arena's bytes stay. -/
def Obligations.SetBitDepthRewrapsEveryPosition : Prop :=
  ∀ (r : BitVec 16) (s : State),
    encode (.setBitDepth r) = .ep [0x13#8 ++ 0#4 ++ 0#4 ++ r] ∧
    (clampDepth r.toNat = s.buf.depth → exec (.setBitDepth r) s = .next s) ∧
    (clampDepth r.toNat ≠ s.buf.depth →
      let n := s.cfg.capacity / (clampDepth r.toNat).bps
      exec (.setBitDepth r) s = .next { s with
        buf := { s.buf with depth := clampDepth r.toNat, wh := s.buf.wh % n }
        ctl := { s.ctl with lss := min s.ctl.lss (n - 1) }
        heads := s.heads.map (fun hd =>
          let ls := hd.loopStart % n
          let le := if hd.loopEn = true ∧ hd.loopEnd % n = ls then wrap ((ls : Int) - 1) n else hd.loopEnd % n
          { hd with
            pos := if hd.loopEn = true ∧ inregion (hd.pos % n) ls le n = false then ls else hd.pos % n
            xpos := hd.xpos % n
            loopStart := ls
            loopEnd := le
            doff := min hd.doff (n - 1) }) })

/-- 20_memory.md section 2 (R63, from R60 and R62): after a change from two bytes a slot to one, new slots 2j and
2j + 1 are the low and the high byte of old slot j; after a change from one to two, new slot j is old slots 2j (low)
and 2j + 1 (high). -/
def Obligations.DepthChangeReinterpretsTheBytes : Prop :=
  let code : Config → Buffer → Nat → Nat := fun c b i => memRead b.arena (b.slotAddr c i) b.depth.bps
  ∀ (s t : State) (r : BitVec 16), s.cfg.Legal → exec (.setBitDepth r) s = .next t →
    (s.buf.depth.bps = 2 → t.buf.depth.bps = 1 → ∀ j, j < s.slots →
      code t.cfg t.buf (2 * j) = code s.cfg s.buf j % 256 ∧
      code t.cfg t.buf (2 * j + 1) = code s.cfg s.buf j / 256) ∧
    (s.buf.depth.bps = 1 → t.buf.depth.bps = 2 → ∀ j, j < t.slots →
      code t.cfg t.buf j = code s.cfg s.buf (2 * j) + 256 * code s.cfg s.buf (2 * j + 1))

/-- R136: DELAY_FROM_RATIO's response and its encoding. -/
def Obligations.DelayFromRatioRespondsWithTheOffset : Prop :=
  ∀ (v : BitVec 16) (s : State),
    encode (.delayFromRatio v) = .ep [0x14#8 ++ 0#4 ++ 0#4 ++ v] ∧
    exec (.delayFromRatio v) s = .next { s with
      resp := s.resp ++ [BitVec.ofNat 32 (min (v.toNat * s.slots / 65536) (s.slots - 1))] }

/-- R137: DELAY_FROM_MS's response and its encoding. -/
def Obligations.DelayFromMsRespondsWithTheOffset : Prop :=
  ∀ (ms : BitVec 32) (s : State),
    encode (.delayFromMs ms) = .ep [0x15#8 ++ 0#4 ++ 0#4 ++ 0#16, ms] ∧
    exec (.delayFromMs ms) s = .next { s with
      resp := s.resp ++ [BitVec.ofNat 32 (min (ms.toNat * s.cfg.sampleRate / 1000) (s.slots - 1))] }

/-! ### The play heads -/

/-- R152 and R160: SET_PLAY_HEAD retargets the head to its offset behind the write head, with a fade where the jump
round the ring is longer than one sample; it is ignored while a loop is active; HEAD >= H is BAD_HEAD. -/
def Obligations.SetPlayHeadRetargetsUnlessLooping : Prop :=
  ∀ (h : BitVec 4) (off : BitVec 32) (s : State),
    encode (.setPlayHead h off) = .ep [0x20#8 ++ h ++ 0#4 ++ 0#16, off] ∧
    (h.toNat < s.cfg.numHeads → exec (.setPlayHead h off) s = .next { s with
      heads := s.heads.modify h.toNat (fun hd =>
        let t := wrap ((s.buf.wh : Int) - off.toInt) s.slots
        if hd.loopEn = true then hd
        else if cdist t hd.pos s.slots ≤ 1 then { hd with pos := t }
        else { hd with xpos := hd.pos, pos := t, xrem := s.cfg.fadeWindow }) }) ∧
    (s.cfg.numHeads ≤ h.toNat → exec (.setPlayHead h off) s = .next { s with err := recorded s.err 3 0x20 })

/-- R150, R151 and R162: READ_BLOCK one sample at a time, for every count: the crossfade multiplexer, the advance
that wraps at the loop's end, the fade of the first wrap; HEAD >= H is BAD_HEAD. -/
def Obligations.ReadBlockPlaysSampleBySample : Prop :=
  (∀ (h : BitVec 4) (n : BitVec 16), encode (.readBlock h n) = .ep [0x21#8 ++ h ++ 0#4 ++ n]) ∧
  (∀ (h : BitVec 4) (n : BitVec 16) (s : State), s.cfg.numHeads ≤ h.toNat →
    exec (.readBlock h n) s = .next { s with err := recorded s.err 3 0x21 }) ∧
  (∀ (h : BitVec 4) (s : State), h.toNat < s.cfg.numHeads → exec (.readBlock h 0) s = .next s) ∧
  (∀ (h : BitVec 4) (n : Nat) (s : State), h.toNat < s.cfg.numHeads → n + 1 < 65536 →
    exec (.readBlock h (BitVec.ofNat 16 (n + 1))) s = exec (.readBlock h (BitVec.ofNat 16 n)) { s with
      heads := s.heads.modify h.toNat (fun hd =>
        let a := slotRead s.cfg s.buf hd.pos
        let y := if 0 < hd.xrem then blend s.cfg (slotRead s.cfg s.buf hd.xpos) a hd.xrem else a
        let f : Head := if 0 < hd.xrem then { hd with xpos := (hd.xpos + 1) % s.slots, xrem := hd.xrem - 1 } else hd
        let p := (hd.pos + 1) % s.slots
        let g : Head :=
          if hd.loopEn = true ∧ p = hd.loopEnd then
            if hd.xfDone = true then { f with pos := hd.loopStart }
            else { f with pos := hd.loopStart, xpos := hd.loopEnd, xrem := s.cfg.fadeWindow, xfDone := true }
          else { f with pos := p }
        { g with out := hd.out ++ [y] }) })

/-- 42_play_head.md section 1 (the fade shape R153): a head without a loop outputs, while its fade of r samples
lasts, the blends of the two streams with weights r, r - 1, ..., and from then on the incoming stream alone. -/
def Obligations.ReadBlockFadesThenFollowsTheIncomingStream : Prop :=
  ∀ (h : BitVec 4) (n : BitVec 16) (s : State) (hd : Head), h.toNat < s.cfg.numHeads →
    s.heads[h.toNat]? = some hd → hd.loopEn = false → hd.pos < s.slots → hd.xpos < s.slots →
    exec (.readBlock h n) s = .next { s with
      heads := s.heads.set h.toNat { hd with
        pos := (hd.pos + n.toNat) % s.slots
        xpos := (hd.xpos + min n.toNat hd.xrem) % s.slots
        xrem := hd.xrem - n.toNat
        out := hd.out ++ (List.range n.toNat).map (fun j =>
          let incoming := slotRead s.cfg s.buf ((hd.pos + j) % s.slots)
          if j < hd.xrem then
            blend s.cfg (slotRead s.cfg s.buf ((hd.xpos + j) % s.slots)) incoming (hd.xrem - j)
          else incoming) } }

/-- 42_play_head.md section 1 (R151, R154): a looping head past its first wrap and its fade plays the region
[LOOP_START, LOOP_END) round and round, and never leaves it. -/
def Obligations.LoopingHeadRepeatsItsRegion : Prop :=
  ∀ (h : BitVec 4) (n : BitVec 16) (s : State) (hd : Head), h.toNat < s.cfg.numHeads →
    s.heads[h.toNat]? = some hd → HeadInv s.cfg s.slots hd → hd.loopEn = true → hd.xfDone = true → hd.xrem = 0 →
    let len := wrap ((hd.loopEnd : Int) - hd.loopStart) s.slots
    let k := wrap ((hd.pos : Int) - hd.loopStart) s.slots
    exec (.readBlock h n) s = .next { s with
      heads := s.heads.set h.toNat { hd with
        pos := (hd.loopStart + (k + n.toNat) % len) % s.slots
        out := hd.out ++ (List.range n.toNat).map (fun j =>
          slotRead s.cfg s.buf ((hd.loopStart + (k + j) % len) % s.slots)) } }

/-- 42_play_head.md section 2 (R162), the frame: READ_BLOCK of any head in any condition pushes exactly n samples to
that head's OUT and changes that head's POS, XPOS, XREM and LOOP_XF_DONE alone; LOOP_XF_DONE is never cleared. -/
def Obligations.ReadBlockChangesOnlyItsHead : Prop :=
  ∀ (h : BitVec 4) (n : BitVec 16) (s : State) (hd : Head), h.toNat < s.cfg.numHeads →
    s.heads[h.toNat]? = some hd →
    ∃ (p x r : Nat) (f : Bool) (ys : List Sample), ys.length = n.toNat ∧ (hd.xfDone = true → f = true) ∧
      exec (.readBlock h n) s = .next { s with
        heads := s.heads.set h.toNat { hd with pos := p, xpos := x, xrem := r, xfDone := f, out := hd.out ++ ys } }

/-- R164: ENABLE_LOOP sets the wrapped bounds (a degenerate window becomes the ring less one slot), clears
LOOP_XF_DONE, and retargets a head that is outside the region to its start; HEAD >= H is BAD_HEAD. -/
def Obligations.EnableLoopSetsTheRegionAndEntersIt : Prop :=
  ∀ (h : BitVec 4) (a e : BitVec 32) (s : State),
    encode (.enableLoop h a e) = .ep [0x22#8 ++ h ++ 0#4 ++ 0#16, a, e] ∧
    (h.toNat < s.cfg.numHeads → exec (.enableLoop h a e) s = .next { s with
      heads := s.heads.modify h.toNat (fun hd =>
        let ls := wrap a.toInt s.slots
        let le := if wrap e.toInt s.slots = ls then wrap ((ls : Int) - 1) s.slots else wrap e.toInt s.slots
        let looped : Head := { hd with loopStart := ls, loopEnd := le, loopEn := true, xfDone := false }
        if inregion hd.pos ls le s.slots = true then looped
        else if cdist ls hd.pos s.slots ≤ 1 then { looped with pos := ls }
        else { looped with xpos := hd.pos, pos := ls, xrem := s.cfg.fadeWindow }) }) ∧
    (s.cfg.numHeads ≤ h.toNat → exec (.enableLoop h a e) s = .next { s with err := recorded s.err 3 0x22 })

/-- R166: DISABLE_LOOP clears LOOP_EN and nothing else; HEAD >= H is BAD_HEAD. -/
def Obligations.DisableLoopClearsLoopEnOnly : Prop :=
  ∀ (h : BitVec 4) (s : State),
    encode (.disableLoop h) = .ep [0x23#8 ++ h ++ 0#4 ++ 0#16] ∧
    (h.toNat < s.cfg.numHeads → exec (.disableLoop h) s = .next { s with
      heads := s.heads.modify h.toNat (fun hd => { hd with loopEn := false }) }) ∧
    (s.cfg.numHeads ≤ h.toNat → exec (.disableLoop h) s = .next { s with err := recorded s.err 3 0x23 })

/-- R168: SHIFT_LOOP moves the loop and the head with it, by the same offset, without a fade; without a loop it has
no effect; HEAD >= H is BAD_HEAD. -/
def Obligations.ShiftLoopMovesTheLoopWithItsHead : Prop :=
  ∀ (h : BitVec 4) (off : BitVec 32) (s : State),
    encode (.shiftLoop h off) = .ep [0x24#8 ++ h ++ 0#4 ++ 0#16, off] ∧
    (h.toNat < s.cfg.numHeads → exec (.shiftLoop h off) s = .next { s with
      heads := s.heads.modify h.toNat (fun hd =>
        if hd.loopEn = true then
          { hd with
            loopStart := wrap (hd.loopStart + off.toInt) s.slots
            loopEnd := wrap (hd.loopEnd + off.toInt) s.slots
            pos := wrap (hd.pos + off.toInt) s.slots }
        else hd) }) ∧
    (s.cfg.numHeads ≤ h.toNat → exec (.shiftLoop h off) s = .next { s with err := recorded s.err 3 0x24 })

/-! ### PROCESS_BLOCK -/

/-- R251: NOP is the all-zero word, changes nothing, and a word with its opcode and another field set is not a
command. -/
def Obligations.NopChangesNothing : Prop :=
  encode .nop = .ep [0x00000000#32] ∧ (∀ rest, decodeEp (0x00000000#32 :: rest) = .instr .nop rest) ∧
  (∀ (header : Word) (rest : List Word), header.extractLsb' 24 8 = 0x00#8 → header ≠ 0#32 →
    decodeEp (header :: rest) = .reject .reservedField 0x00 rest) ∧
  ∀ s : State, exec .nop s = .next s

/-- 45_callback.md section 2 (R253), the frame of PROCESS_BLOCK: from any state with its block in IN it has a next
state, takes exactly B samples from IN, pushes exactly B to each OUT_h whatever the controller does, sets the depth to
the staged one, moves the write head on by B from where the depth change left it, clears the two requests, and touches
no other register, stream or port. The delay buffer after it is the one that WRITE_BLOCK of the block makes of the
buffer at the new depth, and every byte of the arena outside the B slots stored to reads as before. -/
def Obligations.ProcessBlockTakesAndMakesOneBlock : Prop :=
  ∀ s : State, Inv s → s.cfg.blockSize ≤ s.inq.length →
    let n := s.cfg.capacity / s.stg.bitDepth.bps
    let b₀ : Buffer := { s.buf with depth := s.stg.bitDepth, wh := s.buf.wh % n }
    let addr : Nat → Nat := fun j => b₀.slotAddr s.cfg ((s.buf.wh % n + j) % n)
    ∃ (b : Buffer) (hs : List Head) (k : Controller),
      exec .processBlock s = .next { s with
        buf := b
        heads := hs
        ctl := k
        stg := { s.stg with freeze := .none, glitchPending := false }
        inq := s.inq.drop s.cfg.blockSize } ∧
      b.depth = s.stg.bitDepth ∧ b.wh = (s.buf.wh % n + s.cfg.blockSize) % n ∧
      b.wfade = s.buf.wfade - s.cfg.blockSize ∧
      exec (.writeBlock (BitVec.ofNat 16 s.cfg.blockSize)) { s with buf := b₀ } =
        .next { s with buf := b, inq := s.inq.drop s.cfg.blockSize } ∧
      (∀ a, (∀ j, j < s.cfg.blockSize → a < addr j ∨ addr j + s.stg.bitDepth.bps ≤ a) →
        b.arena.read a = s.buf.arena.read a) ∧
      hs.length = s.heads.length ∧
      ∀ (h : Nat) (hd : Head), s.heads[h]? = some hd → ∃ hd' ys, hs[h]? = some hd' ∧
        hd'.out = hd.out ++ ys ∧ ys.length = s.cfg.blockSize

/-- 45_callback.md section 1 (R250), 43_controller.md section 2 (R193 to R196), 44_staging.md section 2 (R231 to R235):
for every state of the controller and every staged request, PROCESS_BLOCK does what the commands it is made of do one
after another: SET_BIT_DEPTH to the staged depth; the staged delays, the requests and the loop size applied, with the
controller's registers `k` after its step; the loop command, if any, that the controller step performs on every head
(ENABLE_LOOP on entry, SHIFT_LOOP where the shift timer runs out, DISABLE_LOOP on release); then SET_PLAY_HEAD of every
head to its delay, READ_BLOCK of every head, and WRITE_BLOCK. -/
def Obligations.ProcessBlockRunsTheCommandsOfItsSteps : Prop :=
  ∀ s : State, Inv s → s.cfg.blockSize ≤ s.inq.length →
    let n := s.cfg.capacity / s.stg.bitDepth.bps
    let offset : Nat → Nat := fun h =>
      let d := s.stg.delays.getD h { ms := false, value := 0 }
      if d.ms = true then min (d.value.toNat * s.cfg.sampleRate / 1000) (n - 1)
      else min (d.value.toNat * n / 65536) (n - 1)
    let lss := min (max (s.stg.loopSize.toNat * n / 65536) 1) (n - 1)
    let loopEnd := wrap (((s.buf.wh % n : Nat) : Int) - s.cfg.loopMargin) n
    let loopStart := wrap ((loopEnd : Int) - lss) n
    let u := max 1 (s.stg.glitchMs.toNat * s.cfg.sampleRate / (1000 * s.cfg.blockSize))
    let idle := s.ctl.cstate = .idle
    let running := s.ctl.cstate = .active ∧ s.ctl.cmode = .glitch
    let frozen := s.ctl.cstate = .active ∧ s.ctl.cmode = .freeze
    let on := s.stg.freeze = .on ∨ (s.stg.freeze = .toggle ∧ ¬frozen)
    let off := s.stg.freeze = .off ∨ (s.stg.freeze = .toggle ∧ frozen)
    let pending := s.stg.glitchPending = true
    let left := if s.stg.glitchPending = true then u else s.ctl.updates - 1
    let heads : (Nat → Instr) → List Instr := fun f => (List.range s.cfg.numHeads).map f
    let enable := heads (fun h =>
      .enableLoop (BitVec.ofNat 4 h) (BitVec.ofNat 32 loopStart) (BitVec.ofNat 32 loopEnd))
    let shift := heads (fun h => .shiftLoop (BitVec.ofNat 4 h) (BitVec.ofInt 32
      (if s.ctl.shiftFwd = true then (s.cfg.shiftSamples : Int) else -(s.cfg.shiftSamples : Int))))
    let disable := heads (fun h => .disableLoop (BitVec.ofNat 4 h))
    let entered : CtlMode → Nat → Controller := fun m w => {
      cstate := .active, cmode := m, updates := w, shiftFwd := true, shiftTimer := s.cfg.shiftPeriod,
      shiftCount := 0, lss := lss }
    ∃ (s₁ : State) (loops : List Instr) (k : Controller),
      exec (.setBitDepth (BitVec.ofNat 16 s.stg.bitDepth.bits)) s = .next s₁ ∧
      exec .processBlock s = runCommands
        (loops ++ heads (fun h => .setPlayHead (BitVec.ofNat 4 h) (BitVec.ofNat 32 (offset h))) ++
          heads (fun h => .readBlock (BitVec.ofNat 4 h) (BitVec.ofNat 16 s.cfg.blockSize)) ++
          [.writeBlock (BitVec.ofNat 16 s.cfg.blockSize)])
        { s₁ with
          heads := s₁.heads.mapIdx (fun h hd => { hd with doff := offset h })
          ctl := k
          stg := { s.stg with freeze := .none, glitchPending := false } } ∧
      (idle → on → loops = enable ∧ k = entered .freeze s.ctl.updates) ∧
      (idle → ¬on → pending → loops = enable ∧ k = entered .glitch u) ∧
      (idle → ¬on → ¬pending → loops = [] ∧ k = { s.ctl with lss := lss }) ∧
      (running → on → loops = [] ∧ k = { s.ctl with cmode := .freeze, lss := lss }) ∧
      (running → ¬on → left = 0 → loops = disable ∧ k = { s.ctl with cstate := .idle, updates := 0, lss := lss }) ∧
      (running → ¬on → 1 ≤ left → s.cfg.shiftPeriod = 0 →
        loops = [] ∧ k = { s.ctl with updates := left, lss := lss }) ∧
      (running → ¬on → 1 ≤ left → 0 < s.cfg.shiftPeriod → 2 ≤ s.ctl.shiftTimer →
        loops = [] ∧ k = { s.ctl with updates := left, shiftTimer := s.ctl.shiftTimer - 1, lss := lss }) ∧
      (running → ¬on → 1 ≤ left → 0 < s.cfg.shiftPeriod → s.ctl.shiftTimer = 1 →
        loops = shift ∧ k = { s.ctl with
          updates := left
          shiftTimer := s.cfg.shiftPeriod
          shiftCount := if s.ctl.shiftCount + 1 = s.cfg.shiftReverseEvery then 0 else s.ctl.shiftCount + 1
          shiftFwd := if s.ctl.shiftCount + 1 = s.cfg.shiftReverseEvery then !s.ctl.shiftFwd else s.ctl.shiftFwd
          lss := lss }) ∧
      (frozen → off → pending → loops = enable ∧ k = entered .glitch u) ∧
      (frozen → off → ¬pending → loops = disable ∧ k = { s.ctl with cstate := .idle, lss := lss }) ∧
      (frozen → ¬off → loops = [] ∧ k = { s.ctl with lss := lss })

/-- 44_staging.md section 2 (R231 to R233): every PROCESS_BLOCK makes the staged values live: the depth, each head's
delay (converted with the slot count of the new depth) and the loop size. -/
def Obligations.ProcessBlockAppliesTheStagedValues : Prop :=
  ∀ s : State, Inv s → s.cfg.blockSize ≤ s.inq.length →
    let n := s.cfg.capacity / s.stg.bitDepth.bps
    ∃ t, exec .processBlock s = .next t ∧ t.buf.depth = s.stg.bitDepth ∧
      t.ctl.lss = min (max (s.stg.loopSize.toNat * n / 65536) 1) (n - 1) ∧
      ∀ (h : Nat) (hd : Head) (d : DelayReg), t.heads[h]? = some hd → s.stg.delays[h]? = some d →
        hd.doff = if d.ms = true then min (d.value.toNat * s.cfg.sampleRate / 1000) (n - 1)
          else min (d.value.toNat * n / 65536) (n - 1)

/-- 43_controller.md sections 1 and 2, 44_staging.md section 2 (R192, R193, R234, R235): the controller's next state,
mode and countdown, for every state between commands and every staged request. -/
def Obligations.ProcessBlockMovesTheController : Prop :=
  ∀ s : State, Inv s → s.cfg.blockSize ≤ s.inq.length →
    let frozen := s.ctl.cstate = .active ∧ s.ctl.cmode = .freeze
    let on := s.stg.freeze = .on ∨ (s.stg.freeze = .toggle ∧ ¬frozen)
    let off := s.stg.freeze = .off ∨ (s.stg.freeze = .toggle ∧ frozen)
    let pending := s.stg.glitchPending = true
    let u := max 1 (s.stg.glitchMs.toNat * s.cfg.sampleRate / (1000 * s.cfg.blockSize))
    ∃ t, exec .processBlock s = .next t ∧
      (s.ctl.cstate = .idle → on →
        t.ctl.cstate = .active ∧ t.ctl.cmode = .freeze ∧ t.ctl.updates = s.ctl.updates) ∧
      (s.ctl.cstate = .idle → ¬on → pending →
        t.ctl.cstate = .active ∧ t.ctl.cmode = .glitch ∧ t.ctl.updates = u) ∧
      (s.ctl.cstate = .idle → ¬on → ¬pending →
        t.ctl.cstate = .idle ∧ t.ctl.cmode = s.ctl.cmode ∧ t.ctl.updates = s.ctl.updates) ∧
      (s.ctl.cstate = .active → s.ctl.cmode = .glitch → on →
        t.ctl.cstate = .active ∧ t.ctl.cmode = .freeze ∧ t.ctl.updates = s.ctl.updates) ∧
      (s.ctl.cstate = .active → s.ctl.cmode = .glitch → ¬on → pending →
        t.ctl.cstate = .active ∧ t.ctl.cmode = .glitch ∧ t.ctl.updates = u) ∧
      (s.ctl.cstate = .active → s.ctl.cmode = .glitch → ¬on → ¬pending → 2 ≤ s.ctl.updates →
        t.ctl.cstate = .active ∧ t.ctl.cmode = .glitch ∧ t.ctl.updates = s.ctl.updates - 1) ∧
      (s.ctl.cstate = .active → s.ctl.cmode = .glitch → ¬on → ¬pending → s.ctl.updates = 1 →
        t.ctl.cstate = .idle ∧ t.ctl.cmode = .glitch ∧ t.ctl.updates = 0) ∧
      (frozen → off → pending →
        t.ctl.cstate = .active ∧ t.ctl.cmode = .glitch ∧ t.ctl.updates = u) ∧
      (frozen → off → ¬pending →
        t.ctl.cstate = .idle ∧ t.ctl.cmode = .freeze ∧ t.ctl.updates = s.ctl.updates) ∧
      (frozen → ¬off →
        t.ctl.cstate = .active ∧ t.ctl.cmode = .freeze ∧ t.ctl.updates = s.ctl.updates)

/-- 43_controller.md section 2 (R194): the callback that starts a freeze or a glitch (from IDLE, or a glitch that
takes over from a released freeze) puts every head in the window that trails the write head by the margin M, LSS
slots long, and restarts the shift cadence. -/
def Obligations.ActivationLoopsEveryHeadBehindTheWriteHead : Prop :=
  ∀ s : State, Inv s → s.cfg.blockSize ≤ s.inq.length →
    (s.ctl.cstate = .idle ∧
      (s.stg.freeze = .on ∨ s.stg.freeze = .toggle ∨ s.stg.glitchPending = true)) ∨
    (s.ctl.cstate = .active ∧ s.ctl.cmode = .freeze ∧ (s.stg.freeze = .off ∨ s.stg.freeze = .toggle) ∧
      s.stg.glitchPending = true) →
    let n := s.cfg.capacity / s.stg.bitDepth.bps
    let lss := min (max (s.stg.loopSize.toNat * n / 65536) 1) (n - 1)
    let le := wrap (((s.buf.wh % n : Nat) : Int) - s.cfg.loopMargin) n
    ∃ t, exec .processBlock s = .next t ∧ t.ctl.shiftFwd = true ∧ t.ctl.shiftTimer = s.cfg.shiftPeriod ∧
      t.ctl.shiftCount = 0 ∧
      ∀ hd ∈ t.heads, hd.loopEn = true ∧ hd.loopEnd = le ∧ hd.loopStart = wrap ((le : Int) - lss) n ∧
        wrap ((hd.loopEnd : Int) - hd.loopStart) n = lss

/-- 43_controller.md section 2 and 45_callback.md section 1 (R196, R250 step 3): the callback that ends a freeze or a
glitch disables every head's loop; and after any callback a head without a loop is at its delay behind the write
head. -/
def Obligations.ReleasedHeadsReturnToTheirDelay : Prop :=
  ∀ s t : State, Inv s → s.cfg.blockSize ≤ s.inq.length → exec .processBlock s = .next t →
    (s.ctl.cstate = .active → t.ctl.cstate = .idle → ∀ hd ∈ t.heads, hd.loopEn = false) ∧
    (∀ hd ∈ t.heads, hd.loopEn = false → hd.pos = wrap ((t.buf.wh : Int) - hd.doff) t.slots)

/-- 43_controller.md section 3 (R198): a freeze without a request to release it stays, and each head's loop stays
where it is, whatever glitch is requested. -/
def Obligations.FreezeHoldsItsLoop : Prop :=
  ∀ s : State, Inv s → s.cfg.blockSize ≤ s.inq.length → s.ctl.cstate = .active → s.ctl.cmode = .freeze →
    (s.stg.freeze = .none ∨ s.stg.freeze = .on) → s.stg.bitDepth = s.buf.depth →
    ∃ t, exec .processBlock s = .next t ∧ statusWord t.ctl = 1#32 ∧
      t.heads.map (fun hd => (hd.loopEn, hd.loopStart, hd.loopEnd)) =
        s.heads.map (fun hd => (hd.loopEn, hd.loopStart, hd.loopEnd))

/-- 43_controller.md section 2 (R193, R195): in every callback of a glitch that runs on (callbacks left, or a retrigger
staged; no request or OFF; any staged depth) the shift timer ticks once; when it runs out, every looping head's window,
as the depth change left it, moves by A in the current direction, which reverses after R shifts; with P = 0 nothing
shifts. -/
def Obligations.GlitchShiftsItsLoopInCadence : Prop :=
  ∀ s : State, Inv s → s.cfg.blockSize ≤ s.inq.length → s.ctl.cstate = .active → s.ctl.cmode = .glitch →
    (s.stg.freeze = .none ∨ s.stg.freeze = .off) → (2 ≤ s.ctl.updates ∨ s.stg.glitchPending = true) →
    let off : Int := if s.ctl.shiftFwd = true then (s.cfg.shiftSamples : Int) else -(s.cfg.shiftSamples : Int)
    let region : Head → Bool × Nat × Nat := fun hd => (hd.loopEn, hd.loopStart, hd.loopEnd)
    ∃ s₁ t, exec (.setBitDepth (BitVec.ofNat 16 s.stg.bitDepth.bits)) s = .next s₁ ∧
      exec .processBlock s = .next t ∧ t.ctl.cstate = .active ∧ t.ctl.cmode = .glitch ∧
      (s.cfg.shiftPeriod = 0 → t.heads.map region = s₁.heads.map region ∧ t.ctl.shiftTimer = s.ctl.shiftTimer ∧
        t.ctl.shiftCount = s.ctl.shiftCount ∧ t.ctl.shiftFwd = s.ctl.shiftFwd) ∧
      (0 < s.cfg.shiftPeriod → 2 ≤ s.ctl.shiftTimer → t.heads.map region = s₁.heads.map region ∧
        t.ctl.shiftTimer = s.ctl.shiftTimer - 1 ∧ t.ctl.shiftCount = s.ctl.shiftCount ∧
        t.ctl.shiftFwd = s.ctl.shiftFwd) ∧
      (0 < s.cfg.shiftPeriod → s.ctl.shiftTimer = 1 →
        t.heads.map region = s₁.heads.map (fun hd => if hd.loopEn = true then
          (true, wrap (hd.loopStart + off) s₁.slots, wrap (hd.loopEnd + off) s₁.slots) else region hd) ∧
        t.ctl.shiftTimer = s.cfg.shiftPeriod ∧
        t.ctl.shiftCount = (if s.ctl.shiftCount + 1 = s.cfg.shiftReverseEvery then 0 else s.ctl.shiftCount + 1) ∧
        t.ctl.shiftFwd = (if s.ctl.shiftCount + 1 = s.cfg.shiftReverseEvery then !s.ctl.shiftFwd
          else s.ctl.shiftFwd))

/-- 43_controller.md section 3 (the glitch length R197): a glitch of `ms` milliseconds requested while the controller
is IDLE, or again while a glitch runs, lasts exactly U(ms) callbacks: GLITCH_ACTIVE reads 1 after each of them and 0
after the next, which has disabled every loop. -/
def Obligations.TimedGlitchLastsExactlyItsCallbacks : Prop :=
  ∀ s : State, Inv s → (s.ctl.cstate = .idle ∨ s.ctl.cmode = .glitch) → s.stg.freeze = .none →
    s.stg.glitchPending = true →
    let u := max 1 (s.stg.glitchMs.toNat * s.cfg.sampleRate / (1000 * s.cfg.blockSize))
    (u + 1) * s.cfg.blockSize ≤ s.inq.length →
    (∀ k, 1 ≤ k → k ≤ u → ∃ t, callbacks k s = .next t ∧ statusWord t.ctl = 2#32 ∧ t.ctl.updates = u + 1 - k) ∧
    ∃ t, callbacks (u + 1) s = .next t ∧ t.ctl.cstate = .idle ∧ statusWord t.ctl = 0#32 ∧
      ∀ hd ∈ t.heads, hd.loopEn = false

/-- 45_callback.md section 2 (the steady-state delay R252), over any number of callbacks: at depth 16, with the
controller IDLE, no request staged, no fade running and the head at its delay d of at least B samples behind the write
head, the head's output is what the ring held for the first d samples and then the input itself, d samples late. -/
def Obligations.DelayLineReturnsTheInputDelayed : Prop :=
  ∀ (s : State) (h : Nat) (hd : Head) (d : DelayReg) (k : Nat), Inv s → s.heads[h]? = some hd →
    s.stg.delays[h]? = some d → s.ctl.cstate = .idle → s.stg.freeze = .none → s.stg.glitchPending = false →
    s.buf.depth = .d16 → s.stg.bitDepth = .d16 → s.buf.wfade = 0 → hd.xrem = 0 → hd.loopEn = false →
    let off := if d.ms = true then min (d.value.toNat * s.cfg.sampleRate / 1000) (s.slots - 1)
      else min (d.value.toNat * s.slots / 65536) (s.slots - 1)
    s.cfg.blockSize ≤ off → hd.pos = wrap ((s.buf.wh : Int) - off) s.slots →
    k * s.cfg.blockSize ≤ s.inq.length →
    ∃ t hd', callbacks k s = .next t ∧ t.heads[h]? = some hd' ∧
      hd'.out = hd.out ++ (List.range (k * s.cfg.blockSize)).map (fun i =>
        if i < off then slotRead s.cfg s.buf ((wrap ((s.buf.wh : Int) - off) s.slots + i) % s.slots)
        else s.inq.getD (i - off) 0)

/-! ### The control port -/

/-- R221, R222, R223, R224, R226 and R227: the six writes of a register without a head, with the transactions they
are: what each stores, and that nothing else changes. -/
def Obligations.ControlWritesStageTheirFields : Prop :=
  ∀ (d : BitVec 32) (s : State),
    (encode (.cpwErrstat d) = .cp (1#1 ++ 0x01#8 ++ d) ∧ exec (.cpwErrstat d) s = .next { s with
      err := if d.extractLsb' 0 1 = 1#1 then { err := false, cause := 0, info := 0 } else s.err }) ∧
    (encode (.cpwBitDepth d) = .cp (1#1 ++ 0x02#8 ++ d) ∧ exec (.cpwBitDepth d) s = .next { s with
      stg := { s.stg with bitDepth := clampDepth d.toNat } }) ∧
    (encode (.cpwLoopSize d) = .cp (1#1 ++ 0x03#8 ++ d) ∧ exec (.cpwLoopSize d) s = .next { s with
      stg := { s.stg with loopSize := d.extractLsb' 0 16 } }) ∧
    (encode (.cpwFreeze d) = .cp (1#1 ++ 0x04#8 ++ d) ∧ exec (.cpwFreeze d) s = .next { s with
      stg := { s.stg with freeze :=
        if d.toNat % 4 = 0 then s.stg.freeze else if d.toNat % 4 = 1 then .on
        else if d.toNat % 4 = 2 then .off else .toggle } }) ∧
    (encode (.cpwGlitch d) = .cp (1#1 ++ 0x05#8 ++ d) ∧ exec (.cpwGlitch d) s = .next { s with
      stg := { s.stg with glitchMs := d.extractLsb' 0 16, glitchPending := true } }) ∧
    (encode (.cpwSpeed d) = .cp (1#1 ++ 0x06#8 ++ d) ∧ exec (.cpwSpeed d) s = .next { s with
      stg := { s.stg with speed := d.extractLsb' 0 16 } })

/-- R225: a write of DELAY_h stores MODE and VALUE of head h < H alone; for h >= H the address is reserved and
CP_BAD_WRITE is recorded with it. -/
def Obligations.DelayWriteStagesItsHead : Prop :=
  ∀ (h : BitVec 4) (d : BitVec 32) (s : State),
    encode (.cpwDelay h d) = .cp (1#1 ++ 0x1#4 ++ h ++ d) ∧
    (h.toNat < s.cfg.numHeads → exec (.cpwDelay h d) s = .next { s with
      stg := { s.stg with
        delays := s.stg.delays.set h.toNat { ms := d.extractLsb' 31 1 == 1#1, value := d.extractLsb' 0 16 } } }) ∧
    (s.cfg.numHeads ≤ h.toNat → exec (.cpwDelay h d) s = .next { s with err := recorded s.err 4 (0x1#4 ++ h) })

/-- R274: a write to STATUS or to a reserved address (DELAY_h of h >= H among them) changes no register and is
recorded as cause 4 with the address; which transactions these are; and no other write, and no read, records an
error. -/
def Obligations.RefusedWriteIsRecordedOnly : Prop :=
  (∀ (a : BitVec 8) (d : BitVec 32) (s : State),
    exec (.cpwRefused a d) s = .next { s with err := recorded s.err 4 a }) ∧
  (∀ (h : BitVec 4) (d : BitVec 32) (s : State), s.cfg.numHeads ≤ h.toNat →
    exec (.cpwDelay h d) s = .next { s with err := recorded s.err 4 (0x1#4 ++ h) }) ∧
  (∀ (a : BitVec 8) (d : BitVec 32),
    (a = 0x00#8 ∨ (7 ≤ a.toNat ∧ a.toNat < 16) ∨ 32 ≤ a.toNat) ↔
      decodeCp (1#1 ++ a ++ d) = .cpwRefused a d) ∧
  (∀ (h : BitVec 4) (d : BitVec 32), decodeCp (1#1 ++ (0x1#4 ++ h) ++ d) = .cpwDelay h d) ∧
  (∀ (i : Instr) (s t : State), onEnginePort i = false → (∀ a d, i ≠ .cpwRefused a d) →
    (∀ h d, i = .cpwDelay h d → h.toNat < s.cfg.numHeads) → exec i s = .next t →
    t.err = s.err ∨ t.err = { err := false, cause := 0, info := 0 })

/-- R228 with the layouts of R32 to R40: what a read of each address returns, and that it changes nothing; its
encoding. That the word goes to a queue of the model's is log 7. -/
def Obligations.ControlReadReturnsTheRegister : Prop :=
  ∀ (a : BitVec 8) (d : BitVec 32) (s : State),
    encode (.cpr a d) = .cp (0#1 ++ a ++ d) ∧
    let delay := s.stg.delays.getD (a.toNat - 16) { ms := false, value := 0 }
    let bit : Bool → Nat := fun b => if b = true then 1 else 0
    let v : Nat :=
      if a = 0x00#8 then
        if s.ctl.cstate = .active ∧ s.ctl.cmode = .freeze then 1
        else if s.ctl.cstate = .active ∧ s.ctl.cmode = .glitch then 2 else 0
      else if a = 0x01#8 then s.err.info.toNat * 256 + s.err.cause.toNat * 16 + bit s.err.err
      else if a = 0x02#8 then s.stg.bitDepth.bits
      else if a = 0x03#8 then s.stg.loopSize.toNat
      else if a = 0x04#8 then
        match s.stg.freeze with
        | .none => 0
        | .on => 1
        | .off => 2
        | .toggle => 3
      else if a = 0x05#8 then bit s.stg.glitchPending * 65536 + s.stg.glitchMs.toNat
      else if a = 0x06#8 then s.stg.speed.toNat
      else if 16 ≤ a.toNat ∧ a.toNat < 16 + s.cfg.numHeads then bit delay.ms * 2147483648 + delay.value.toNat
      else 0
    exec (.cpr a d) s = .next { s with ports := { s.ports with cpOut := s.ports.cpOut ++ [BitVec.ofNat 32 v] } }

/-- 44_staging.md section 1 (R220): "A CP write never changes live playback or buffer state": no CP transaction
changes the delay buffer, a head, the controller, a stream or the parameters; a read changes no staging register and
no error either. -/
def Obligations.ControlPortNeverTouchesLiveState : Prop :=
  ∀ (i : Instr) (s t : State), onEnginePort i = false → exec i s = .next t →
    t.cfg = s.cfg ∧ t.buf = s.buf ∧ t.heads = s.heads ∧ t.ctl = s.ctl ∧ t.inq = s.inq ∧ t.resp = s.resp ∧
    t.ports.ep = s.ports.ep ∧ t.ports.cp = s.ports.cp ∧ t.ports.host = s.ports.host ∧
    t.ports.sched = s.ports.sched ∧ (t.ports.cpOut = s.ports.cpOut ∨ (t.stg = s.stg ∧ t.err = s.err))

/-- 10_state.md section 5 (R30): no EP command but PROCESS_BLOCK reads or writes a staging register: with other
staged values it does the same and leaves them as they were. -/
def Obligations.EngineCommandsIgnoreStaging : Prop :=
  ∀ (i : Instr) (s t : State) (g : Staging), onEnginePort i = true → i ≠ .processBlock → exec i s = .next t →
    t.stg = s.stg ∧ exec i { s with stg := g } = .next { t with stg := g }

/-- 10_state.md section 5 (R38): "No rule of the GDC reads it": no instruction but a read of SPEED depends on the
staged speed, and none but its write changes it. -/
def Obligations.SpeedHasNoEffect : Prop :=
  ∀ (i : Instr) (s t : State) (v : BitVec 16), (∀ d, i ≠ .cpwSpeed d) → (∀ d, i ≠ .cpr 0x06 d) →
    exec i s = .next t →
    t.stg.speed = s.stg.speed ∧
    exec i { s with stg := { s.stg with speed := v } } = .next { t with stg := { t.stg with speed := v } }

/-- 60_exceptions.md sections 1 and 2 (R272, R278): while an error is recorded, only its clearing by a write of
ERRSTAT changes ERRSTAT; and no instruction records one without leaving every other register and stream as it was. -/
def Obligations.FirstErrorIsKeptUntilCleared : Prop :=
  ∀ (i : Instr) (s t : State), exec i s = .next t →
    (s.err.err = true → t.err = s.err ∨ ∃ d : BitVec 32, i = .cpwErrstat d ∧ d.extractLsb' 0 1 = 1#1) ∧
    (s.err.err = false → t.err.err = true → t = { s with err := t.err })
end

