-- ==== Sys2Proof/Laws/Memory.lean ====
section
/-! SUPPORT. The arena's bytes: a read after a write, the canonical form, and little-endian words of bytes. -/

namespace Sys2Proof.Machine

theorem Memory.wf_cons {c : Host.Cell} {m : Memory} :
    Memory.wf (c :: m) ↔ (∀ d ∈ m, c.1 < d.1) ∧ c.2 ≠ Memory.unlisted ∧ Memory.wf m := by
  simp only [Memory.wf, List.map_cons, List.pairwise_cons, List.forall_mem_cons, List.mem_map,
    forall_exists_index, and_imp, forall_apply_eq_imp_iff₂]
  tauto

/-- An address below every listed one is unlisted. -/
theorem Memory.read_of_lt {m : Memory} {a : Nat} (h : ∀ d ∈ m, a < d.1) : m.read a = Memory.unlisted := by
  induction m with
  | nil => rfl
  | cons c m ih =>
    have := h c (by simp)
    rw [Memory.read, if_neg (by omega)]
    exact ih fun d hd => h d (by simp [hd])

/-- Every cell of a written memory is the written one or was there before. -/
theorem Memory.mem_write {m : Memory} {a : Nat} {v : BitVec 8} {c : Host.Cell} (h : c ∈ m.write a v) :
    c = (a, v) ∨ c ∈ m := by
  induction m with
  | nil =>
    simp only [Memory.write] at h
    split at h <;> simp_all
  | cons d m ih =>
    obtain ⟨b, w⟩ := d
    simp only [Memory.write] at h
    split_ifs at h <;> simp only [List.mem_cons] at h ⊢ <;> tauto

/-- A write keeps the canonical form. -/
theorem Memory.write_wf {m : Memory} (h : m.wf) (a : Nat) (v : BitVec 8) : (m.write a v).wf := by
  induction m with
  | nil =>
    simp only [Memory.write]
    split <;> simp_all [Memory.wf]
  | cons d m ih =>
    obtain ⟨b, w⟩ := d
    obtain ⟨h1, h2, h3⟩ := Memory.wf_cons.mp h
    simp only [Memory.write]
    split_ifs with hab hv hab' hv
    · exact h
    · refine Memory.wf_cons.mpr ⟨?_, hv, h⟩
      intro c hc
      rcases List.mem_cons.mp hc with rfl | hc
      · exact hab
      · exact lt_trans hab (h1 c hc)
    · exact h3
    · subst hab'
      exact Memory.wf_cons.mpr ⟨h1, hv, h3⟩
    · refine Memory.wf_cons.mpr ⟨?_, h2, ih h3⟩
      intro c hc
      rcases Memory.mem_write hc with rfl | hc
      · simp only; omega
      · exact h1 c hc

/-- A write inside the arena lists no address outside it. -/
theorem Memory.write_within {m : Memory} {n a : Nat} (h : m.within n) (ha : a < n) (v : BitVec 8) :
    (m.write a v).within n := by
  intro c hc
  rcases Memory.mem_write hc with rfl | hc
  · exact ha
  · exact h c hc

/-- A byte reads as what was written to it last. -/
theorem Memory.read_write_same {m : Memory} (h : m.wf) (a : Nat) (v : BitVec 8) : (m.write a v).read a = v := by
  induction m with
  | nil =>
    simp only [Memory.write]
    split <;> simp_all [Memory.read]
  | cons d m ih =>
    obtain ⟨b, w⟩ := d
    obtain ⟨h1, h2, h3⟩ := Memory.wf_cons.mp h
    simp only [Memory.write]
    split_ifs with hab hv hab' hv
    · rw [hv, Memory.read, if_neg (by omega)]
      exact Memory.read_of_lt fun d hd => lt_trans hab (h1 d hd)
    · simp [Memory.read]
    · rw [hv]
      exact Memory.read_of_lt fun d hd => hab' ▸ h1 d hd
    · simp [Memory.read]
    · rw [Memory.read, if_neg hab']
      exact ih h3

/-- A write leaves every other byte alone. -/
theorem Memory.read_write_other (m : Memory) {a b : Nat} (v : BitVec 8) (hab : b ≠ a) :
    (m.write a v).read b = m.read b := by
  induction m with
  | nil =>
    simp only [Memory.write]
    split <;> simp [Memory.read, hab]
  | cons d m ih =>
    obtain ⟨c, w⟩ := d
    simp only [Memory.write]
    split_ifs with h1 h2 h3 h4
    · rfl
    · simp [Memory.read, hab]
    · subst h3; simp [Memory.read, hab]
    · subst h3; simp [Memory.read, hab]
    · simp only [Memory.read, ih]

/-- Memories in canonical form that read the same everywhere are equal data. -/
theorem Memory.ext_of_wf {m m' : Memory} (h : m.wf) (h' : m'.wf) (hr : ∀ a, m.read a = m'.read a) : m = m' := by
  induction m generalizing m' with
  | nil =>
    cases m' with
    | nil => rfl
    | cons c m' =>
      have := hr c.1
      obtain ⟨-, h2, -⟩ := Memory.wf_cons.mp h'
      obtain ⟨b, w⟩ := c
      simp only [Memory.read, if_true] at this
      exact absurd this.symm h2
  | cons c m ih =>
    obtain ⟨b, w⟩ := c
    obtain ⟨h1, h2, h3⟩ := Memory.wf_cons.mp h
    cases m' with
    | nil =>
      have := hr b
      simp only [Memory.read, if_true] at this
      exact absurd this h2
    | cons c' m' =>
      obtain ⟨b', w'⟩ := c'
      obtain ⟨h1', h2', h3'⟩ := Memory.wf_cons.mp h'
      have hb : b = b' := by
        rcases Nat.lt_trichotomy b b' with hlt | heq | hgt
        · have := hr b
          rw [Memory.read, if_pos rfl, Memory.read_of_lt (m := (b', w') :: m')] at this
          · exact absurd this h2
          · intro d hd
            rcases List.mem_cons.mp hd with rfl | hd
            · exact hlt
            · exact lt_trans hlt (h1' d hd)
        · exact heq
        · have := hr b'
          rw [Memory.read_of_lt (m := (b, w) :: m), Memory.read, if_pos rfl] at this
          · exact absurd this.symm h2'
          · intro d hd
            rcases List.mem_cons.mp hd with rfl | hd
            · exact hgt
            · exact lt_trans hgt (h1 d hd)
      subst hb
      have hw : w = w' := by simpa [Memory.read] using hr b
      subst hw
      congr 1
      refine ih h3 h3' fun a => ?_
      by_cases ha : a = b
      · subst ha
        rw [Memory.read_of_lt h1, Memory.read_of_lt h1']
      · simpa [Memory.read, ha] using hr a

/-! ### Words of bytes -/

theorem memWrite_wf {m : Memory} (h : m.wf) (a n v : Nat) : (memWrite m a n v).wf := by
  induction n generalizing m a v with
  | zero => exact h
  | succ n ih => exact ih (Memory.write_wf h a _) _ _

theorem memWrite_within {m : Memory} {c a n : Nat} (h : m.within c) (ha : a + n ≤ c) (v : Nat) :
    (memWrite m a n v).within c := by
  induction n generalizing m a v with
  | zero => exact h
  | succ n ih => exact ih (Memory.write_within h (by omega) _) (by omega) _

/-- `memWrite` touches its n bytes only. -/
theorem memWrite_read_other (m : Memory) {a n b : Nat} (v : Nat) (hb : b < a ∨ a + n ≤ b) :
    (memWrite m a n v).read b = m.read b := by
  induction n generalizing m a v with
  | zero => rfl
  | succ n ih =>
    rw [memWrite, ih _ _ (by omega), Memory.read_write_other _ _ (by omega)]

/-- `memRead` depends on its n bytes only. -/
theorem memRead_congr {m m' : Memory} {a n : Nat} (h : ∀ b, a ≤ b → b < a + n → m.read b = m'.read b) :
    memRead m a n = memRead m' a n := by
  induction n generalizing a with
  | zero => rfl
  | succ n ih =>
    rw [memRead, memRead, h a le_rfl (by omega), ih fun b h1 h2 => h b (by omega) (by omega)]

/-- A word reads as the low bytes of what was written to it last (R10, R62). -/
theorem memRead_memWrite {m : Memory} (h : m.wf) (a n v : Nat) :
    memRead (memWrite m a n v) a n = v % 256 ^ n := by
  induction n generalizing m a v with
  | zero => simp [memRead, Nat.mod_one]
  | succ n ih =>
    rw [memWrite, memRead, ih (Memory.write_wf h a _), memWrite_read_other _ _ (by omega),
      Memory.read_write_same h, BitVec.toNat_ofNat, Nat.pow_succ' (m := 256), Nat.mod_mul (x := v) (a := 256)]

/-- `memRead` of bytes apart from the written ones. -/
theorem memRead_memWrite_other (m : Memory) {a n b k : Nat} (v : Nat) (h : b + k ≤ a ∨ a + n ≤ b) :
    memRead (memWrite m a n v) b k = memRead m b k :=
  memRead_congr fun c h1 h2 => memWrite_read_other m v (by omega)

/-- The number `memRead` gives fits its bytes. -/
theorem memRead_lt (m : Memory) (a n : Nat) : memRead m a n < 256 ^ n := by
  induction n generalizing a with
  | zero => simp [memRead]
  | succ n ih =>
    have := ih (a + 1)
    have := (m.read a).isLt
    rw [memRead, Nat.pow_succ']
    omega

/-- The empty arena is in canonical form. -/
theorem Memory.nil_wf : Memory.wf [] := by simp [Memory.wf]

/-- Memory after reset is in canonical form. -/
theorem reset_memory_wf : State.reset.buf.arena.wf := Memory.nil_wf

end Sys2Proof.Machine
end

