-- ==== Sys2Proof/Laws/Ring.lean ====
section
/-! SUPPORT. Positions on the ring: `wrap`, the circular distance and loop regions (00_scope.md R8, R9). -/

namespace Sys2Proof.Machine

variable {n : Nat}

/-- A wrapped position, as an integer, is the Euclidean remainder. -/
theorem wrap_cast (hn : 0 < n) (x : Int) : ((wrap x n : Nat) : Int) = x % n := by
  have := Int.emod_nonneg x (by omega : (n : Int) ≠ 0)
  simp [wrap, this]

theorem wrap_lt (hn : 0 < n) (x : Int) : wrap x n < n := by
  have := Int.emod_lt_of_pos x (by omega : (0 : Int) < n)
  have := wrap_cast hn x
  omega

theorem wrap_natCast (hn : 0 < n) (a : Nat) : wrap (a : Int) n = a % n := by
  have := wrap_cast hn a
  omega

/-- A position in [0, n) is its own wrap. -/
theorem wrap_of_lt {a : Nat} (h : a < n) : wrap (a : Int) n = a := by
  rw [wrap_natCast (by omega), Nat.mod_eq_of_lt h]

/-- Numbers with the same remainder wrap to the same position, and only those do. -/
theorem wrap_eq_wrap (hn : 0 < n) {x y : Int} : wrap x n = wrap y n ↔ x % n = y % n := by
  rw [← wrap_cast hn x, ← wrap_cast hn y]
  omega

theorem wrap_add_wrap (hn : 0 < n) (x y : Int) : wrap ((wrap x n : Nat) + y) n = wrap (x + y) n := by
  rw [wrap_eq_wrap hn, wrap_cast hn, Int.emod_add_emod]

theorem wrap_sub_wrap (hn : 0 < n) (x y : Int) : wrap (x - (wrap y n : Nat)) n = wrap (x - y) n := by
  rw [wrap_eq_wrap hn, wrap_cast hn, Int.sub_emod_emod]

/-- Moving two positions by the same amount keeps their difference. -/
theorem wrap_shift_sub (hn : 0 < n) (a b k : Int) :
    wrap ((wrap (a + k) n : Nat) - (wrap (b + k) n : Nat) : Int) n = wrap (a - b) n := by
  have : ((wrap (a + k) n : Nat) - (wrap (b + k) n : Nat) : Int) =
      (wrap (a + k) n : Nat) + -(wrap (b + k) n : Nat) := by ring
  rw [this, wrap_add_wrap hn, ← sub_eq_add_neg, wrap_sub_wrap hn]
  congr 1
  ring

/-- The difference of two positions in [0, n) is the plain one, or that plus n. -/
theorem wrap_sub_eq {a b : Nat} (ha : a < n) (hb : b < n) :
    wrap ((a : Int) - b) n = if b ≤ a then a - b else a + n - b := by
  have hn : 0 < n := by omega
  have hc := wrap_cast hn ((a : Int) - b)
  split
  · rw [Int.emod_eq_of_lt (by omega) (by omega)] at hc
    omega
  · rw [← Int.add_emod_right, Int.emod_eq_of_lt (by omega) (by omega)] at hc
    omega

/-- One slot back from a position in [0, n). -/
theorem wrap_pred {a : Nat} (ha : a < n) : wrap ((a : Int) - 1) n = if a = 0 then n - 1 else a - 1 := by
  have hn : 0 < n := by omega
  have hc := wrap_cast hn ((a : Int) - 1)
  split
  · subst a
    rw [← Int.add_emod_right, Int.emod_eq_of_lt (by omega) (by omega)] at hc
    omega
  · rw [Int.emod_eq_of_lt (by omega) (by omega)] at hc
    omega

/-- One slot on from a position in [0, n). -/
theorem succ_mod_eq {a : Nat} (ha : a < n) : (a + 1) % n = if a + 1 = n then 0 else a + 1 := by
  split
  · simp [*]
  · exact Nat.mod_eq_of_lt (by omega)

/-- The corrected end of a degenerate window differs from its start (R164). -/
theorem wrap_pred_ne {a : Nat} (hn : 2 ≤ n) (ha : a < n) : wrap ((a : Int) - 1) n ≠ a := by
  rw [wrap_pred ha]
  split <;> omega

/-! ### Loop regions -/

theorem inregion_iff {p s e : Nat} :
    inregion p s e n = true ↔ wrap ((p : Int) - s) n < wrap ((e : Int) - s) n := by
  simp [inregion]

/-- A region that is not empty holds its start. -/
theorem inregion_start {s e : Nat} (hs : s < n) (he : e < n) (h : e ≠ s) : inregion s s e n = true := by
  rw [inregion_iff, wrap_sub_eq hs hs, wrap_sub_eq he hs]
  split <;> split <;> omega

/-- The end of a region is outside it. -/
theorem not_inregion_end {s e : Nat} : inregion e s e n = false := by
  simp [inregion]

/-- The position after one in the region is in the region, but where it is the end (R154). -/
theorem inregion_succ {p s e : Nat} (hp : p < n) (hs : s < n) (he : e < n) (h : inregion p s e n = true)
    (hne : (p + 1) % n ≠ e) : inregion ((p + 1) % n) s e n = true := by
  have hn : 0 < n := by omega
  have hq : (p + 1) % n < n := Nat.mod_lt _ hn
  rw [inregion_iff, wrap_sub_eq hp hs, wrap_sub_eq he hs] at h
  rw [inregion_iff, wrap_sub_eq hq hs, wrap_sub_eq he hs]
  rw [succ_mod_eq hp] at hne ⊢
  split at h <;> split at h <;> split at hne <;> split <;> split <;> omega

/-- A region and a position moved by the same amount (R168). -/
theorem inregion_shift (hn : 0 < n) (p s e : Nat) (k : Int) :
    inregion (wrap (p + k) n) (wrap (s + k) n) (wrap (e + k) n) n = inregion p s e n := by
  simp only [inregion, wrap_shift_sub hn]

end Sys2Proof.Machine
end

