-- ==== Sys2Proof/Laws/Slots.lean ====
section
/-! SUPPORT. Slots of the arena: their number, their place, and a slot read after a slot write (20_memory.md R60,
R61, 41_delay_buffer.md R120, R121). -/

namespace Sys2Proof.Machine

theorem Depth.bps_pos (d : Depth) : 0 < d.bps := by cases d <;> decide

theorem Depth.bps_le_two (d : Depth) : d.bps ≤ 2 := by cases d <;> decide

theorem Depth.bits_le (d : Depth) : d.bits ≤ 16 := by cases d <;> decide

/-- A depth of so many bits is what `clampDepth` makes of that number. -/
@[simp] theorem clampDepth_bits (d : Depth) : clampDepth d.bits = d := by cases d <;> decide

/-- Every legal arena has at least two slots at every depth (R6). -/
theorem two_le_slotsAt {c : Config} (h : c.Legal) (d : Depth) : 2 ≤ slotsAt c d := by
  have h4 : 4 ≤ c.capacity := h.1.1
  exact (Nat.le_div_iff_mul_le d.bps_pos).mpr (by have := d.bps_le_two; omega)

theorem slotsAt_le_capacity (c : Config) (d : Depth) : slotsAt c d ≤ c.capacity := Nat.div_le_self _ _

/-- Every slot lies inside the arena (R61: "No access can fall outside the arena"). -/
theorem slotAddr_inside {c : Config} (b : Buffer) (hn : 0 < b.slots c) (i : Nat) :
    b.slotAddr c i + b.depth.bps ≤ c.capacity := by
  have h1 : i % b.slots c + 1 ≤ b.slots c := Nat.mod_lt _ hn
  have h2 : b.slots c * b.depth.bps ≤ c.capacity := Nat.div_mul_le_self _ _
  calc b.slotAddr c i + b.depth.bps = (i % b.slots c + 1) * b.depth.bps := by
        rw [Buffer.slotAddr, Nat.add_mul, Nat.one_mul]
    _ ≤ b.slots c * b.depth.bps := Nat.mul_le_mul_right _ h1
    _ ≤ c.capacity := h2

/-- Different slots have no byte in common. -/
theorem slotAddr_apart {c : Config} (b : Buffer) {i j : Nat} (h : i % b.slots c ≠ j % b.slots c) :
    b.slotAddr c j + b.depth.bps ≤ b.slotAddr c i ∨ b.slotAddr c i + b.depth.bps ≤ b.slotAddr c j := by
  unfold Buffer.slotAddr
  rcases Nat.lt_or_gt_of_ne h with hlt | hgt
  · right
    calc _ = (i % b.slots c + 1) * b.depth.bps := by rw [Nat.add_mul, Nat.one_mul]
      _ ≤ _ := Nat.mul_le_mul_right _ hlt
  · left
    calc _ = (j % b.slots c + 1) * b.depth.bps := by rw [Nat.add_mul, Nat.one_mul]
      _ ≤ _ := Nat.mul_le_mul_right _ hgt

/-- A stored code fits its slot (R102). -/
theorem encodeSample_lt (x : Sample) (d : Depth) : encodeSample x d < 256 ^ d.bps := by
  have hp : (0 : Int) < 2 ^ (8 * d.bps) := by positivity
  have h0 := Int.emod_nonneg (x.toInt / 2 ^ (16 - d.bits)) (ne_of_gt hp)
  have h1 := Int.emod_lt_of_pos (x.toInt / 2 ^ (16 - d.bits)) hp
  have h2 : (2 : Int) ^ (8 * d.bps) = ((256 ^ d.bps : Nat) : Int) := by
    rw [pow_mul]; norm_num
  unfold encodeSample
  omega

@[simp] theorem slotWrite_depth (c : Config) (b : Buffer) (i : Nat) (x : Sample) :
    (slotWrite c b i x).depth = b.depth := rfl
@[simp] theorem slotWrite_wh (c : Config) (b : Buffer) (i : Nat) (x : Sample) : (slotWrite c b i x).wh = b.wh := rfl
@[simp] theorem slotWrite_wfade (c : Config) (b : Buffer) (i : Nat) (x : Sample) :
    (slotWrite c b i x).wfade = b.wfade := rfl
@[simp] theorem slotWrite_slots (c : Config) (b : Buffer) (i : Nat) (x : Sample) :
    (slotWrite c b i x).slots c = b.slots c := rfl
@[simp] theorem slotWrite_slotAddr (c : Config) (b : Buffer) (i j : Nat) (x : Sample) :
    (slotWrite c b i x).slotAddr c j = b.slotAddr c j := rfl

/-- A slot reads as the sample written to it last, quantized (R120, R121). -/
theorem slotRead_slotWrite_same {c : Config} {b : Buffer} (h : b.arena.wf) {i j : Nat}
    (hij : j % b.slots c = i % b.slots c) (x : Sample) :
    slotRead c (slotWrite c b i x) j = decodeSample (encodeSample x b.depth) b.depth := by
  have ha : b.slotAddr c j = b.slotAddr c i := by simp [Buffer.slotAddr, hij]
  rw [slotRead, slotWrite_slotAddr, slotWrite_depth, ha, slotWrite]
  simp only
  rw [memRead_memWrite h, Nat.mod_eq_of_lt (encodeSample_lt _ _)]

/-- A slot write leaves every other slot alone (R121). -/
theorem slotRead_slotWrite_other {c : Config} (b : Buffer) {i j : Nat} (hij : j % b.slots c ≠ i % b.slots c)
    (x : Sample) : slotRead c (slotWrite c b i x) j = slotRead c b j := by
  have := slotAddr_apart b (c := c) hij
  rw [slotRead, slotRead, slotWrite_slotAddr, slotWrite_depth, slotWrite]
  simp only
  rw [memRead_memWrite_other _ _ (by omega)]

/-- A slot read depends on the index modulo N only (R61). -/
theorem slotRead_congr {c : Config} {b : Buffer} {i j : Nat} (h : i % b.slots c = j % b.slots c) :
    slotRead c b i = slotRead c b j := by
  simp [slotRead, Buffer.slotAddr, h]

/-- A slot write keeps the arena's canonical form and lists no address outside it. -/
theorem slotWrite_keeps_arena {c : Config} {b : Buffer} (hn : 0 < b.slots c) (hw : b.arena.wf)
    (hc : b.arena.within c.capacity) (i : Nat) (x : Sample) :
    (slotWrite c b i x).arena.wf ∧ (slotWrite c b i x).arena.within c.capacity :=
  ⟨memWrite_wf hw _ _ _, memWrite_within hc (slotAddr_inside b hn i) _⟩

end Sys2Proof.Machine
end

