-- ==== Sys2Proof/Laws/State.lean ====
section
/-! SUPPORT. One lemma per part of the state per replacement of a part, and the overwriting of a part by itself. -/

namespace Sys2Proof.Machine

@[simp] theorem State.setBuf_cfg (s : State) (b : Buffer) : (s.setBuf b).cfg = s.cfg := rfl
@[simp] theorem State.setBuf_buf (s : State) (b : Buffer) : (s.setBuf b).buf = b := rfl
@[simp] theorem State.setBuf_heads (s : State) (b : Buffer) : (s.setBuf b).heads = s.heads := rfl
@[simp] theorem State.setBuf_ctl (s : State) (b : Buffer) : (s.setBuf b).ctl = s.ctl := rfl
@[simp] theorem State.setBuf_stg (s : State) (b : Buffer) : (s.setBuf b).stg = s.stg := rfl
@[simp] theorem State.setBuf_err (s : State) (b : Buffer) : (s.setBuf b).err = s.err := rfl
@[simp] theorem State.setBuf_inq (s : State) (b : Buffer) : (s.setBuf b).inq = s.inq := rfl
@[simp] theorem State.setBuf_resp (s : State) (b : Buffer) : (s.setBuf b).resp = s.resp := rfl
@[simp] theorem State.setBuf_ports (s : State) (b : Buffer) : (s.setBuf b).ports = s.ports := rfl
@[simp] theorem State.setBuf_setBuf (s : State) (b b' : Buffer) : (s.setBuf b).setBuf b' = s.setBuf b' := rfl
@[simp] theorem State.setBuf_self (s : State) : s.setBuf s.buf = s := rfl

@[simp] theorem State.setHeads_cfg (s : State) (hs : List Head) : (s.setHeads hs).cfg = s.cfg := rfl
@[simp] theorem State.setHeads_buf (s : State) (hs : List Head) : (s.setHeads hs).buf = s.buf := rfl
@[simp] theorem State.setHeads_heads (s : State) (hs : List Head) : (s.setHeads hs).heads = hs := rfl
@[simp] theorem State.setHeads_ctl (s : State) (hs : List Head) : (s.setHeads hs).ctl = s.ctl := rfl
@[simp] theorem State.setHeads_stg (s : State) (hs : List Head) : (s.setHeads hs).stg = s.stg := rfl
@[simp] theorem State.setHeads_err (s : State) (hs : List Head) : (s.setHeads hs).err = s.err := rfl
@[simp] theorem State.setHeads_inq (s : State) (hs : List Head) : (s.setHeads hs).inq = s.inq := rfl
@[simp] theorem State.setHeads_resp (s : State) (hs : List Head) : (s.setHeads hs).resp = s.resp := rfl
@[simp] theorem State.setHeads_ports (s : State) (hs : List Head) : (s.setHeads hs).ports = s.ports := rfl
@[simp] theorem State.setHeads_setHeads (s : State) (hs hs' : List Head) : (s.setHeads hs).setHeads hs' = s.setHeads hs' := rfl
@[simp] theorem State.setHeads_self (s : State) : s.setHeads s.heads = s := rfl

@[simp] theorem State.setCtl_cfg (s : State) (k : Controller) : (s.setCtl k).cfg = s.cfg := rfl
@[simp] theorem State.setCtl_buf (s : State) (k : Controller) : (s.setCtl k).buf = s.buf := rfl
@[simp] theorem State.setCtl_heads (s : State) (k : Controller) : (s.setCtl k).heads = s.heads := rfl
@[simp] theorem State.setCtl_ctl (s : State) (k : Controller) : (s.setCtl k).ctl = k := rfl
@[simp] theorem State.setCtl_stg (s : State) (k : Controller) : (s.setCtl k).stg = s.stg := rfl
@[simp] theorem State.setCtl_err (s : State) (k : Controller) : (s.setCtl k).err = s.err := rfl
@[simp] theorem State.setCtl_inq (s : State) (k : Controller) : (s.setCtl k).inq = s.inq := rfl
@[simp] theorem State.setCtl_resp (s : State) (k : Controller) : (s.setCtl k).resp = s.resp := rfl
@[simp] theorem State.setCtl_ports (s : State) (k : Controller) : (s.setCtl k).ports = s.ports := rfl
@[simp] theorem State.setCtl_setCtl (s : State) (k k' : Controller) : (s.setCtl k).setCtl k' = s.setCtl k' := rfl
@[simp] theorem State.setCtl_self (s : State) : s.setCtl s.ctl = s := rfl

@[simp] theorem State.setStg_cfg (s : State) (g : Staging) : (s.setStg g).cfg = s.cfg := rfl
@[simp] theorem State.setStg_buf (s : State) (g : Staging) : (s.setStg g).buf = s.buf := rfl
@[simp] theorem State.setStg_heads (s : State) (g : Staging) : (s.setStg g).heads = s.heads := rfl
@[simp] theorem State.setStg_ctl (s : State) (g : Staging) : (s.setStg g).ctl = s.ctl := rfl
@[simp] theorem State.setStg_stg (s : State) (g : Staging) : (s.setStg g).stg = g := rfl
@[simp] theorem State.setStg_err (s : State) (g : Staging) : (s.setStg g).err = s.err := rfl
@[simp] theorem State.setStg_inq (s : State) (g : Staging) : (s.setStg g).inq = s.inq := rfl
@[simp] theorem State.setStg_resp (s : State) (g : Staging) : (s.setStg g).resp = s.resp := rfl
@[simp] theorem State.setStg_ports (s : State) (g : Staging) : (s.setStg g).ports = s.ports := rfl
@[simp] theorem State.setStg_setStg (s : State) (g g' : Staging) : (s.setStg g).setStg g' = s.setStg g' := rfl
@[simp] theorem State.setStg_self (s : State) : s.setStg s.stg = s := rfl

@[simp] theorem State.setErr_cfg (s : State) (e : ErrStat) : (s.setErr e).cfg = s.cfg := rfl
@[simp] theorem State.setErr_buf (s : State) (e : ErrStat) : (s.setErr e).buf = s.buf := rfl
@[simp] theorem State.setErr_heads (s : State) (e : ErrStat) : (s.setErr e).heads = s.heads := rfl
@[simp] theorem State.setErr_ctl (s : State) (e : ErrStat) : (s.setErr e).ctl = s.ctl := rfl
@[simp] theorem State.setErr_stg (s : State) (e : ErrStat) : (s.setErr e).stg = s.stg := rfl
@[simp] theorem State.setErr_err (s : State) (e : ErrStat) : (s.setErr e).err = e := rfl
@[simp] theorem State.setErr_inq (s : State) (e : ErrStat) : (s.setErr e).inq = s.inq := rfl
@[simp] theorem State.setErr_resp (s : State) (e : ErrStat) : (s.setErr e).resp = s.resp := rfl
@[simp] theorem State.setErr_ports (s : State) (e : ErrStat) : (s.setErr e).ports = s.ports := rfl
@[simp] theorem State.setErr_setErr (s : State) (e e' : ErrStat) : (s.setErr e).setErr e' = s.setErr e' := rfl
@[simp] theorem State.setErr_self (s : State) : s.setErr s.err = s := rfl

@[simp] theorem State.setInq_cfg (s : State) (xs : List Sample) : (s.setInq xs).cfg = s.cfg := rfl
@[simp] theorem State.setInq_buf (s : State) (xs : List Sample) : (s.setInq xs).buf = s.buf := rfl
@[simp] theorem State.setInq_heads (s : State) (xs : List Sample) : (s.setInq xs).heads = s.heads := rfl
@[simp] theorem State.setInq_ctl (s : State) (xs : List Sample) : (s.setInq xs).ctl = s.ctl := rfl
@[simp] theorem State.setInq_stg (s : State) (xs : List Sample) : (s.setInq xs).stg = s.stg := rfl
@[simp] theorem State.setInq_err (s : State) (xs : List Sample) : (s.setInq xs).err = s.err := rfl
@[simp] theorem State.setInq_inq (s : State) (xs : List Sample) : (s.setInq xs).inq = xs := rfl
@[simp] theorem State.setInq_resp (s : State) (xs : List Sample) : (s.setInq xs).resp = s.resp := rfl
@[simp] theorem State.setInq_ports (s : State) (xs : List Sample) : (s.setInq xs).ports = s.ports := rfl
@[simp] theorem State.setInq_setInq (s : State) (xs xs' : List Sample) : (s.setInq xs).setInq xs' = s.setInq xs' := rfl
@[simp] theorem State.setInq_self (s : State) : s.setInq s.inq = s := rfl

@[simp] theorem State.setResp_cfg (s : State) (ws : List Word) : (s.setResp ws).cfg = s.cfg := rfl
@[simp] theorem State.setResp_buf (s : State) (ws : List Word) : (s.setResp ws).buf = s.buf := rfl
@[simp] theorem State.setResp_heads (s : State) (ws : List Word) : (s.setResp ws).heads = s.heads := rfl
@[simp] theorem State.setResp_ctl (s : State) (ws : List Word) : (s.setResp ws).ctl = s.ctl := rfl
@[simp] theorem State.setResp_stg (s : State) (ws : List Word) : (s.setResp ws).stg = s.stg := rfl
@[simp] theorem State.setResp_err (s : State) (ws : List Word) : (s.setResp ws).err = s.err := rfl
@[simp] theorem State.setResp_inq (s : State) (ws : List Word) : (s.setResp ws).inq = s.inq := rfl
@[simp] theorem State.setResp_resp (s : State) (ws : List Word) : (s.setResp ws).resp = ws := rfl
@[simp] theorem State.setResp_ports (s : State) (ws : List Word) : (s.setResp ws).ports = s.ports := rfl
@[simp] theorem State.setResp_setResp (s : State) (ws ws' : List Word) : (s.setResp ws).setResp ws' = s.setResp ws' := rfl
@[simp] theorem State.setResp_self (s : State) : s.setResp s.resp = s := rfl

@[simp] theorem State.setPorts_cfg (s : State) (p : Ports) : (s.setPorts p).cfg = s.cfg := rfl
@[simp] theorem State.setPorts_buf (s : State) (p : Ports) : (s.setPorts p).buf = s.buf := rfl
@[simp] theorem State.setPorts_heads (s : State) (p : Ports) : (s.setPorts p).heads = s.heads := rfl
@[simp] theorem State.setPorts_ctl (s : State) (p : Ports) : (s.setPorts p).ctl = s.ctl := rfl
@[simp] theorem State.setPorts_stg (s : State) (p : Ports) : (s.setPorts p).stg = s.stg := rfl
@[simp] theorem State.setPorts_err (s : State) (p : Ports) : (s.setPorts p).err = s.err := rfl
@[simp] theorem State.setPorts_inq (s : State) (p : Ports) : (s.setPorts p).inq = s.inq := rfl
@[simp] theorem State.setPorts_resp (s : State) (p : Ports) : (s.setPorts p).resp = s.resp := rfl
@[simp] theorem State.setPorts_ports (s : State) (p : Ports) : (s.setPorts p).ports = p := rfl
@[simp] theorem State.setPorts_setPorts (s : State) (p p' : Ports) : (s.setPorts p).setPorts p' = s.setPorts p' := rfl
@[simp] theorem State.setPorts_self (s : State) : s.setPorts s.ports = s := rfl

@[simp] theorem State.setHeads_slots (s : State) (hs : List Head) : (s.setHeads hs).slots = s.slots := rfl
@[simp] theorem State.setCtl_slots (s : State) (k : Controller) : (s.setCtl k).slots = s.slots := rfl
@[simp] theorem State.setStg_slots (s : State) (g : Staging) : (s.setStg g).slots = s.slots := rfl
@[simp] theorem State.setErr_slots (s : State) (e : ErrStat) : (s.setErr e).slots = s.slots := rfl
@[simp] theorem State.setInq_slots (s : State) (xs : List Sample) : (s.setInq xs).slots = s.slots := rfl
@[simp] theorem State.setResp_slots (s : State) (ws : List Word) : (s.setResp ws).slots = s.slots := rfl
@[simp] theorem State.setPorts_slots (s : State) (p : Ports) : (s.setPorts p).slots = s.slots := rfl
@[simp] theorem State.setBuf_slots (s : State) (b : Buffer) : (s.setBuf b).slots = b.slots s.cfg := rfl

/-- Two states with the same parts are the same state. -/
@[ext] theorem State.ext_parts {s t : State} (cfg : s.cfg = t.cfg) (buf : s.buf = t.buf) (heads : s.heads = t.heads)
    (ctl : s.ctl = t.ctl) (stg : s.stg = t.stg) (err : s.err = t.err) (inq : s.inq = t.inq) (resp : s.resp = t.resp)
    (ports : s.ports = t.ports) : s = t := by
  cases s; cases t; simp_all

end Sys2Proof.Machine
end

