-- ==== Sys2Proof/Laws/DelayBuffer.lean ====
section
/-! SUPPORT. What writing samples does to the delay buffer (R125), and what a depth change does (R130). -/

namespace Sys2Proof.Machine

@[simp] theorem writeSample_depth (c : Config) (b : Buffer) (x : Sample) : (writeSample c b x).depth = b.depth := rfl
@[simp] theorem writeSample_wh (c : Config) (b : Buffer) (x : Sample) :
    (writeSample c b x).wh = (b.wh + 1) % b.slots c := rfl
@[simp] theorem writeSample_wfade (c : Config) (b : Buffer) (x : Sample) :
    (writeSample c b x).wfade = b.wfade - 1 := rfl
@[simp] theorem writeSample_slots (c : Config) (b : Buffer) (x : Sample) :
    (writeSample c b x).slots c = b.slots c := rfl

@[simp] theorem writeSamples_nil (c : Config) (b : Buffer) : writeSamples c b [] = b := rfl
@[simp] theorem writeSamples_cons (c : Config) (b : Buffer) (x : Sample) (xs : List Sample) :
    writeSamples c b (x :: xs) = writeSamples c (writeSample c b x) xs := rfl

/-- The registers after a block: the depth kept, the write head on by the block's length, the fade run down. -/
theorem writeSamples_registers (c : Config) (b : Buffer) (xs : List Sample) (hw : b.wh < b.slots c) :
    (writeSamples c b xs).depth = b.depth ∧ (writeSamples c b xs).wh = (b.wh + xs.length) % b.slots c ∧
    (writeSamples c b xs).wfade = b.wfade - xs.length := by
  induction xs generalizing b with
  | nil => simp [Nat.mod_eq_of_lt hw]
  | cons x xs ih =>
    have hn : 0 < b.slots c := by omega
    obtain ⟨h1, h2, h3⟩ := ih (writeSample c b x) (by simpa using Nat.mod_lt _ hn)
    refine ⟨by simpa using h1, ?_, ?_⟩
    · simp only [writeSamples_cons, h2, writeSample_wh, writeSample_slots, List.length_cons, Nat.mod_add_mod]
      congr 1
      omega
    · simp only [writeSamples_cons, h3, writeSample_wfade, List.length_cons]
      omega

/-- One sample keeps what the rules say of the delay buffer. -/
theorem writeSample_keeps_inv {c : Config} {b : Buffer} (h : BufferInv c b) (x : Sample) :
    BufferInv c (writeSample c b x) := by
  obtain ⟨h1, h2, h3, h4⟩ := h
  have hn : 0 < b.slots c := by omega
  refine ⟨by simpa using Nat.mod_lt _ hn, by simp only [writeSample_wfade]; omega, ?_⟩
  exact slotWrite_keeps_arena hn h3 h4 _ _

/-- A block of samples does. -/
theorem writeSamples_keeps_inv {c : Config} {b : Buffer} (h : BufferInv c b) (xs : List Sample) :
    BufferInv c (writeSamples c b xs) := by
  induction xs generalizing b with
  | nil => exact h
  | cons x xs ih => exact ih (writeSample_keeps_inv h x)

@[simp] theorem writeBlock_cfg (n : Nat) (s : State) : (writeBlock n s).cfg = s.cfg := rfl
@[simp] theorem writeBlock_heads (n : Nat) (s : State) : (writeBlock n s).heads = s.heads := rfl
@[simp] theorem writeBlock_ctl (n : Nat) (s : State) : (writeBlock n s).ctl = s.ctl := rfl
@[simp] theorem writeBlock_stg (n : Nat) (s : State) : (writeBlock n s).stg = s.stg := rfl
@[simp] theorem writeBlock_err (n : Nat) (s : State) : (writeBlock n s).err = s.err := rfl
@[simp] theorem writeBlock_resp (n : Nat) (s : State) : (writeBlock n s).resp = s.resp := rfl
@[simp] theorem writeBlock_ports (n : Nat) (s : State) : (writeBlock n s).ports = s.ports := rfl
@[simp] theorem writeBlock_inq (n : Nat) (s : State) : (writeBlock n s).inq = s.inq.drop n := rfl
@[simp] theorem writeBlock_buf (n : Nat) (s : State) :
    (writeBlock n s).buf = writeSamples s.cfg s.buf (s.inq.take n) := rfl

/-! ### Depth changes -/

theorem setDepth_same (s : State) : setDepth s.buf.depth s = s := by simp [setDepth]

/-- A depth change sets the depth, whether or not it was the live one. -/
@[simp] theorem setDepth_depth (d : Depth) (s : State) : (setDepth d s).buf.depth = d := by
  unfold setDepth
  split <;> simp_all

@[simp] theorem setDepth_cfg (d : Depth) (s : State) : (setDepth d s).cfg = s.cfg := by
  unfold setDepth; split <;> rfl
@[simp] theorem setDepth_stg (d : Depth) (s : State) : (setDepth d s).stg = s.stg := by
  unfold setDepth; split <;> rfl
@[simp] theorem setDepth_err (d : Depth) (s : State) : (setDepth d s).err = s.err := by
  unfold setDepth; split <;> rfl
@[simp] theorem setDepth_inq (d : Depth) (s : State) : (setDepth d s).inq = s.inq := by
  unfold setDepth; split <;> rfl
@[simp] theorem setDepth_resp (d : Depth) (s : State) : (setDepth d s).resp = s.resp := by
  unfold setDepth; split <;> rfl
@[simp] theorem setDepth_ports (d : Depth) (s : State) : (setDepth d s).ports = s.ports := by
  unfold setDepth; split <;> rfl
/-- A depth change moves no byte (20_memory.md R63). -/
@[simp] theorem setDepth_arena (d : Depth) (s : State) : (setDepth d s).buf.arena = s.buf.arena := by
  unfold setDepth; split <;> rfl
@[simp] theorem setDepth_wfade (d : Depth) (s : State) : (setDepth d s).buf.wfade = s.buf.wfade := by
  unfold setDepth; split <;> rfl
/-- N after a depth change is the slot count at the new depth. -/
@[simp] theorem setDepth_slots (d : Depth) (s : State) : (setDepth d s).slots = slotsAt s.cfg d := by
  simp [State.slots, Buffer.slots]
/-- A depth change leaves the controller alone but for LSS. -/
theorem setDepth_ctl (d : Depth) (s : State) :
    (setDepth d s).ctl = { s.ctl with lss := (setDepth d s).ctl.lss } := by
  unfold setDepth; split <;> rfl
@[simp] theorem setDepth_heads_length (d : Depth) (s : State) : (setDepth d s).heads.length = s.heads.length := by
  unfold setDepth; split <;> simp

/-- A head's new positions are on the new ring, and its loop holds it (R130). -/
theorem renormHead_keeps_inv {c : Config} {n m : Nat} (hn : 2 ≤ n) {hd : Head} (h : HeadInv c m hd) :
    HeadInv c n (renormHead n hd) := by
  obtain ⟨-, hx, -⟩ := h
  have hn0 : 0 < n := by omega
  have hp := Nat.mod_lt hd.pos hn0
  have hs := Nat.mod_lt hd.loopStart hn0
  have he := Nat.mod_lt hd.loopEnd hn0
  have hq := Nat.mod_lt hd.xpos hn0
  by_cases hen : hd.loopEn = true
  · simp only [renormHead, hen, Bool.true_and]
    have hle : (if (hd.loopEnd % n == hd.loopStart % n) = true then wrap (((hd.loopStart % n : Nat) : Int) - 1) n
        else hd.loopEnd % n) < n := by split; exacts [wrap_lt hn0 _, he]
    have hne : (if (hd.loopEnd % n == hd.loopStart % n) = true then wrap (((hd.loopStart % n : Nat) : Int) - 1) n
        else hd.loopEnd % n) ≠ hd.loopStart % n := by
      split
      · exact wrap_pred_ne hn hs
      · simp_all
    generalize (if (hd.loopEnd % n == hd.loopStart % n) = true then wrap (((hd.loopStart % n : Nat) : Int) - 1) n
        else hd.loopEnd % n) = e at hle hne ⊢
    refine ⟨⟨?_, hq, hs, hle, ?_⟩, hx, fun _ => ⟨hne, ?_⟩⟩
    · split; exacts [hs, hp]
    · simp only; omega
    · simp only
      split
      · exact inregion_start hs hle hne
      · simp_all
  · simp only [renormHead, hen, Bool.false_and]
    exact ⟨⟨hp, hq, hs, he, by simp only; omega⟩, hx, fun h => by simp at h⟩

end Sys2Proof.Machine
end

