-- ==== Sys2Proof/Laws/PlayHead.lean ====
section
/-! SUPPORT. What each operation on a play head can do, and that it keeps what R27 says of the head. -/

namespace Sys2Proof.Machine

/-! ### What an operation leaves alone -/

/-- `advance` in cases: a step on, a wrap, or the first wrap with its fade (R151). -/
theorem advance_cases (c : Config) (n : Nat) (hd : Head) :
    (¬(hd.loopEn = true ∧ (hd.pos + 1) % n = hd.loopEnd) ∧ advance c n hd = { hd with pos := (hd.pos + 1) % n }) ∨
    (hd.loopEn = true ∧ (hd.pos + 1) % n = hd.loopEnd ∧ hd.xfDone = true ∧
      advance c n hd = { hd with pos := hd.loopStart }) ∨
    (hd.loopEn = true ∧ (hd.pos + 1) % n = hd.loopEnd ∧ hd.xfDone = false ∧
      advance c n hd = { hd with pos := hd.loopStart, xpos := hd.loopEnd, xrem := c.fadeWindow, xfDone := true }) := by
  unfold advance
  by_cases h1 : hd.loopEn = true <;> by_cases h2 : (hd.pos + 1) % n = hd.loopEnd <;>
    by_cases h3 : hd.xfDone = true <;> simp_all

@[simp] theorem advance_loopEn (c : Config) (n : Nat) (hd : Head) : (advance c n hd).loopEn = hd.loopEn := by
  unfold advance; simp only; split_ifs <;> rfl
@[simp] theorem advance_loopStart (c : Config) (n : Nat) (hd : Head) :
    (advance c n hd).loopStart = hd.loopStart := by unfold advance; simp only; split_ifs <;> rfl
@[simp] theorem advance_loopEnd (c : Config) (n : Nat) (hd : Head) : (advance c n hd).loopEnd = hd.loopEnd := by
  unfold advance; simp only; split_ifs <;> rfl
@[simp] theorem advance_doff (c : Config) (n : Nat) (hd : Head) : (advance c n hd).doff = hd.doff := by
  unfold advance; simp only; split_ifs <;> rfl
@[simp] theorem advance_out (c : Config) (n : Nat) (hd : Head) : (advance c n hd).out = hd.out := by
  unfold advance; simp only; split_ifs <;> rfl

@[simp] theorem playSample_loopEn (c : Config) (b : Buffer) (hd : Head) :
    (playSample c b hd).2.loopEn = hd.loopEn := by unfold playSample; simp only; split_ifs <;> simp
@[simp] theorem playSample_loopStart (c : Config) (b : Buffer) (hd : Head) :
    (playSample c b hd).2.loopStart = hd.loopStart := by unfold playSample; simp only; split_ifs <;> simp
@[simp] theorem playSample_loopEnd (c : Config) (b : Buffer) (hd : Head) :
    (playSample c b hd).2.loopEnd = hd.loopEnd := by unfold playSample; simp only; split_ifs <;> simp
@[simp] theorem playSample_doff (c : Config) (b : Buffer) (hd : Head) :
    (playSample c b hd).2.doff = hd.doff := by unfold playSample; simp only; split_ifs <;> simp
@[simp] theorem playSample_out (c : Config) (b : Buffer) (hd : Head) :
    (playSample c b hd).2.out = hd.out := by unfold playSample; simp only; split_ifs <;> simp

@[simp] theorem playSamples_zero (c : Config) (b : Buffer) (hd : Head) : playSamples c b 0 hd = ([], hd) := rfl
theorem playSamples_succ (c : Config) (b : Buffer) (n : Nat) (hd : Head) :
    playSamples c b (n + 1) hd =
      ((playSample c b hd).1 :: (playSamples c b n (playSample c b hd).2).1,
        (playSamples c b n (playSample c b hd).2).2) := rfl

/-- What n samples leave alone: the loop's registers but for LOOP_XF_DONE, DOFF, and OUT. -/
theorem playSamples_frame (c : Config) (b : Buffer) (n : Nat) (hd : Head) :
    (playSamples c b n hd).1.length = n ∧ (playSamples c b n hd).2.loopEn = hd.loopEn ∧
    (playSamples c b n hd).2.loopStart = hd.loopStart ∧ (playSamples c b n hd).2.loopEnd = hd.loopEnd ∧
    (playSamples c b n hd).2.doff = hd.doff ∧ (playSamples c b n hd).2.out = hd.out := by
  induction n generalizing hd with
  | zero => simp
  | succ n ih => simpa [playSamples_succ] using ih (playSample c b hd).2

/-- What READ_BLOCK leaves alone, and how much it adds to OUT_h (R162). -/
theorem readHead_frame (c : Config) (b : Buffer) (n : Nat) (hd : Head) :
    (∃ ys : List Sample, ys.length = n ∧ (readHead c b n hd).out = hd.out ++ ys) ∧
    (readHead c b n hd).loopEn = hd.loopEn ∧ (readHead c b n hd).loopStart = hd.loopStart ∧
    (readHead c b n hd).loopEnd = hd.loopEnd ∧ (readHead c b n hd).doff = hd.doff := by
  obtain ⟨h1, h2, h3, h4, h5, -⟩ := playSamples_frame c b n hd
  exact ⟨⟨_, h1, rfl⟩, h2, h3, h4, h5⟩

/-- The samples a head plays do not depend on what its stream already holds. -/
theorem playSamples_setOut (c : Config) (b : Buffer) (n : Nat) (hd : Head) (o : List Sample) :
    playSamples c b n { hd with out := o } =
      ((playSamples c b n hd).1, { (playSamples c b n hd).2 with out := o }) := by
  induction n generalizing hd with
  | zero => rfl
  | succ n ih =>
    have h1 : playSample c b { hd with out := o } =
        ((playSample c b hd).1, { (playSample c b hd).2 with out := o }) := by
      unfold playSample advance
      simp only
      split_ifs <;> rfl
    rw [playSamples_succ, playSamples_succ, h1]
    simp only
    rw [ih (playSample c b hd).2]

@[simp] theorem readHead_zero (c : Config) (b : Buffer) (hd : Head) : readHead c b 0 hd = hd := by
  simp [readHead]

/-- READ_BLOCK plays its first sample and then the rest (R162). -/
theorem readHead_succ (c : Config) (b : Buffer) (n : Nat) (hd : Head) :
    readHead c b (n + 1) hd =
      readHead c b n { (playSample c b hd).2 with out := hd.out ++ [(playSample c b hd).1] } := by
  have h := playSamples_setOut c b n (playSample c b hd).2 (hd.out ++ [(playSample c b hd).1])
  unfold readHead
  simp only [playSamples_succ, h, List.append_assoc, List.singleton_append]

/-- `retarget` in cases (R152). -/
theorem retarget_cases (c : Config) (n t : Nat) (hd : Head) :
    (cdist t hd.pos n ≤ 1 ∧ retarget c n t hd = { hd with pos := t }) ∨
    (1 < cdist t hd.pos n ∧ retarget c n t hd = { hd with xpos := hd.pos, pos := t, xrem := c.fadeWindow }) := by
  unfold retarget
  split
  · exact .inl ⟨‹_›, rfl⟩
  · exact .inr ⟨by omega, rfl⟩

/-- What SET_PLAY_HEAD leaves alone (R160). -/
theorem followHead_frame (c : Config) (b : Buffer) (off : Int) (hd : Head) :
    (followHead c b off hd).loopEn = hd.loopEn ∧ (followHead c b off hd).loopStart = hd.loopStart ∧
    (followHead c b off hd).loopEnd = hd.loopEnd ∧ (followHead c b off hd).xfDone = hd.xfDone ∧
    (followHead c b off hd).doff = hd.doff ∧ (followHead c b off hd).out = hd.out := by
  unfold followHead
  split
  · simp
  · rcases retarget_cases c (b.slots c) (wrap ((b.wh : Int) - off) (b.slots c)) hd with ⟨-, h⟩ | ⟨-, h⟩ <;> simp [h]

/-- What ENABLE_LOOP leaves alone, and the loop it sets (R164). -/
theorem enableLoopHead_frame (c : Config) (n : Nat) (a e : Int) (hd : Head) :
    (enableLoopHead c n a e hd).loopEn = true ∧ (enableLoopHead c n a e hd).loopStart = wrap a n ∧
    (enableLoopHead c n a e hd).loopEnd =
      (if wrap e n = wrap a n then wrap ((wrap a n : Nat) - 1 : Int) n else wrap e n) ∧
    (enableLoopHead c n a e hd).xfDone = false ∧ (enableLoopHead c n a e hd).doff = hd.doff ∧
    (enableLoopHead c n a e hd).out = hd.out := by
  unfold enableLoopHead
  simp only
  generalize (if wrap e n = wrap a n then wrap ((wrap a n : Nat) - 1 : Int) n else wrap e n) = e'
  split
  · exact ⟨rfl, rfl, rfl, rfl, rfl, rfl⟩
  · rcases retarget_cases c n (wrap a n)
      { hd with loopStart := wrap a n, loopEnd := e', loopEn := true, xfDone := false } with ⟨-, h⟩ | ⟨-, h⟩ <;>
      rw [h] <;> exact ⟨rfl, rfl, rfl, rfl, rfl, rfl⟩

@[simp] theorem disableLoopHead_loopEn (hd : Head) : (disableLoopHead hd).loopEn = false := rfl

/-! ### The invariant of a head -/

section
variable {c : Config} {n : Nat} {hd : Head}

theorem advance_keeps_inv (hn : 0 < n) (h : HeadInv c n hd) : HeadInv c n (advance c n hd) := by
  obtain ⟨⟨h1, h2, h3, h4, h5⟩, h6, h7⟩ := h
  have hp := Nat.mod_lt (hd.pos + 1) hn
  rcases advance_cases c n hd with ⟨hne, he⟩ | ⟨hen, -, -, he⟩ | ⟨hen, -, -, he⟩
  · rw [he]
    refine ⟨⟨hp, h2, h3, h4, h5⟩, h6, fun hen => ⟨(h7 hen).1, ?_⟩⟩
    exact inregion_succ h1 h3 h4 (h7 hen).2 fun hh => hne ⟨hen, hh⟩
  · rw [he]
    exact ⟨⟨h3, h2, h3, h4, h5⟩, h6, fun _ => ⟨(h7 hen).1, inregion_start h3 h4 (h7 hen).1⟩⟩
  · rw [he]
    exact ⟨⟨h3, h4, h3, h4, h5⟩, le_rfl, fun _ => ⟨(h7 hen).1, inregion_start h3 h4 (h7 hen).1⟩⟩

theorem playSample_keeps_inv {b : Buffer} (hn : 0 < b.slots c) (h : HeadInv c (b.slots c) hd) :
    HeadInv c (b.slots c) (playSample c b hd).2 := by
  unfold playSample
  simp only
  split
  · refine advance_keeps_inv hn ?_
    obtain ⟨⟨h1, h2, h3, h4, h5⟩, h6, h7⟩ := h
    exact ⟨⟨h1, Nat.mod_lt _ hn, h3, h4, h5⟩, by simp only; omega, h7⟩
  · exact advance_keeps_inv hn h

theorem playSamples_keeps_inv {b : Buffer} (hn : 0 < b.slots c) (k : Nat) (h : HeadInv c (b.slots c) hd) :
    HeadInv c (b.slots c) (playSamples c b k hd).2 := by
  induction k generalizing hd with
  | zero => exact h
  | succ k ih => exact ih (playSample_keeps_inv hn h)

theorem readHead_keeps_inv {b : Buffer} (hn : 0 < b.slots c) (k : Nat) (h : HeadInv c (b.slots c) hd) :
    HeadInv c (b.slots c) (readHead c b k hd) := playSamples_keeps_inv hn k h

/-- A retarget to a position that the loop, if there is one, holds. -/
theorem retarget_keeps_inv {t : Nat} (ht : t < n) (hp : hd.pos < n ∧ hd.xpos < n ∧ hd.loopStart < n ∧ hd.loopEnd < n ∧
    hd.doff < n) (hx : hd.xrem ≤ c.fadeWindow) (hl : hd.loopEn = true → hd.loopEnd ≠ hd.loopStart ∧
    inregion t hd.loopStart hd.loopEnd n = true) : HeadInv c n (retarget c n t hd) := by
  obtain ⟨h1, h2, h3, h4, h5⟩ := hp
  rcases retarget_cases c n t hd with ⟨-, he⟩ | ⟨-, he⟩ <;> rw [he]
  · exact ⟨⟨ht, h2, h3, h4, h5⟩, hx, hl⟩
  · exact ⟨⟨ht, h1, h3, h4, h5⟩, le_rfl, hl⟩

theorem followHead_keeps_inv {b : Buffer} (hn : 0 < b.slots c) (off : Int) (h : HeadInv c (b.slots c) hd) :
    HeadInv c (b.slots c) (followHead c b off hd) := by
  unfold followHead
  split
  · exact h
  · exact retarget_keeps_inv (wrap_lt hn _) h.1 h.2.1 fun hen => absurd hen ‹_›

theorem enableLoopHead_keeps_inv (hn : 2 ≤ n) (a e : Int) (h : HeadInv c n hd) :
    HeadInv c n (enableLoopHead c n a e hd) := by
  have hn0 : 0 < n := by omega
  obtain ⟨⟨h1, h2, h3, h4, h5⟩, h6, -⟩ := h
  have hs := wrap_lt hn0 a
  unfold enableLoopHead
  simp only
  have hle : (if wrap e n = wrap a n then wrap ((wrap a n : Nat) - 1 : Int) n else wrap e n) < n := by
    split; exacts [wrap_lt hn0 _, wrap_lt hn0 _]
  have hne : (if wrap e n = wrap a n then wrap ((wrap a n : Nat) - 1 : Int) n else wrap e n) ≠ wrap a n := by
    split
    · exact wrap_pred_ne hn hs
    · assumption
  generalize (if wrap e n = wrap a n then wrap ((wrap a n : Nat) - 1 : Int) n else wrap e n) = e' at hle hne ⊢
  split
  · exact ⟨⟨h1, h2, hs, hle, h5⟩, h6, fun _ => ⟨hne, ‹_›⟩⟩
  · exact retarget_keeps_inv hs ⟨h1, h2, hs, hle, h5⟩ h6 fun _ => ⟨hne, inregion_start hs hle hne⟩

theorem disableLoopHead_keeps_inv (h : HeadInv c n hd) : HeadInv c n (disableLoopHead hd) :=
  ⟨h.1, h.2.1, fun hen => by simp at hen⟩

theorem shiftLoopHead_keeps_inv (hn : 0 < n) (k : Int) (h : HeadInv c n hd) : HeadInv c n (shiftLoopHead n k hd) := by
  unfold shiftLoopHead
  split
  · rename_i hen
    obtain ⟨⟨h1, h2, h3, h4, h5⟩, h6, h7⟩ := h
    obtain ⟨h8, h9⟩ := h7 hen
    refine ⟨⟨wrap_lt hn _, h2, wrap_lt hn _, wrap_lt hn _, h5⟩, h6, fun _ => ⟨?_, ?_⟩⟩
    · intro heq
      apply h8
      have h0 : wrap (((wrap ((hd.loopEnd : Int) + k) n : Nat) : Int) - ((wrap ((hd.loopStart : Int) + k) n : Nat) : Int)) n =
          wrap ((hd.loopEnd : Int) - hd.loopStart) n := wrap_shift_sub hn _ _ _
      simp only at heq
      rw [heq, sub_self, wrap_sub_eq h4 h3] at h0
      have : wrap 0 n = 0 := by simp [wrap]
      rw [this] at h0
      split at h0 <;> omega
    · simp only
      rw [inregion_shift hn]
      exact h9
  · exact h

end

end Sys2Proof.Machine
end

