-- ==== Sys2Proof/Laws/Callback.lean ====
section
/-! SUPPORT. The steps of PROCESS_BLOCK (R250): what each leaves alone, and that the invariant holds again when the
controller step is done. Inside one PROCESS_BLOCK the controller may be ARMED or RELEASING (R191), so its part of the
invariant has a form of its own there. -/

namespace Sys2Proof.Machine

/-! ### The invariant without the controller's part -/

/-- `Inv` without its `controller`. -/
structure InvRest (s : State) : Prop where
  legal : s.cfg.Legal
  buffer : BufferInv s.cfg s.buf
  headCount : s.heads.length = s.cfg.numHeads
  heads : ∀ hd ∈ s.heads, HeadInv s.cfg s.slots hd
  delayCount : s.stg.delays.length = s.cfg.numHeads
  errors : ErrInv s.err

theorem Inv.rest {s : State} (h : Inv s) : InvRest s :=
  ⟨h.legal, h.buffer, h.headCount, h.heads, h.delayCount, h.errors⟩

theorem InvRest.toInv {s : State} (h : InvRest s) (hk : ControllerInv s.cfg s.slots s.ctl) : Inv s :=
  ⟨h.legal, h.buffer, h.headCount, h.heads, hk, h.delayCount, h.errors⟩

theorem InvRest.two_le_slots {s : State} (h : InvRest s) : 2 ≤ s.slots := two_le_slotsAt h.legal _

/-- The controller inside one PROCESS_BLOCK: its registers in their ranges; a timed glitch that is armed or active
has callbacks left, and an active one a running shift timer where shifting is on. -/
abbrev ControllerMid (c : Config) (n : Nat) (k : Controller) : Prop :=
  ((k.cstate = .armed ∨ k.cstate = .active) → k.cmode = .glitch → 1 ≤ k.updates) ∧
  (k.cstate = .active → k.cmode = .glitch → 0 < c.shiftPeriod → 1 ≤ k.shiftTimer) ∧
  k.updates < 4294967296 ∧ k.shiftTimer ≤ c.shiftPeriod ∧ k.shiftCount < c.shiftReverseEvery ∧
  1 ≤ k.lss ∧ k.lss ≤ n - 1

theorem ControllerInv.mid {c : Config} {n : Nat} {k : Controller} (h : ControllerInv c n k) : ControllerMid c n k := by
  obtain ⟨h1, h2, h3⟩ := h
  refine ⟨?_, fun ha hg => (h2 ha hg).2, h3⟩
  rintro (ha | ha) hg
  · rcases h1 with h1 | h1 <;> simp [ha] at h1
  · exact (h2 ha hg).1

/-- An operation on every head that keeps a head's invariant. -/
theorem InvRest.mapHeads {s : State} (h : InvRest s) {f : Head → Head}
    (hf : ∀ hd, HeadInv s.cfg s.slots hd → HeadInv s.cfg s.slots (f hd)) : InvRest (s.setHeads (s.heads.map f)) :=
  ⟨h.legal, h.buffer, by simpa using h.headCount, by simpa using fun hd hm => hf hd (h.heads hd hm),
    h.delayCount, h.errors⟩

/-- An operation on one head that keeps a head's invariant. -/
theorem InvRest.modifyHead {s : State} (h : InvRest s) (i : Nat) {f : Head → Head}
    (hf : ∀ hd, HeadInv s.cfg s.slots hd → HeadInv s.cfg s.slots (f hd)) :
    InvRest (s.setHeads (s.heads.modify i f)) := by
  refine ⟨h.legal, h.buffer, by simpa using h.headCount, ?_, h.delayCount, h.errors⟩
  intro hd hm
  simp only [State.setHeads_heads, List.mem_iff_getElem?, List.getElem?_modify, Option.map_eq_map,
    Option.map_eq_some_iff] at hm
  obtain ⟨j, hd', hj, rfl⟩ := hm
  have := h.heads hd' (List.mem_of_getElem? hj)
  simp only [State.setHeads_cfg, State.setHeads_slots]
  split
  · exact hf _ this
  · exact this

theorem InvRest.setCtl {s : State} (h : InvRest s) (k : Controller) : InvRest (s.setCtl k) :=
  ⟨h.legal, h.buffer, h.headCount, h.heads, h.delayCount, h.errors⟩

/-! ### Step 1: the apply step -/

theorem setDepth_keeps_rest {s : State} (h : InvRest s) (d : Depth) : InvRest (setDepth d s) := by
  unfold setDepth
  split
  · exact h
  · have hn := two_le_slotsAt h.legal d
    obtain ⟨-, h2, h3, h4⟩ := h.buffer
    refine ⟨h.legal, ⟨?_, h2, h3, h4⟩, by simpa using h.headCount, ?_, h.delayCount, h.errors⟩
    · exact Nat.mod_lt _ (by omega)
    · intro hd hm
      simp only [State.setHeads_heads, List.mem_map] at hm
      obtain ⟨hd', hm', rfl⟩ := hm
      exact renormHead_keeps_inv hn (h.heads hd' hm')

theorem setDepth_keeps_lss {s : State} (h : s.cfg.Legal) (d : Depth) (hl : 1 ≤ s.ctl.lss ∧ s.ctl.lss ≤ s.slots - 1) :
    1 ≤ (setDepth d s).ctl.lss ∧ (setDepth d s).ctl.lss ≤ (setDepth d s).slots - 1 := by
  have hn := two_le_slotsAt h d
  rw [setDepth_slots]
  unfold setDepth
  split
  · subst d; exact hl
  · simp only [State.setHeads_ctl, State.setCtl_ctl]
    omega

@[simp] theorem applyDepth_cfg (s : State) : (applyDepth s).cfg = s.cfg := by simp [applyDepth]
@[simp] theorem applyDepth_stg (s : State) : (applyDepth s).stg = s.stg := by simp [applyDepth]
@[simp] theorem applyDepth_err (s : State) : (applyDepth s).err = s.err := by simp [applyDepth]
@[simp] theorem applyDepth_inq (s : State) : (applyDepth s).inq = s.inq := by simp [applyDepth]
@[simp] theorem applyDepth_resp (s : State) : (applyDepth s).resp = s.resp := by simp [applyDepth]
@[simp] theorem applyDepth_ports (s : State) : (applyDepth s).ports = s.ports := by simp [applyDepth]
@[simp] theorem applyDepth_slots (s : State) : (applyDepth s).slots = slotsAt s.cfg s.stg.bitDepth := by
  simp [applyDepth]

@[simp] theorem applyDelays_cfg (s : State) : (applyDelays s).cfg = s.cfg := rfl
@[simp] theorem applyDelays_buf (s : State) : (applyDelays s).buf = s.buf := rfl
@[simp] theorem applyDelays_ctl (s : State) : (applyDelays s).ctl = s.ctl := rfl
@[simp] theorem applyDelays_stg (s : State) : (applyDelays s).stg = s.stg := rfl
@[simp] theorem applyDelays_err (s : State) : (applyDelays s).err = s.err := rfl
@[simp] theorem applyDelays_inq (s : State) : (applyDelays s).inq = s.inq := rfl
@[simp] theorem applyDelays_resp (s : State) : (applyDelays s).resp = s.resp := rfl
@[simp] theorem applyDelays_ports (s : State) : (applyDelays s).ports = s.ports := rfl
@[simp] theorem applyDelays_slots (s : State) : (applyDelays s).slots = s.slots := rfl

@[simp] theorem applyLoopSize_cfg (s : State) : (applyLoopSize s).cfg = s.cfg := rfl
@[simp] theorem applyLoopSize_buf (s : State) : (applyLoopSize s).buf = s.buf := rfl
@[simp] theorem applyLoopSize_heads (s : State) : (applyLoopSize s).heads = s.heads := rfl
@[simp] theorem applyLoopSize_stg (s : State) : (applyLoopSize s).stg = s.stg := rfl
@[simp] theorem applyLoopSize_err (s : State) : (applyLoopSize s).err = s.err := rfl
@[simp] theorem applyLoopSize_inq (s : State) : (applyLoopSize s).inq = s.inq := rfl
@[simp] theorem applyLoopSize_resp (s : State) : (applyLoopSize s).resp = s.resp := rfl
@[simp] theorem applyLoopSize_ports (s : State) : (applyLoopSize s).ports = s.ports := rfl
@[simp] theorem applyLoopSize_slots (s : State) : (applyLoopSize s).slots = s.slots := rfl
@[simp] theorem applyLoopSize_ctl (s : State) :
    (applyLoopSize s).ctl = { s.ctl with lss := loopSamples s.slots s.stg.loopSize.toNat } := rfl

@[simp] theorem applyFreeze_cfg (s : State) : (applyFreeze s).cfg = s.cfg := rfl
@[simp] theorem applyFreeze_buf (s : State) : (applyFreeze s).buf = s.buf := rfl
@[simp] theorem applyFreeze_heads (s : State) : (applyFreeze s).heads = s.heads := rfl
@[simp] theorem applyFreeze_stg (s : State) : (applyFreeze s).stg = { s.stg with freeze := .none } := rfl
@[simp] theorem applyFreeze_ctl (s : State) : (applyFreeze s).ctl = freezeCtl s.stg.freeze s.ctl := rfl
@[simp] theorem applyFreeze_err (s : State) : (applyFreeze s).err = s.err := rfl
@[simp] theorem applyFreeze_inq (s : State) : (applyFreeze s).inq = s.inq := rfl
@[simp] theorem applyFreeze_resp (s : State) : (applyFreeze s).resp = s.resp := rfl
@[simp] theorem applyFreeze_ports (s : State) : (applyFreeze s).ports = s.ports := rfl
@[simp] theorem applyFreeze_slots (s : State) : (applyFreeze s).slots = s.slots := rfl

@[simp] theorem applyGlitch_cfg (s : State) : (applyGlitch s).1.cfg = s.cfg := by unfold applyGlitch; split <;> rfl
@[simp] theorem applyGlitch_buf (s : State) : (applyGlitch s).1.buf = s.buf := by unfold applyGlitch; split <;> rfl
@[simp] theorem applyGlitch_heads (s : State) : (applyGlitch s).1.heads = s.heads := by
  unfold applyGlitch; split <;> rfl
@[simp] theorem applyGlitch_err (s : State) : (applyGlitch s).1.err = s.err := by unfold applyGlitch; split <;> rfl
@[simp] theorem applyGlitch_inq (s : State) : (applyGlitch s).1.inq = s.inq := by unfold applyGlitch; split <;> rfl
@[simp] theorem applyGlitch_resp (s : State) : (applyGlitch s).1.resp = s.resp := by
  unfold applyGlitch; split <;> rfl
@[simp] theorem applyGlitch_ports (s : State) : (applyGlitch s).1.ports = s.ports := by
  unfold applyGlitch; split <;> rfl
@[simp] theorem applyGlitch_stg (s : State) : (applyGlitch s).1.stg = { s.stg with glitchPending := false } := by
  unfold applyGlitch
  split
  · rfl
  · rename_i h
    rw [Bool.not_eq_true] at h
    simp only [← h]
@[simp] theorem applyGlitch_slots (s : State) : (applyGlitch s).1.slots = s.slots := by simp [State.slots]

/-- The staged parameters, as the rest of PROCESS_BLOCK finds them (R230 to R236). -/
theorem applyStaged_frame (s : State) :
    (applyStaged s).1.cfg = s.cfg ∧ (applyStaged s).1.buf = (setDepth s.stg.bitDepth s).buf ∧
    (applyStaged s).1.stg = { s.stg with freeze := .none, glitchPending := false } ∧
    (applyStaged s).1.err = s.err ∧ (applyStaged s).1.inq = s.inq ∧ (applyStaged s).1.resp = s.resp ∧
    (applyStaged s).1.ports = s.ports ∧ (applyStaged s).1.slots = slotsAt s.cfg s.stg.bitDepth ∧
    (applyStaged s).1.heads = (setDepth s.stg.bitDepth s).heads.mapIdx (fun h hd =>
      { hd with doff := delayOffset s.cfg (slotsAt s.cfg s.stg.bitDepth) (delayOf s.stg h) }) := by
  refine ⟨?_, ?_, ?_, ?_, ?_, ?_, ?_, ?_, ?_⟩
  all_goals simp [applyStaged]
  · rfl
  · simp [applyDelays]; rfl

/-- A staged delay becomes an offset on the ring (R136, R137: "clamped to `[0, N-1]`"). -/
theorem delayOffset_lt (c : Config) {n : Nat} (hn : 0 < n) (d : DelayReg) : delayOffset c n d < n := by
  unfold delayOffset delayFromMs delayFromRatio
  split <;> omega

theorem applyDelays_keeps_rest {s : State} (h : InvRest s) : InvRest (applyDelays s) := by
  refine ⟨h.legal, h.buffer, by simpa [applyDelays] using h.headCount, ?_, h.delayCount, h.errors⟩
  intro hd hm
  simp only [applyDelays, State.setHeads_heads, List.mem_mapIdx] at hm
  obtain ⟨i, hi, rfl⟩ := hm
  obtain ⟨⟨h1, h2, h3, h4, -⟩, h6, h7⟩ := h.heads _ (List.getElem_mem hi)
  exact ⟨⟨h1, h2, h3, h4, delayOffset_lt _ (by have := h.two_le_slots; exact lt_of_lt_of_le (by decide) this) _⟩, h6, h7⟩

/-- The live loop size is at least 1 and less than the ring (R233). -/
theorem loopSamples_range {n : Nat} (hn : 2 ≤ n) (v : Nat) : 1 ≤ loopSamples n v ∧ loopSamples n v ≤ n - 1 := by
  unfold loopSamples clamp
  omega

/-- A glitch lasts at least one callback, and its count fits UPDATES (R192, R29). -/
theorem glitchCallbacks_range {c : Config} (h : c.Legal) (ms : BitVec 16) :
    1 ≤ glitchCallbacks c ms.toNat ∧ glitchCallbacks c ms.toNat < 4294967296 := by
  have h1 : c.sampleRate ≤ 1048576 := h.2.2.1.2
  have h2 := ms.isLt
  have h3 : ms.toNat * c.sampleRate ≤ 65535 * 1048576 := Nat.mul_le_mul (by omega) h1
  have h4 : ms.toNat * c.sampleRate / (1000 * c.blockSize) ≤ ms.toNat * c.sampleRate / 1000 :=
    Nat.div_le_div_left (by have := h.2.1.1; omega) (by omega)
  unfold glitchCallbacks
  omega

theorem freezeCtl_keeps_mid {c : Config} {n : Nat} {k : Controller} (h : ControllerInv c n k) (r : FreezeReq) :
    ControllerMid c n (freezeCtl r k) := by
  have hm := h.mid
  have := h.1
  obtain ⟨cs, cm, u, f, t, n, l⟩ := k
  cases cs <;> simp at this <;> cases cm <;> cases r <;>
    simp_all [freezeCtl, resolveToggle, freezeActive, ControllerMid]

theorem glitchCtl_keeps_mid {c : Config} {n u : Nat} {k : Controller} (h : ControllerMid c n k) (hu : 1 ≤ u)
    (hu' : u < 4294967296) : ControllerMid c n (glitchCtl u k).1 := by
  obtain ⟨cs, cm, u', f, t, n, l⟩ := k
  cases cs <;> cases cm <;> simp_all [glitchCtl, ControllerMid]

/-- The apply step, up to the controller's transient states. -/
theorem applyStaged_keeps {s : State} (h : Inv s) :
    InvRest (applyStaged s).1 ∧ ControllerMid s.cfg (slotsAt s.cfg s.stg.bitDepth) (applyStaged s).1.ctl := by
  have h1 : InvRest (applyDepth s) := setDepth_keeps_rest h.rest _
  have h2 : InvRest (applyDelays (applyDepth s)) := applyDelays_keeps_rest h1
  have h3 : InvRest (applyLoopSize (applyDelays (applyDepth s))) := h2.setCtl _
  have h4 : InvRest (applyFreeze (applyLoopSize (applyDelays (applyDepth s)))) :=
    ⟨h3.legal, h3.buffer, h3.headCount, h3.heads, h3.delayCount, h3.errors⟩
  have hn := two_le_slotsAt h.legal s.stg.bitDepth
  have k3 : ControllerInv s.cfg (slotsAt s.cfg s.stg.bitDepth) (applyLoopSize (applyDelays (applyDepth s))).ctl := by
    obtain ⟨a, b, d, e, f, -⟩ := h.controller
    have hk := setDepth_ctl s.stg.bitDepth s
    simp only [applyLoopSize_ctl, applyDelays_ctl, applyDelays_slots, applyDepth_slots, applyDelays_stg,
      applyDepth_stg]
    rw [applyDepth, hk]
    exact ⟨a, b, d, e, f, loopSamples_range hn _⟩
  have k4 := freezeCtl_keeps_mid k3 s.stg.freeze
  constructor
  · unfold applyStaged applyGlitch
    split
    · exact ⟨h4.legal, h4.buffer, h4.headCount, h4.heads, h4.delayCount, h4.errors⟩
    · exact h4
  · unfold applyStaged applyGlitch
    split
    · obtain ⟨hu, hu'⟩ := glitchCallbacks_range h.legal s.stg.glitchMs
      have := glitchCtl_keeps_mid k4 hu hu'
      simpa using this
    · simpa using k4

/-! ### Step 2: the controller step -/

/-- What the controller step leaves alone: everything but the heads' loops and positions, and the controller. -/
theorem controllerStep_frame (r : Bool) (s : State) :
    (controllerStep r s).cfg = s.cfg ∧ (controllerStep r s).buf = s.buf ∧ (controllerStep r s).stg = s.stg ∧
    (controllerStep r s).err = s.err ∧ (controllerStep r s).inq = s.inq ∧ (controllerStep r s).resp = s.resp ∧
    (controllerStep r s).ports = s.ports ∧ (controllerStep r s).heads.length = s.heads.length := by
  unfold controllerStep
  split
  · simp
  · simp [loopEnter]
  · split
    · unfold glitchTick
      simp only
      split_ifs with h <;> simp only [releaseToIdle, loopRelease, shiftTick]
      all_goals first | (split_ifs <;> simp) | simp
    · simp
  · simp [releaseToIdle, loopRelease]

theorem loopEnter_keeps {s : State} (h : InvRest s) (k : Controller) : InvRest ((loopEnter s).setCtl k) := by
  have h1 := h.mapHeads (f := enableLoopHead s.cfg s.slots (windowStart s) (windowEnd s))
    fun hd hi => enableLoopHead_keeps_inv h.two_le_slots _ _ hi
  exact (h1.setCtl _).setCtl _

theorem releaseToIdle_keeps {s : State} (h : InvRest s) : InvRest (releaseToIdle s) :=
  (h.mapHeads fun _ hi => disableLoopHead_keeps_inv hi).setCtl _

/-- `shiftTick` in cases: shifting off, a shift, or a tick of the timer (R195). -/
theorem shiftTick_cases (s : State) :
    (s.cfg.shiftPeriod = 0 ∧ shiftTick s = s) ∨
    (s.cfg.shiftPeriod ≠ 0 ∧ s.ctl.shiftTimer ≤ 1 ∧ shiftTick s =
      (s.setHeads (s.heads.map (shiftLoopHead s.slots (shiftOffset s)))).setCtl (shiftedCtl s.cfg s.ctl)) ∨
    (s.cfg.shiftPeriod ≠ 0 ∧ 1 < s.ctl.shiftTimer ∧
      shiftTick s = s.setCtl { s.ctl with shiftTimer := s.ctl.shiftTimer - 1 }) := by
  unfold shiftTick
  split_ifs with h1 h2
  · exact .inl ⟨h1, rfl⟩
  · exact .inr (.inl ⟨h1, by omega, rfl⟩)
  · exact .inr (.inr ⟨h1, by omega, rfl⟩)

/-- A shift keeps the state, mode, countdown and loop size, reloads the timer and keeps the count below R (R195). -/
theorem shiftedCtl_spec (c : Config) (k : Controller) :
    (shiftedCtl c k).cstate = k.cstate ∧ (shiftedCtl c k).cmode = k.cmode ∧ (shiftedCtl c k).updates = k.updates ∧
    (shiftedCtl c k).lss = k.lss ∧ (shiftedCtl c k).shiftTimer = c.shiftPeriod ∧
    (k.shiftCount < c.shiftReverseEvery → (shiftedCtl c k).shiftCount < c.shiftReverseEvery) := by
  unfold shiftedCtl
  split_ifs <;> refine ⟨rfl, rfl, rfl, rfl, rfl, fun h => ?_⟩ <;> simp only <;> omega

theorem shiftTick_keeps {s : State} (h : InvRest s) : InvRest (shiftTick s) := by
  unfold shiftTick
  split_ifs
  · exact h
  · exact (h.mapHeads fun _ hi => shiftLoopHead_keeps_inv (by have := h.two_le_slots; omega) _ hi).setCtl _
  · exact h.setCtl _

/-- When the controller step is done the invariant holds again (R191). -/
theorem controllerStep_keeps {s : State} (r : Bool) (h : InvRest s) (hk : ControllerMid s.cfg s.slots s.ctl) :
    Inv (controllerStep r s) := by
  obtain ⟨k1, k2, k3, k4, k5, k6, k7⟩ := hk
  have hR : 1 ≤ s.cfg.shiftReverseEvery := h.legal.2.2.2.2.2.2.2.2.1
  unfold controllerStep
  split
  · rename_i hc
    exact h.toInv ⟨.inl hc, by simp [hc], k3, k4, k5, k6, k7⟩
  · rename_i hc
    refine (loopEnter_keeps h _).toInv ?_
    refine ⟨.inr rfl, fun _ hg => ⟨k1 (.inl hc) hg, fun hp => hp⟩, k3, le_rfl, ?_, k6, k7⟩
    show 0 < s.cfg.shiftReverseEvery
    omega
  · rename_i hc
    split
    · rename_i hg
      unfold glitchTick
      simp only
      generalize hu : (if r = true then s.ctl.updates else s.ctl.updates - 1) = u
      have hu' : u < 4294967296 := by split at hu <;> omega
      split
      · refine (releaseToIdle_keeps (h.setCtl _)).toInv ?_
        exact ⟨.inl rfl, by simp [releaseToIdle], hu', k4, k5, k6, k7⟩
      · rename_i hne
        refine (shiftTick_keeps (h.setCtl _)).toInv ?_
        have hne' : 1 ≤ u := by omega
        have kc : ∀ t m, t ≤ s.cfg.shiftPeriod → (0 < s.cfg.shiftPeriod → 1 ≤ t) → m < s.cfg.shiftReverseEvery →
            ∀ k : Controller, k.cstate = .active → k.updates = u → k.lss = s.ctl.lss → k.shiftTimer = t →
            k.shiftCount = m → ControllerInv s.cfg s.slots k := by
          intro t m ht ht' hm k a1 a2 a3 a4 a5
          exact ⟨.inr a1, fun _ _ => ⟨by omega, fun hp => by have := ht' hp; omega⟩, by omega, by omega, by omega,
            by omega, by omega⟩
        rcases shiftTick_cases (s.setCtl { s.ctl with updates := u }) with ⟨hp, he⟩ | ⟨hp, ht, he⟩ | ⟨hp, ht, he⟩ <;>
          rw [he]
        · exact kc _ _ k4 (fun hp' => by simp only [State.setCtl_cfg] at hp; omega) k5 _ hc rfl rfl rfl rfl
        · obtain ⟨a1, -, a3, a4, a5, a6⟩ := shiftedCtl_spec s.cfg { s.ctl with updates := u }
          exact kc _ _ le_rfl (fun hp' => hp') (a6 k5) _ (a1.trans hc) a3 a4 a5 rfl
        · simp only [State.setCtl_ctl] at ht
          exact kc (s.ctl.shiftTimer - 1) _ (by omega) (fun _ => by omega) k5 _ hc rfl rfl rfl rfl
    · rename_i hf
      exact h.toInv ⟨.inr hc, by simp [hf], k3, k4, k5, k6, k7⟩
  · refine (releaseToIdle_keeps h).toInv ?_
    exact ⟨.inl rfl, by simp [releaseToIdle], k3, k4, k5, k6, k7⟩

/-! ### Steps 3 to 5 -/

@[simp] theorem followDelays_cfg (s : State) : (followDelays s).cfg = s.cfg := rfl
@[simp] theorem followDelays_buf (s : State) : (followDelays s).buf = s.buf := rfl
@[simp] theorem followDelays_ctl (s : State) : (followDelays s).ctl = s.ctl := rfl
@[simp] theorem followDelays_stg (s : State) : (followDelays s).stg = s.stg := rfl
@[simp] theorem followDelays_err (s : State) : (followDelays s).err = s.err := rfl
@[simp] theorem followDelays_inq (s : State) : (followDelays s).inq = s.inq := rfl
@[simp] theorem followDelays_resp (s : State) : (followDelays s).resp = s.resp := rfl
@[simp] theorem followDelays_ports (s : State) : (followDelays s).ports = s.ports := rfl
@[simp] theorem followDelays_heads (s : State) :
    (followDelays s).heads = s.heads.map (fun hd => followHead s.cfg s.buf hd.doff hd) := rfl

@[simp] theorem readBlocks_cfg (n : Nat) (s : State) : (readBlocks n s).cfg = s.cfg := rfl
@[simp] theorem readBlocks_buf (n : Nat) (s : State) : (readBlocks n s).buf = s.buf := rfl
@[simp] theorem readBlocks_ctl (n : Nat) (s : State) : (readBlocks n s).ctl = s.ctl := rfl
@[simp] theorem readBlocks_stg (n : Nat) (s : State) : (readBlocks n s).stg = s.stg := rfl
@[simp] theorem readBlocks_err (n : Nat) (s : State) : (readBlocks n s).err = s.err := rfl
@[simp] theorem readBlocks_inq (n : Nat) (s : State) : (readBlocks n s).inq = s.inq := rfl
@[simp] theorem readBlocks_resp (n : Nat) (s : State) : (readBlocks n s).resp = s.resp := rfl
@[simp] theorem readBlocks_ports (n : Nat) (s : State) : (readBlocks n s).ports = s.ports := rfl
@[simp] theorem readBlocks_heads (n : Nat) (s : State) :
    (readBlocks n s).heads = s.heads.map (readHead s.cfg s.buf n) := rfl

theorem writeBlock_keeps_inv {s : State} (h : Inv s) (n : Nat) : Inv (writeBlock n s) := by
  have hd : (writeBlock n s).slots = s.slots := by
    have := (writeSamples_registers s.cfg s.buf (s.inq.take n) h.buffer.1).1
    simp only [State.slots, Buffer.slots, writeBlock_cfg, writeBlock_buf, this]
  exact ⟨h.legal, writeSamples_keeps_inv h.buffer _, h.headCount, by rw [hd]; exact h.heads,
    by rw [hd]; exact h.controller, h.delayCount, h.errors⟩

theorem mapHeads_keeps_inv {s : State} (h : Inv s) {f : Head → Head}
    (hf : ∀ hd, HeadInv s.cfg s.slots hd → HeadInv s.cfg s.slots (f hd)) : Inv (s.setHeads (s.heads.map f)) :=
  (h.rest.mapHeads hf).toInv h.controller

/-- Steps 1 and 2 keep the invariant. -/
theorem applyAndControl_keeps_inv {s : State} (h : Inv s) : Inv (applyAndControl s) := by
  obtain ⟨h1, h2⟩ := applyStaged_keeps h
  obtain ⟨e1, -, -, -, -, -, -, e8, -⟩ := applyStaged_frame s
  exact controllerStep_keeps _ h1 (by rw [e1, e8]; exact h2)

/-- PROCESS_BLOCK keeps the invariant. -/
theorem processBlock_keeps_inv {s : State} (h : Inv s) : Inv (processBlock s) := by
  have h1 := applyAndControl_keeps_inv h
  have hn : 0 < (applyAndControl s).slots := by have := h1.rest.two_le_slots; omega
  have h2 : Inv (followDelays (applyAndControl s)) :=
    mapHeads_keeps_inv h1 fun hd hi => followHead_keeps_inv hn _ hi
  exact writeBlock_keeps_inv (mapHeads_keeps_inv h2 fun hd hi => readHead_keeps_inv hn _ hi) _

end Sys2Proof.Machine
end

