-- ==== Sys2Proof/Laws/Exec.lean ====
section
/-! SUPPORT. What `exec` is for the instructions whose meaning branches, one lemma per branch; the other instructions
are their meanings by definition. -/

namespace Sys2Proof.Machine

/-- WRITE_BLOCK with its samples in IN (R125). -/
theorem exec_writeBlock_of_le {s : State} {count : BitVec 16} (h : count.toNat ≤ s.inq.length) :
    exec (.writeBlock count) s = .next (writeBlock count.toNat s) := by
  simp only [exec, execWriteBlock, immU16, Nat.not_lt.mpr h, if_false]

/-- PROCESS_BLOCK with its samples in IN (R250). -/
theorem exec_processBlock_of_le {s : State} (h : s.cfg.blockSize ≤ s.inq.length) :
    exec .processBlock s = .next (processBlock s) := by
  simp only [exec, execProcessBlock, Nat.not_lt.mpr h, if_false]

/-- SET_BIT_DEPTH, either way (R130). -/
theorem exec_setBitDepth (depth : BitVec 16) (s : State) :
    exec (.setBitDepth depth) s = .next (setDepth (clampDepth depth.toNat) s) := rfl

/-- A depth change to another depth (R130). -/
theorem setDepth_of_ne {d : Depth} {s : State} (h : d ≠ s.buf.depth) :
    setDepth d s = ((s.setBuf { s.buf with depth := d, wh := s.buf.wh % slotsAt s.cfg d }).setCtl
      { s.ctl with lss := min s.ctl.lss (slotsAt s.cfg d - 1) }).setHeads
        (s.heads.map (renormHead (slotsAt s.cfg d))) := by
  simp only [setDepth, h, if_false]

/-- READ_BLOCK of an existing head (R162). -/
theorem exec_readBlock_of_lt {s : State} {head : BitVec 4} (h : head.toNat < s.cfg.numHeads) (count : BitVec 16) :
    exec (.readBlock head count) s =
      .next (s.setHeads (s.heads.modify head.toNat (readHead s.cfg s.buf count.toNat))) := by
  simp only [exec, execReadBlock, State.onHead, headNum, immU16, h, if_true]

/-- CPW_DELAY of an existing head (R225). -/
theorem exec_cpwDelay_of_lt {s : State} {head : BitVec 4} (h : head.toNat < s.cfg.numHeads) (data : BitVec 32) :
    exec (.cpwDelay head data) s = .next (s.setStg { s.stg with
      delays := s.stg.delays.set head.toNat { ms := data.getLsbD 31, value := data.extractLsb' 0 16 } }) := by
  simp only [exec, execCpwDelay, headNum, h, if_true]

/-- CPW_DELAY of a head that does not exist is a refused write (R220). -/
theorem exec_cpwDelay_of_ge {s : State} {head : BitVec 4} (h : s.cfg.numHeads ≤ head.toNat) (data : BitVec 32) :
    exec (.cpwDelay head data) s = .next (cpError (delayAddrOf head) s) := by
  simp only [exec, execCpwDelay, headNum, Nat.not_lt.mpr h, if_false]

end Sys2Proof.Machine
end

