-- ==== Sys2Proof/Laws/Controller.lean ====
section
/-! SUPPORT. What PROCESS_BLOCK as a whole leaves alone, and what it does to the controller (R193, R230 to R235,
R250). -/

namespace Sys2Proof.Machine

/-- The controller after the freeze request of the apply step (R233, R234). -/
def frozenCtl (s : State) : Controller :=
  freezeCtl s.stg.freeze { s.ctl with lss := loopSamples (slotsAt s.cfg s.stg.bitDepth) s.stg.loopSize.toNat }

theorem applyFreeze_applyLoopSize_ctl (s : State) :
    (applyFreeze (applyLoopSize (applyDelays (applyDepth s)))).ctl = frozenCtl s := by
  simp only [applyFreeze_ctl, applyLoopSize_ctl, applyLoopSize_stg, applyDelays_stg, applyDepth_stg, applyDelays_ctl,
    applyDelays_slots, applyDepth_slots, frozenCtl]
  rw [applyDepth, setDepth_ctl]

/-- The controller after the glitch request, and whether it loaded UPDATES (R235). -/
theorem applyGlitch_ctl (s : State) :
    (s.stg.glitchPending = true ∧
      (applyGlitch s).1.ctl = (glitchCtl (glitchCallbacks s.cfg s.stg.glitchMs.toNat) s.ctl).1 ∧
      (applyGlitch s).2 = (glitchCtl (glitchCallbacks s.cfg s.stg.glitchMs.toNat) s.ctl).2) ∨
    (s.stg.glitchPending = false ∧ (applyGlitch s).1.ctl = s.ctl ∧ (applyGlitch s).2 = false) := by
  unfold applyGlitch
  cases hp : s.stg.glitchPending <;> simp

/-- The controller after the apply step, and whether it loaded UPDATES (R235). -/
theorem applyStaged_ctl (s : State) :
    (s.stg.glitchPending = true ∧
      (applyStaged s).1.ctl = (glitchCtl (glitchCallbacks s.cfg s.stg.glitchMs.toNat) (frozenCtl s)).1 ∧
      (applyStaged s).2 = (glitchCtl (glitchCallbacks s.cfg s.stg.glitchMs.toNat) (frozenCtl s)).2) ∨
    (s.stg.glitchPending = false ∧ (applyStaged s).1.ctl = frozenCtl s ∧ (applyStaged s).2 = false) := by
  have h := applyGlitch_ctl (applyFreeze (applyLoopSize (applyDelays (applyDepth s))))
  rw [applyFreeze_applyLoopSize_ctl] at h
  unfold applyStaged
  simpa only [applyFreeze_stg, applyFreeze_cfg, applyLoopSize_stg, applyLoopSize_cfg, applyDelays_stg,
    applyDelays_cfg, applyDepth_stg, applyDepth_cfg] using h

/-- The shift cadence leaves CSTATE, CMODE, UPDATES and LSS alone (R195). -/
theorem shiftTick_ctl (s : State) :
    (shiftTick s).ctl.cstate = s.ctl.cstate ∧ (shiftTick s).ctl.cmode = s.ctl.cmode ∧
    (shiftTick s).ctl.updates = s.ctl.updates ∧ (shiftTick s).ctl.lss = s.ctl.lss := by
  rcases shiftTick_cases s with ⟨-, he⟩ | ⟨-, -, he⟩ | ⟨-, -, he⟩ <;> rw [he]
  · exact ⟨rfl, rfl, rfl, rfl⟩
  · obtain ⟨q1, q2, q3, q4, -⟩ := shiftedCtl_spec s.cfg s.ctl
    exact ⟨q1, q2, q3, q4⟩
  · exact ⟨rfl, rfl, rfl, rfl⟩

/-- Everything the controller step can do (R193): nothing; the entry into the loop; the release; the end of a glitch
whose countdown ran out; or a glitch that goes on, with a tick of the shift cadence. -/
theorem controllerStep_cases (reloaded : Bool) (s : State) :
    let u := if reloaded = true then s.ctl.updates else s.ctl.updates - 1
    ((s.ctl.cstate = .idle ∨ (s.ctl.cstate = .active ∧ s.ctl.cmode = .freeze)) ∧ controllerStep reloaded s = s) ∨
    (s.ctl.cstate = .armed ∧ controllerStep reloaded s =
      (s.setHeads (s.heads.map (enableLoopHead s.cfg s.slots (windowStart s) (windowEnd s)))).setCtl
        { s.ctl with
          cstate := .active, shiftFwd := true, shiftTimer := s.cfg.shiftPeriod, shiftCount := 0 }) ∨
    (s.ctl.cstate = .releasing ∧ controllerStep reloaded s =
      (s.setHeads (s.heads.map disableLoopHead)).setCtl { s.ctl with cstate := .idle }) ∨
    (s.ctl.cstate = .active ∧ s.ctl.cmode = .glitch ∧ u = 0 ∧ controllerStep reloaded s =
      (s.setHeads (s.heads.map disableLoopHead)).setCtl { s.ctl with cstate := .idle, updates := 0 }) ∨
    (s.ctl.cstate = .active ∧ s.ctl.cmode = .glitch ∧ u ≠ 0 ∧ controllerStep reloaded s =
      shiftTick (s.setCtl { s.ctl with updates := u })) := by
  unfold controllerStep
  cases hc : s.ctl.cstate
  · exact .inl ⟨.inl rfl, rfl⟩
  · exact .inr (.inl ⟨rfl, rfl⟩)
  · cases hm : s.ctl.cmode
    · simp only [glitchTick]
      generalize (if reloaded = true then s.ctl.updates else s.ctl.updates - 1) = u
      by_cases hu : u = 0
      · subst hu
        exact .inr (.inr (.inr (.inl ⟨trivial, trivial, rfl, rfl⟩)))
      · exact .inr (.inr (.inr (.inr ⟨trivial, trivial, hu, by simp [hu]⟩)))
    · exact .inl ⟨.inr ⟨rfl, rfl⟩, rfl⟩
  · exact .inr (.inr (.inl ⟨rfl, rfl⟩))

/-- CSTATE, CMODE and UPDATES after the controller step (R193). -/
def steppedCtl (reloaded : Bool) (k : Controller) : CtlState × CtlMode × Nat :=
  match k.cstate with
  | .idle => (.idle, k.cmode, k.updates)
  | .armed => (.active, k.cmode, k.updates)
  | .releasing => (.idle, k.cmode, k.updates)
  | .active =>
    match k.cmode with
    | .freeze => (.active, .freeze, k.updates)
    | .glitch =>
      let u := if reloaded then k.updates else k.updates - 1
      (if u = 0 then .idle else .active, .glitch, u)

/-- What the controller step does to the controller's state, mode, countdown and loop size (R193). -/
theorem controllerStep_ctl (reloaded : Bool) (s : State) :
    ((controllerStep reloaded s).ctl.cstate, (controllerStep reloaded s).ctl.cmode,
      (controllerStep reloaded s).ctl.updates) = steppedCtl reloaded s.ctl ∧
    (controllerStep reloaded s).ctl.lss = s.ctl.lss := by
  unfold steppedCtl
  rcases controllerStep_cases reloaded s with ⟨hc | ⟨hc, hm⟩, he⟩ | ⟨hc, he⟩ | ⟨hc, he⟩ | ⟨hc, hm, hu, he⟩ |
    ⟨hc, hm, hu, he⟩ <;> rw [he]
  · simp [hc]
  · simp [hc, hm]
  · simp [hc]
  · simp [hc]
  · simp [hc, hm, hu]
  · simp [hc, hm, hu, shiftTick_ctl]

/-- CSTATE, CMODE and UPDATES after PROCESS_BLOCK's first two steps (R191). -/
theorem applyAndControl_ctl (s : State) :
    ((applyAndControl s).ctl.cstate, (applyAndControl s).ctl.cmode, (applyAndControl s).ctl.updates) =
      if s.stg.glitchPending = true then
        steppedCtl (glitchCtl (glitchCallbacks s.cfg s.stg.glitchMs.toNat) (frozenCtl s)).2
          (glitchCtl (glitchCallbacks s.cfg s.stg.glitchMs.toNat) (frozenCtl s)).1
      else steppedCtl false (frozenCtl s) := by
  unfold applyAndControl
  rw [(controllerStep_ctl _ _).1]
  rcases applyStaged_ctl s with ⟨hp, h1, h2⟩ | ⟨hp, h1, h2⟩ <;> simp [hp, h1, h2]

/-- LSS after PROCESS_BLOCK's first two steps (R233). -/
theorem applyAndControl_lss (s : State) :
    (applyAndControl s).ctl.lss = loopSamples (slotsAt s.cfg s.stg.bitDepth) s.stg.loopSize.toNat := by
  have hk : (frozenCtl s).lss = loopSamples (slotsAt s.cfg s.stg.bitDepth) s.stg.loopSize.toNat := by
    unfold frozenCtl
    generalize s.ctl = k
    obtain ⟨cs, cm, u, f, t, n, l⟩ := k
    cases s.stg.freeze <;> cases cs <;> cases cm <;> rfl
  unfold applyAndControl
  rw [(controllerStep_ctl _ _).2]
  rcases applyStaged_ctl s with ⟨-, h, -⟩ | ⟨-, h, -⟩ <;> rw [h, ← hk]
  generalize frozenCtl s = k
  obtain ⟨cs, cm, u, f, t, n, l⟩ := k
  cases cs <;> cases cm <;> rfl

/-- What the controller step does to the heads: nothing, the loop of `loopEnter`, the release, or the shift (R193). -/
theorem controllerStep_heads (reloaded : Bool) (s : State) :
    (controllerStep reloaded s).heads = s.heads ∨
    (controllerStep reloaded s).heads =
      s.heads.map (enableLoopHead s.cfg s.slots (windowStart s) (windowEnd s)) ∨
    (controllerStep reloaded s).heads = s.heads.map disableLoopHead ∨
    (controllerStep reloaded s).heads = s.heads.map (shiftLoopHead s.slots (shiftOffset s)) := by
  rcases controllerStep_cases reloaded s with ⟨-, he⟩ | ⟨-, he⟩ | ⟨-, he⟩ | ⟨-, -, -, he⟩ | ⟨-, -, -, he⟩ <;> rw [he]
  · exact .inl rfl
  · exact .inr (.inl rfl)
  · exact .inr (.inr (.inl rfl))
  · exact .inr (.inr (.inl rfl))
  · rcases shiftTick_cases (s.setCtl _) with ⟨-, he⟩ | ⟨-, -, he⟩ | ⟨-, -, he⟩ <;> rw [he]
    · exact .inl rfl
    · exact .inr (.inr (.inr rfl))
    · exact .inl rfl

/-- Steps 1 and 2 leave alone the parameters, ERRSTAT, the streams and the ports; the delay buffer is that of the depth
change (R230, R237). -/
theorem applyAndControl_frame (s : State) :
    (applyAndControl s).cfg = s.cfg ∧ (applyAndControl s).buf = (setDepth s.stg.bitDepth s).buf ∧
    (applyAndControl s).stg = { s.stg with freeze := .none, glitchPending := false } ∧
    (applyAndControl s).err = s.err ∧ (applyAndControl s).inq = s.inq ∧ (applyAndControl s).resp = s.resp ∧
    (applyAndControl s).ports = s.ports ∧ (applyAndControl s).slots = slotsAt s.cfg s.stg.bitDepth ∧
    (applyAndControl s).heads.length = s.heads.length := by
  obtain ⟨a1, a2, a3, a4, a5, a6, a7, a8, a9⟩ := applyStaged_frame s
  obtain ⟨c1, c2, c3, c4, c5, c6, c7, c8⟩ := controllerStep_frame (applyStaged s).2 (applyStaged s).1
  refine ⟨c1.trans a1, c2.trans a2, c3.trans a3, c4.trans a4, c5.trans a5, c6.trans a6, c7.trans a7, ?_, ?_⟩
  · rw [← a8, State.slots, State.slots]
    unfold applyAndControl
    rw [c1, c2]
  · unfold applyAndControl
    rw [c8, a9]
    simp

/-- PROCESS_BLOCK field by field: what its five steps leave in each part of the state (R250). -/
theorem processBlock_frame (s : State) :
    (processBlock s).cfg = s.cfg ∧
    (processBlock s).buf = writeSamples s.cfg (setDepth s.stg.bitDepth s).buf (s.inq.take s.cfg.blockSize) ∧
    (processBlock s).heads = (applyAndControl s).heads.map (fun hd =>
      readHead s.cfg (setDepth s.stg.bitDepth s).buf s.cfg.blockSize
        (followHead s.cfg (setDepth s.stg.bitDepth s).buf hd.doff hd)) ∧
    (processBlock s).ctl = (applyAndControl s).ctl ∧
    (processBlock s).stg = { s.stg with freeze := .none, glitchPending := false } ∧
    (processBlock s).err = s.err ∧ (processBlock s).inq = s.inq.drop s.cfg.blockSize ∧
    (processBlock s).resp = s.resp ∧ (processBlock s).ports = s.ports := by
  obtain ⟨h1, h2, h3, h4, h5, h6, h7, -, -⟩ := applyAndControl_frame s
  simp [processBlock, h1, h2, h3, h4, h5, h6, h7, Function.comp_def]

end Sys2Proof.Machine
end

