-- ==== Sys2Proof/Laws/Decode.lean ====
section
/-! SUPPORT. The fields of a header word and of a transaction, put together and taken apart (R80, R86), and the
decoder's map against the claims' copy of it (R83). -/

namespace Sys2Proof

/-- A header word is its four fields in order (R80). -/
theorem header_fields (w : Word) : opcOf w ++ headOf w ++ rsvOf w ++ immOf w = w := by
  unfold opcOf headOf rsvOf immOf
  apply BitVec.eq_of_getLsbD_eq
  intro i hi
  simp only [BitVec.getLsbD_append, BitVec.getLsbD_extractLsb']
  split_ifs with h1 h2 h3
  · simp [h1]
  · rw [show 16 + (i - 16) = i by omega]
    simp [h2]
  · rw [show 20 + (i - 16 - 4) = i by omega]
    simp [h3]
  · rw [show 24 + (i - 16 - 4 - 4) = i by omega, decide_eq_true (by omega : i - 16 - 4 - 4 < 8)]
    simp

/-- A header whose RSV is zero is the header of its other fields. -/
theorem header_of_fields {w : Word} (h : rsvOf w = 0) : header (opcOf w) (headOf w) (immOf w) = w := by
  conv_rhs => rw [← header_fields w, h]
  rfl

/-- A transaction is its three fields in order (R86). -/
theorem transaction_fields (t : Transaction) : transaction (rwOf t) (addrOf t) (dataOf t) = t := by
  unfold transaction rwOf addrOf dataOf
  apply BitVec.eq_of_getLsbD_eq
  intro i hi
  simp only [BitVec.getLsbD_append, BitVec.getLsbD_extractLsb', BitVec.getLsbD_ofBool]
  split_ifs with h1 h2
  · simp [h1]
  · rw [show 32 + (i - 32) = i by omega]
    simp [h2]
  · rw [show i = 40 by omega]
    simp

@[simp] theorem opcOf_header (opc : BitVec 8) (head : BitVec 4) (imm : BitVec 16) :
    opcOf (header opc head imm) = opc := by
  unfold opcOf header
  apply BitVec.eq_of_getLsbD_eq
  intro i hi
  simp only [BitVec.getLsbD_append, BitVec.getLsbD_extractLsb']
  simp [hi, show ¬24 + i < 16 by omega, show ¬24 + i - 16 < 4 by omega, show ¬24 + i - 16 - 4 < 4 by omega,
    show 24 + i - 16 - 4 - 4 = i by omega]

@[simp] theorem headOf_header (opc : BitVec 8) (head : BitVec 4) (imm : BitVec 16) :
    headOf (header opc head imm) = head := by
  unfold headOf header
  apply BitVec.eq_of_getLsbD_eq
  intro i hi
  simp only [BitVec.getLsbD_append, BitVec.getLsbD_extractLsb']
  simp [hi, show ¬20 + i < 16 by omega, show ¬20 + i - 16 < 4 by omega, show 20 + i - 16 - 4 = i by omega]

@[simp] theorem rsvOf_header (opc : BitVec 8) (head : BitVec 4) (imm : BitVec 16) :
    rsvOf (header opc head imm) = 0 := by
  unfold rsvOf header
  apply BitVec.eq_of_getLsbD_eq
  intro i hi
  simp only [BitVec.getLsbD_append, BitVec.getLsbD_extractLsb']
  simp [hi]

@[simp] theorem immOf_header (opc : BitVec 8) (head : BitVec 4) (imm : BitVec 16) :
    immOf (header opc head imm) = imm := by
  unfold immOf header
  apply BitVec.eq_of_getLsbD_eq
  intro i hi
  simp only [BitVec.getLsbD_append, BitVec.getLsbD_extractLsb']
  simp [hi]

@[simp] theorem rwOf_transaction (write : Bool) (addr : BitVec 8) (data : BitVec 32) :
    rwOf (transaction write addr data) = write := by
  unfold transaction rwOf
  rw [BitVec.getLsbD_append, BitVec.getLsbD_append]
  simp

@[simp] theorem addrOf_transaction (write : Bool) (addr : BitVec 8) (data : BitVec 32) :
    addrOf (transaction write addr data) = addr := by
  unfold transaction addrOf
  apply BitVec.eq_of_getLsbD_eq
  intro i hi
  simp only [BitVec.getLsbD_append, BitVec.getLsbD_extractLsb']
  simp [hi]

@[simp] theorem dataOf_transaction (write : Bool) (addr : BitVec 8) (data : BitVec 32) :
    dataOf (transaction write addr data) = data := by
  unfold transaction dataOf
  apply BitVec.eq_of_getLsbD_eq
  intro i hi
  simp only [BitVec.getLsbD_append, BitVec.getLsbD_extractLsb']
  simp [hi]

/-- A row that the map holds for an opcode is that opcode's. -/
theorem opcodeRow_some {opc : BitVec 8} {r : OpcodeRow} (h : opcodeRow opc = some r) :
    r ∈ opcodeMap ∧ r.opc = opc :=
  ⟨List.mem_of_find?_eq_some h, by simpa using List.find?_some h⟩

namespace Machine

/-- The claims' copy of the map has the decoder's rows. -/
theorem commandMap_row {row : MapRow} (h : row ∈ commandMap) :
    ∃ r, opcodeRow row.opc = some r ∧ r.words = row.words ∧ r.usesHead = row.usesHead ∧ r.usesImm = row.usesImm := by
  simp only [commandMap, List.mem_cons, List.not_mem_nil, or_false] at h
  rcases h with h | h | h | h | h | h | h | h | h | h | h | h | h | h | h <;> subst h <;>
    exact ⟨_, rfl, rfl, rfl, rfl⟩

/-- An opcode of no row of the claims' copy is in the decoder's map neither. -/
theorem opcodeRow_none {opc : BitVec 8} (h : ∀ row ∈ commandMap, row.opc ≠ opc) : opcodeRow opc = none := by
  simp [commandMap] at h
  simp [opcodeRow, opcodeMap]
  tauto

/-- The reserved-field check of the decoder, in the claims' terms (R87, check 2). -/
theorem reservedZero_iff {row : MapRow} {r : OpcodeRow} (h1 : r.usesHead = row.usesHead)
    (h2 : r.usesImm = row.usesImm) (w : Word) : reservedZero r w = true ↔ ¬row.reservedUsed w := by
  simp only [reservedZero, MapRow.reservedUsed, rsvOf, headOf, immOf, h1, h2]
  cases row.usesHead <;> cases row.usesImm <;> (simp; try tauto)

end Machine

end Sys2Proof
end

