-- ==== Sys2Proof/Laws/PerInstr.lean ====
section
/-! SUPPORT. Facts about every instruction as syntax, one lemma per constructor. -/

namespace Sys2Proof.Laws.EncodedLength

open Sys2Proof

/-- The words of an EP command are as many as the opcode map gives its opcode, and their RSV field is zero (R80, R81);
a CP transaction is a write unless it is a CPR (R86). -/
def Statement (i : Instr) : Prop :=
  match encode i with
  | .ep [] => False
  | .ep (header :: ops) => ops.length + 1 = commandWords (opcOf header) ∧ rsvOf header = 0
  | .cp t => rwOf t = true ∨ ∃ addr data, i = .cpr addr data

/-- An EP command whose header has the opcode of a row of `ops.length + 1` words. -/
theorem ep {opc : BitVec 8} {n : Nat} (h : commandWords opc = n) (head : BitVec 4) (imm : BitVec 16) :
    n = commandWords (opcOf (header opc head imm)) ∧ rsvOf (header opc head imm) = 0 := by
  simp [h]

theorem nop : Statement .nop := ep (opc := 0x00) (n := 1) rfl _ _
theorem processBlock : Statement .processBlock := ep (opc := 0x01) (n := 1) rfl _ _
theorem encode (sample : BitVec 16) (depth : BitVec 32) : Statement (.encode sample depth) :=
  ep (opc := 0x08) (n := 2) rfl _ _
theorem decode (stored : BitVec 16) (depth : BitVec 32) : Statement (.decode stored depth) :=
  ep (opc := 0x09) (n := 2) rfl _ _
theorem writeBlock (count : BitVec 16) : Statement (.writeBlock count) := ep (opc := 0x10) (n := 1) rfl _ _
theorem readSample (index : BitVec 32) : Statement (.readSample index) := ep (opc := 0x11) (n := 2) rfl _ _
theorem setWriteHead (position : BitVec 32) : Statement (.setWriteHead position) := ep (opc := 0x12) (n := 2) rfl _ _
theorem setBitDepth (depth : BitVec 16) : Statement (.setBitDepth depth) := ep (opc := 0x13) (n := 1) rfl _ _
theorem delayFromRatio (ratio : BitVec 16) : Statement (.delayFromRatio ratio) := ep (opc := 0x14) (n := 1) rfl _ _
theorem delayFromMs (ms : BitVec 32) : Statement (.delayFromMs ms) := ep (opc := 0x15) (n := 2) rfl _ _
theorem setPlayHead (head : BitVec 4) (offset : BitVec 32) : Statement (.setPlayHead head offset) :=
  ep (opc := 0x20) (n := 2) rfl _ _
theorem readBlock (head : BitVec 4) (count : BitVec 16) : Statement (.readBlock head count) :=
  ep (opc := 0x21) (n := 1) rfl _ _
theorem enableLoop (head : BitVec 4) (loopStart loopEnd : BitVec 32) : Statement (.enableLoop head loopStart loopEnd) :=
  ep (opc := 0x22) (n := 3) rfl _ _
theorem disableLoop (head : BitVec 4) : Statement (.disableLoop head) := ep (opc := 0x23) (n := 1) rfl _ _
theorem shiftLoop (head : BitVec 4) (offset : BitVec 32) : Statement (.shiftLoop head offset) :=
  ep (opc := 0x24) (n := 2) rfl _ _
theorem cpwErrstat (data : BitVec 32) : Statement (.cpwErrstat data) := .inl (rwOf_transaction _ _ _)
theorem cpwBitDepth (data : BitVec 32) : Statement (.cpwBitDepth data) := .inl (rwOf_transaction _ _ _)
theorem cpwLoopSize (data : BitVec 32) : Statement (.cpwLoopSize data) := .inl (rwOf_transaction _ _ _)
theorem cpwFreeze (data : BitVec 32) : Statement (.cpwFreeze data) := .inl (rwOf_transaction _ _ _)
theorem cpwGlitch (data : BitVec 32) : Statement (.cpwGlitch data) := .inl (rwOf_transaction _ _ _)
theorem cpwSpeed (data : BitVec 32) : Statement (.cpwSpeed data) := .inl (rwOf_transaction _ _ _)
theorem cpwDelay (head : BitVec 4) (data : BitVec 32) : Statement (.cpwDelay head data) :=
  .inl (rwOf_transaction _ _ _)
theorem cpwRefused (addr : BitVec 8) (data : BitVec 32) : Statement (.cpwRefused addr data) :=
  .inl (rwOf_transaction _ _ _)
theorem cpr (addr : BitVec 8) (data : BitVec 32) : Statement (.cpr addr data) := .inr ⟨addr, data, rfl⟩

end Sys2Proof.Laws.EncodedLength
end

