-- ==== Sys2Proof/Laws/Step.lean ====
section
/-! SUPPORT. What a step can be: the inversion of `step`, `fetch` and the agents' turns, and the error-recording
operations in cases. -/

namespace Sys2Proof.Machine

/-- With legal parameters a step is what its turn came to. -/
theorem step_of_legal {s : State} (h : s.cfg.Legal) :
    step s = match fetch s with
      | .settled s' => .next s'
      | .run i s' => exec i s' :=
  (if_pos h).trans (by cases fetch s <;> rfl)

/-- With illegal parameters a step stops (log 2). -/
theorem step_of_illegal {s : State} (h : ¬s.cfg.Legal) : step s = .fault .illegalParameters := by
  rw [step, if_neg h]

/-- A step that has a next state: its parameters are legal, and either its turn settled there or an instruction took
it there. -/
theorem step_next_cases {s t : State} (h : step s = .next t) :
    s.cfg.Legal ∧ (fetch s = .settled t ∨ ∃ i s', fetch s = .run i s' ∧ exec i s' = .next t) := by
  by_cases hl : s.cfg.Legal
  · rw [step_of_legal hl] at h
    cases hf : fetch s with
    | settled s' => rw [hf] at h; exact ⟨hl, .inl (by simpa using h)⟩
    | run i s' => rw [hf] at h; exact ⟨hl, .inr ⟨i, s', rfl, h⟩⟩
  · rw [step_of_illegal hl] at h; cases h

/-- On the engine's turn it moves, and the turn is taken off the schedule. -/
theorem fetch_of_engine {s : State} {turns : List Agent} (h : s.ports.sched = .engine :: turns) :
    fetch s = fetchEngine (s.setPorts { s.ports with sched := turns }) := by
  simp [fetch, nextAgent, popTurn, h]

/-- The control agent's turn. -/
theorem fetch_of_control {s : State} {turns : List Agent} (h : s.ports.sched = .control :: turns) :
    fetch s = fetchControl (s.setPorts { s.ports with sched := turns }) := by
  simp [fetch, nextAgent, popTurn, h]

/-- The host's turn. -/
theorem fetch_of_host {s : State} {turns : List Agent} (h : s.ports.sched = .host :: turns) :
    fetch s = fetchHost (s.setPorts { s.ports with sched := turns }) := by
  simp [fetch, nextAgent, popTurn, h]

/-- What a turn leaves alone before an instruction runs: everything but the ports. -/
theorem fetch_run_frame {s s' : State} {i : Instr} (h : fetch s = .run i s') : ∃ p, s' = s.setPorts p := by
  have key : fetchEngine (popTurn s) = .run i s' ∨ fetchControl (popTurn s) = .run i s' ∨
      fetchHost (popTurn s) = .run i s' := by
    unfold fetch at h
    cases ha : nextAgent s <;> rw [ha] at h
    · exact .inl h
    · exact .inr (.inl h)
    · exact .inr (.inr h)
  rcases key with h | h | h
  · unfold fetchEngine at h
    cases hd : decodeEp (popTurn s).ports.ep with
    | wait => rw [hd] at h; cases h
    | reject _ _ _ => rw [hd] at h; cases h
    | instr j rest =>
      rw [hd] at h
      simp only at h
      split at h
      · cases h
      · cases h; exact ⟨_, rfl⟩
  · unfold fetchControl at h
    split at h
    · cases h
    · cases h; exact ⟨_, rfl⟩
  · unfold fetchHost at h
    split at h <;> cases h

/-- What a turn that runs no instruction comes to: nothing but the schedule moves, a malformed command is recorded,
or the host acts. -/
theorem fetch_settled_cases {s t : State} (h : fetch s = .settled t) :
    (∃ p, t = s.setPorts p) ∨ (∃ p cause opc, t = cmdError cause opc (s.setPorts p)) ∨
    (∃ p a, t = hostAct a (s.setPorts p)) := by
  have key : fetchEngine (popTurn s) = .settled t ∨ fetchControl (popTurn s) = .settled t ∨
      fetchHost (popTurn s) = .settled t := by
    unfold fetch at h
    cases ha : nextAgent s <;> rw [ha] at h
    · exact .inl h
    · exact .inr (.inl h)
    · exact .inr (.inr h)
  rcases key with h | h | h
  · unfold fetchEngine at h
    cases hd : decodeEp (popTurn s).ports.ep with
    | wait => rw [hd] at h; cases h; exact .inl ⟨_, rfl⟩
    | reject c o r => rw [hd] at h; cases h; exact .inr (.inl ⟨_, c, o, rfl⟩)
    | instr j rest =>
      rw [hd] at h
      simp only at h
      split at h
      · cases h; exact .inl ⟨_, rfl⟩
      · cases h
  · unfold fetchControl at h
    split at h
    · cases h; exact .inl ⟨_, rfl⟩
    · cases h
  · unfold fetchHost at h
    split at h
    · cases h; exact .inl ⟨_, rfl⟩
    · cases h; exact .inr (.inr ⟨_, _, rfl⟩)

/-! ### Errors and head commands -/

/-- The cause codes are 1 to 4 (R270). -/
theorem causeCode_range (c : ErrCause) : 1#4 ≤ causeCode c ∧ causeCode c ≤ 4#4 := by cases c <;> decide

/-- Recording an error in cases: the first one is kept (R272). -/
theorem recordErr_cases (c : ErrCause) (info : BitVec 8) (e : ErrStat) :
    (e.err = true ∧ recordErr c info e = e) ∨
    (e.err = false ∧ recordErr c info e = { err := true, cause := causeCode c, info := info }) := by
  unfold recordErr
  cases h : e.err <;> simp

/-- A recorded error is set, whichever it is. -/
@[simp] theorem recordErr_err (c : ErrCause) (info : BitVec 8) (e : ErrStat) : (recordErr c info e).err = true := by
  rcases recordErr_cases c info e with ⟨h, he⟩ | ⟨-, he⟩ <;> rw [he]
  exact h

/-- A head command of an existing head (R25). -/
theorem State.onHead_of_lt {s : State} {head : BitVec 4} (h : head.toNat < s.cfg.numHeads) (opc : BitVec 8)
    (f : Head → Head) : s.onHead opc head f = s.setHeads (s.heads.modify head.toNat f) := by
  simp only [State.onHead, headNum, h, if_true]

/-- A head command of a head that does not exist is BAD_HEAD (R271). -/
theorem State.onHead_of_ge {s : State} {head : BitVec 4} (h : s.cfg.numHeads ≤ head.toNat) (opc : BitVec 8)
    (f : Head → Head) : s.onHead opc head f = cmdError .badHead opc s := by
  simp only [State.onHead, headNum, Nat.not_lt.mpr h, if_false]

end Sys2Proof.Machine
end

