-- ==== Sys2Proof/Laws/Run.lean ====
section
/-! SUPPORT. Runs of commands, and the same command for every head as one operation on the list of heads. -/

namespace Sys2Proof.Machine

@[simp] theorem runCommands_nil (s : State) : runCommands [] s = .next s := rfl

/-- A run goes on from where its first part ends. -/
theorem runCommands_append {is js : List Instr} {s t : State} (h : runCommands is s = .next t) :
    runCommands (is ++ js) s = runCommands js t := by
  induction is generalizing s with
  | nil =>
    cases h
    rfl
  | cons i is ih =>
    simp only [List.cons_append, runCommands] at h ⊢
    cases he : exec i s with
    | next u =>
      simp only [he] at h ⊢
      exact ih h
    | fault r => simp [he] at h
    | refused r => simp [he] at h

/-- Modifying the entries below `k` one after another: those below `k` have changed. -/
theorem foldl_modify_getElem? {α : Type} (g : Nat → α → α) (xs : List α) (k i : Nat) :
    ((List.range k).foldl (fun ys h => ys.modify h (g h)) xs)[i]? =
      if i < k then xs[i]?.map (g i) else xs[i]? := by
  induction k with
  | zero => simp
  | succ k ih =>
    rw [List.range_succ, List.foldl_append, List.foldl_cons, List.foldl_nil, List.getElem?_modify, ih]
    by_cases hk : k = i
    · subst hk
      simp
    · have : i < k + 1 ↔ i < k := by omega
      simp [hk, this]

/-- Modifying every entry in turn is one map over the list. -/
theorem foldl_modify_range {α : Type} (g : Nat → α → α) (xs : List α) :
    (List.range xs.length).foldl (fun ys h => ys.modify h (g h)) xs = xs.mapIdx g := by
  apply List.ext_getElem?
  intro i
  rw [foldl_modify_getElem?, List.getElem?_mapIdx]
  split_ifs with h
  · rfl
  · simp [List.getElem?_eq_none (Nat.le_of_not_lt h)]

/-- An operation that does not depend on the place is a map. -/
theorem mapIdx_same {α β : Type} (g : α → β) (xs : List α) : xs.mapIdx (fun _ => g) = xs.map g := by
  apply List.ext_getElem?
  intro i
  rw [List.getElem?_mapIdx, List.getElem?_map]

/-- A command for each of the heads 0 to H - 1 in turn, each of which changes its own head by `g`, is `g` on every
head. -/
theorem runCommands_heads {f : Nat → Instr} {g : Nat → Head → Head} {s : State}
    (hf : ∀ h, h < s.heads.length → ∀ hs : List Head,
      exec (f h) (s.setHeads hs) = .next (s.setHeads (hs.modify h (g h)))) :
    runCommands ((List.range s.heads.length).map f) s = .next (s.setHeads (s.heads.mapIdx g)) := by
  have key : ∀ (l : List Nat) (hs : List Head), (∀ h ∈ l, h < s.heads.length) →
      runCommands (l.map f) (s.setHeads hs) =
        .next (s.setHeads (l.foldl (fun ys h => ys.modify h (g h)) hs)) := by
    intro l
    induction l with
    | nil => intro hs _; rfl
    | cons h l ih =>
      intro hs hl
      simp only [List.map_cons, runCommands, hf h (hl h List.mem_cons_self), List.foldl_cons]
      exact ih _ fun h' hm => hl h' (List.mem_cons_of_mem _ hm)
  rw [← foldl_modify_range]
  exact key _ s.heads fun h hm => List.mem_range.mp hm

/-! ### One command for every head: each is its operation mapped over the heads -/

/-- A head number of a machine with at most 16 heads fits the HEAD field. -/
theorem head_field {h : Nat} (hh : h < 16) : (BitVec.ofNat 4 h).toNat = h := by
  rw [BitVec.toNat_ofNat, Nat.mod_eq_of_lt hh]

/-- A position below 2^31 reads back from a signed operand word. -/
theorem position_word {a : Nat} (ha : a < 2147483648) : opI32 (BitVec.ofNat 32 a) = a := by
  rw [opI32, BitVec.toInt_eq_toNat_of_lt] <;> simp <;> omega

/-- An offset of 32 signed bits reads back from its operand word. -/
theorem offset_word {o : Int} (ho : -2147483648 ≤ o ∧ o < 2147483648) : opI32 (BitVec.ofInt 32 o) = o := by
  rw [opI32, BitVec.toInt_ofInt, Int.bmod_def]
  omega

/-- SET_PLAY_HEAD of every head. -/
theorem runCommands_setPlayHead {t : State} {off : Nat → Nat} (hl : t.heads.length = t.cfg.numHeads)
    (h16 : t.cfg.numHeads ≤ 16) (ho : ∀ h, off h < 2147483648) :
    runCommands ((List.range t.cfg.numHeads).map (fun h =>
      .setPlayHead (BitVec.ofNat 4 h) (BitVec.ofNat 32 (off h)))) t =
      .next (t.setHeads (t.heads.mapIdx (fun h => followHead t.cfg t.buf (off h)))) := by
  rw [← hl]
  refine runCommands_heads fun h hh hs => ?_
  simp only [exec, execSetPlayHead, position_word (ho h)]
  rw [State.onHead_of_lt (by rw [head_field (by omega)]; simp; omega), head_field (by omega)]
  rfl

/-- READ_BLOCK of `n` samples for every head. -/
theorem runCommands_readBlock {t : State} (n : Nat) (hn : n < 65536) (hl : t.heads.length = t.cfg.numHeads)
    (h16 : t.cfg.numHeads ≤ 16) :
    runCommands ((List.range t.cfg.numHeads).map (fun h =>
      .readBlock (BitVec.ofNat 4 h) (BitVec.ofNat 16 n))) t =
      .next (t.setHeads (t.heads.map (readHead t.cfg t.buf n))) := by
  rw [← hl, runCommands_heads (g := fun _ => readHead t.cfg t.buf n), mapIdx_same]
  intro h hh hs
  rw [exec_readBlock_of_lt (by rw [head_field (by omega)]; simp; omega), head_field (by omega)]
  simp [Nat.mod_eq_of_lt hn]

/-- ENABLE_LOOP of every head, on the region from `a` to `e`. -/
theorem runCommands_enableLoop {t : State} {a e : Nat} (hl : t.heads.length = t.cfg.numHeads)
    (h16 : t.cfg.numHeads ≤ 16) (ha : a < 2147483648) (he : e < 2147483648) :
    runCommands ((List.range t.cfg.numHeads).map (fun h =>
      .enableLoop (BitVec.ofNat 4 h) (BitVec.ofNat 32 a) (BitVec.ofNat 32 e))) t =
      .next (t.setHeads (t.heads.map (enableLoopHead t.cfg t.slots a e))) := by
  rw [← hl, runCommands_heads (g := fun _ => enableLoopHead t.cfg t.slots a e), mapIdx_same]
  intro h hh hs
  simp only [exec, execEnableLoop, position_word ha, position_word he]
  rw [State.onHead_of_lt (by rw [head_field (by omega)]; simp; omega), head_field (by omega)]
  rfl

/-- DISABLE_LOOP of every head. -/
theorem runCommands_disableLoop {t : State} (hl : t.heads.length = t.cfg.numHeads) (h16 : t.cfg.numHeads ≤ 16) :
    runCommands ((List.range t.cfg.numHeads).map (fun h => .disableLoop (BitVec.ofNat 4 h))) t =
      .next (t.setHeads (t.heads.map disableLoopHead)) := by
  rw [← hl, runCommands_heads (g := fun _ => disableLoopHead), mapIdx_same]
  intro h hh hs
  simp only [exec, execDisableLoop]
  rw [State.onHead_of_lt (by rw [head_field (by omega)]; simp; omega), head_field (by omega)]
  rfl

/-- SHIFT_LOOP of every head by `o`. -/
theorem runCommands_shiftLoop {t : State} {o : Int} (hl : t.heads.length = t.cfg.numHeads)
    (h16 : t.cfg.numHeads ≤ 16) (ho : -2147483648 ≤ o ∧ o < 2147483648) :
    runCommands ((List.range t.cfg.numHeads).map (fun h =>
      .shiftLoop (BitVec.ofNat 4 h) (BitVec.ofInt 32 o))) t =
      .next (t.setHeads (t.heads.map (shiftLoopHead t.slots o))) := by
  rw [← hl, runCommands_heads (g := fun _ => shiftLoopHead t.slots o), mapIdx_same]
  intro h hh hs
  simp only [exec, execShiftLoop, offset_word ho]
  rw [State.onHead_of_lt (by rw [head_field (by omega)]; simp; omega), head_field (by omega)]
  rfl

end Sys2Proof.Machine
end

