-- ==== Sys2Proof/Tests/Slice0.lean ====
section
/-! SUPPORT. Tests: expected values are those of spec/95_test_vectors.md (the vector's label stands in each comment),
words are written out from 30_encoding.md R80, R83 and R86. Then a witness for every statement with hypotheses: a
concrete state and operands that meet them together, at the boundary of each clause. -/

namespace Sys2Proof.Tests

open Sys2Proof Sys2Proof.Machine

/-! ### Small states -/

/-- C = 16 (N = 8 at depth 16), B = 2, FS = 48000, W = 2, H = 1, no shifting: the vectors' usual instance. -/
def small : Config where
  capacity := 16
  blockSize := 2
  sampleRate := 48000
  fadeWindow := 2
  numHeads := 1
  loopMargin := 0
  shiftPeriod := 0
  shiftSamples := 0
  shiftReverseEvery := 1

/-- From reset. -/
def fresh : State := State.resetWith small

/-- Slots = [0, 100, 200, ..., 700] (section 2.3), WH = 0. -/
def ring : State :=
  fresh.setBuf (writeSamples small fresh.buf [0, 100, 200, 300, 400, 500, 600, 700])

/-- The next state of an instruction. -/
def after (i : Instr) (s : State) : State :=
  match exec i s with
  | .next t => t
  | .fault _ => s
  | .refused _ => s

/-- The next state of a step. -/
def stepped (s : State) : State :=
  match step s with
  | .next t => t
  | .fault _ => s
  | .refused _ => s

/-- Head 0. -/
def head0 (s : State) : Head := s.heads.getD 0 Head.reset

/-- Head 0 replaced. -/
def withHead (hd : Head) (s : State) : State := s.setHeads [hd]

/-- The decoded content of every slot. -/
def content (s : State) : List Int := (List.range s.slots).map (fun i => (slotRead s.cfg s.buf i).toInt)

/-- IN replaced. -/
def feed (xs : List Sample) (s : State) : State := s.setInq xs

/-- Words on the engine port, and its turn. -/
def engine (ws : List Word) (s : State) : State :=
  s.setPorts { s.ports with ep := ws, sched := [.engine] }

/-- A transaction on the control port, and its turn. -/
def control (t : Transaction) (s : State) : State :=
  s.setPorts { s.ports with cp := [t], sched := [.control] }

/-- An action of the host, and its turn. -/
def host (a : HostAction) (s : State) : State :=
  s.setPorts { s.ports with host := [a], sched := [.host] }

/-! ### Well-formedness -/

/-- An ill-formed term for each check: the address of a named register, and of a DELAY register. -/
theorem test_wf_refuses_named_address : (Instr.cpwRefused 0x03 0).wf = false := by decide
theorem test_wf_refuses_delay_address : (Instr.cpwRefused 0x15 0).wf = false := by decide

/-! ### Decoding: a word of every constructor -/

theorem test_decode_nop : decodeEp [0x00000000] = .instr .nop [] := rfl
theorem test_decode_process_block : decodeEp [0x01000000] = .instr .processBlock [] := rfl
theorem test_decode_encode : decodeEp [0x08001234, 8] = .instr (.encode 0x1234 8) [] := rfl
theorem test_decode_decode : decodeEp [0x0900AB12, 8] = .instr (.decode 0xAB12 8) [] := rfl
theorem test_decode_write_block : decodeEp [0x10000080] = .instr (.writeBlock 0x80) [] := rfl
theorem test_decode_read_sample : decodeEp [0x11000000, 0xFFFFFFF7] = .instr (.readSample 0xFFFFFFF7) [] := rfl
theorem test_decode_set_write_head : decodeEp [0x12000000, 0xFFFFFFFE] = .instr (.setWriteHead 0xFFFFFFFE) [] := rfl
theorem test_decode_set_bit_depth : decodeEp [0x13000008] = .instr (.setBitDepth 8) [] := rfl
theorem test_decode_delay_from_ratio : decodeEp [0x14008000] = .instr (.delayFromRatio 0x8000) [] := rfl
theorem test_decode_delay_from_ms : decodeEp [0x15000000, 100] = .instr (.delayFromMs 100) [] := rfl
theorem test_decode_set_play_head : decodeEp [0x20F00000, 3, 7] = .instr (.setPlayHead 15 3) [7] := rfl
theorem test_decode_read_block : decodeEp [0x21100004] = .instr (.readBlock 1 4) [] := rfl
theorem test_decode_enable_loop : decodeEp [0x22000000, 6, 2] = .instr (.enableLoop 0 6 2) [] := rfl
theorem test_decode_disable_loop : decodeEp [0x23200000] = .instr (.disableLoop 2) [] := rfl
theorem test_decode_shift_loop : decodeEp [0x24300000, 0xFFFFFFFE] = .instr (.shiftLoop 3 0xFFFFFFFE) [] := rfl
theorem test_decode_cpw_errstat : decodeCp 0x10100000001 = .cpwErrstat 1 := by decide
theorem test_decode_cpw_bit_depth : decodeCp 0x10200000008 = .cpwBitDepth 8 := by decide
theorem test_decode_cpw_loop_size : decodeCp 0x10312345678 = .cpwLoopSize 0x12345678 := by decide
theorem test_decode_cpw_freeze : decodeCp 0x10400000003 = .cpwFreeze 3 := by decide
theorem test_decode_cpw_glitch : decodeCp 0x105000001F4 = .cpwGlitch 0x1F4 := by decide
theorem test_decode_cpw_speed : decodeCp 0x10600012345 = .cpwSpeed 0x12345 := by decide
theorem test_decode_cpw_delay : decodeCp 0x11F800000FA = .cpwDelay 15 0x800000FA := by decide
theorem test_decode_cpw_refused : decodeCp 0x18000000005 = .cpwRefused 0x80 5 := by decide
theorem test_decode_cpr : decodeCp 0x0050000004D = .cpr 0x05 0x4D := by decide

/-- X1, X4, X5, X6: an opcode outside the map, RSV, HEAD and IMM16 where they must be zero. -/
theorem test_decode_rejects : decodeEp [0x3F000000, 9] = .reject .illegalOpcode 0x3F [9] ∧
    decodeEp [0x01010000] = .reject .reservedField 0x01 [] ∧
    decodeEp [0x11100000, 5, 9] = .reject .reservedField 0x11 [9] ∧
    decodeEp [0x11000001, 5, 9] = .reject .reservedField 0x11 [9] := ⟨rfl, rfl, rfl, rfl⟩

/-- An opcode-table row's bits reach the decoder in their order (log 15). -/
theorem test_table_words : decodeTableWord 32 0x22100000 = some (.enableLoop 1 0 0) ∧
    decodeTableWord 96 0x000000020000000622000000 = some (.enableLoop 0 6 2) ∧
    decodeTableWord 48 0x105000001F4 = some (.cpwGlitch 0x1F4) ∧ decodeTableWord 48 0x20000000000 = none := by
  decide

/-- Lines of text: the examples of R164 and R225, a negative operand, a range error, a head that is no number. -/
theorem test_assemble :
    assemble " Enable_Loop h0, 4, 6 ; a comment".toList = .instr (.enableLoop 0 4 6) ∧
    assemble "stage_delay_ms h0, 250".toList = .instr (.cpwDelay 0 0x800000FA) ∧
    assemble "shift_loop h0, -2".toList = .instr (.shiftLoop 0 0xFFFFFFFE) ∧
    assemble "cpw BIT_DEPTH, 7".toList = .instr (.cpwBitDepth 7) ∧ assemble "cpr 0x80".toList = .instr (.cpr 0x80 0) ∧
    assemble "write_block 70000".toList = .error ∧ assemble "read_block h16, 1".toList = .error ∧
    assemble "; nothing".toList = .blank := by decide +kernel

/-! ### The codec and the delay buffer -/

/-- Section 2.1. -/
theorem test_encode : (after (.encode 0x1234 8) fresh).resp = [0x00000012] := by decide
theorem test_encode_sign_extends : (after (.encode 0xFFFF 12) fresh).resp = [0x0000FFFF] := by decide
theorem test_decode_ignores_high_bits : (after (.decode 0xAB12 8) fresh).resp = [0x00001200] := by decide
theorem test_decode_negative : (after (.decode 8 4) fresh).resp = [0xFFFF8000] := by decide

/-- B3 with W = 2: the old content fades out over two samples. -/
theorem test_write_block_blends : content (after (.writeBlock 3)
    (feed [0, 0, 0] (after (.setWriteHead 2) ring))) = [0, 100, 200, 150, 0, 500, 600, 700] := by decide
/-- B7: n > N. -/
theorem test_write_block_wraps : content (after (.writeBlock 10) (feed [1, 2, 3, 4, 5, 6, 7, 8, 9, 10] fresh)) =
    [9, 10, 3, 4, 5, 6, 7, 8] := by decide
/-- E1: index -9 is slot 7. -/
theorem test_read_sample_wraps : (after (.readSample 0xFFFFFFF7) ring).resp = [700] := by decide
/-- B4. -/
theorem test_set_write_head : (after (.setWriteHead 0xFFFFFFFE) fresh).buf.wh = 6 ∧
    (after (.setWriteHead 0xFFFFFFFE) fresh).buf.wfade = 2 := by decide
/-- E7: after 16 bits read at 8, slot 2 j + 1 is the high byte of old slot j, slot 2 j the low one. -/
theorem test_set_bit_depth_reinterprets : ((content (after (.setBitDepth 8) ring)).drop 2).take 4 =
    [25600, 0, -14336, 0] := by decide
/-- B16: a loop that closes at the new slot count, and a head outside it. -/
theorem test_set_bit_depth_reopens_loop :
    let hd := head0 (after (.setBitDepth 16) (withHead { Head.reset with
      loopEn := true, loopStart := 1, loopEnd := 9, pos := 8 } (after (.setBitDepth 8) fresh)))
    (hd.loopStart, hd.loopEnd, hd.pos, hd.xrem) = (1, 0, 1, 0) := by decide
/-- B9. -/
theorem test_delay_from_ratio : (after (.delayFromRatio 0xFFFF) fresh).resp = [7] ∧
    (after (.delayFromRatio 0x2000) fresh).resp = [1] := by decide
/-- B11. -/
theorem test_delay_from_ms : (after (.delayFromMs 0) fresh).resp = [0] ∧
    (after (.delayFromMs 0xFFFFFFFF) fresh).resp = [7] := by decide

/-! ### The play heads -/

/-- P5: a jump of two slots fades. -/
theorem test_set_play_head_fades : head0 (after (.setPlayHead 0 2) ring) =
    { Head.reset with pos := 6, xrem := 2 } := by decide
/-- P2: a jump of one slot does not. -/
theorem test_set_play_head_near : head0 (after (.setPlayHead 0 1) ring) = { Head.reset with pos := 7 } := by
  decide
/-- P8. -/
theorem test_read_block_fades : head0 (after (.readBlock 0 4) (after (.setPlayHead 0 3) ring)) =
    { Head.reset with pos := 1, xpos := 2, out := [0, 350, 700, 0] } := by decide
/-- E4 (a), the first four samples: the first wrap fades. -/
theorem test_read_block_wraps : (head0 (after (.readBlock 0 4) (after (.enableLoop 0 6 2) ring))).out =
    [0, 100, 200, 500] := by decide
/-- The example of R164. -/
theorem test_enable_loop : head0 (after (.enableLoop 0 4 6) (withHead { Head.reset with pos := 1 } ring)) =
    { Head.reset with pos := 4, xpos := 1, xrem := 2, loopEn := true, loopStart := 4, loopEnd := 6 } := by
  decide
/-- An end equal to the start modulo N (R164). -/
theorem test_enable_loop_degenerate : head0 (after (.enableLoop 0 5 13) ring) =
    { Head.reset with pos := 0, loopEn := true, loopStart := 5, loopEnd := 4 } := by decide
/-- R166: nothing but LOOP_EN. -/
theorem test_disable_loop : head0 (after (.disableLoop 0) (after (.enableLoop 0 6 2) ring)) =
    { Head.reset with loopStart := 6, loopEnd := 2 } := by decide
/-- The example of R168. -/
theorem test_shift_loop : head0 (after (.shiftLoop 0 0xFFFFFFFE) (withHead { Head.reset with
    loopEn := true, loopStart := 4, loopEnd := 6, pos := 5 } ring)) =
    { Head.reset with loopEn := true, loopStart := 2, loopEnd := 4, pos := 3 } := by decide
theorem test_shift_loop_without_loop : head0 (after (.shiftLoop 0 3) ring) = Head.reset := by decide

/-! ### The callback -/

theorem test_nop : after .nop ring = ring := by decide
/-- Z4, the first block: a direct loop is left alone, the input is stored after the output is read. -/
theorem test_process_block_leaves_direct_loop :
    let t := after .processBlock (feed [1, 2] (after (.enableLoop 0 2 4) ring))
    (head0 t).out = [0, 200] ∧ (content t).take 3 = [1, 2, 200] ∧ t.ctl.cstate = .idle ∧ t.inq = [] := by
  decide
/-- C11 with N = 8: a freeze loops the window that trails the write head by the margin 3. -/
theorem test_process_block_freezes :
    let s := State.resetWith { small with loopMargin := 3 }
    let t := after .processBlock (feed [0, 0] ((s.setBuf { s.buf with wh := 4 }).setStg { s.stg with
      freeze := .on, loopSize := 0x4000 }))
    ((head0 t).loopStart, (head0 t).loopEnd, statusWord t.ctl, t.stg.freeze) = (7, 1, 1#32, .none) := by
  decide

/-! ### The control port (C13, X12 to X16) -/

theorem test_cpw_errstat : readValue 0x01 (after (.cpwErrstat 1) (after (.cpwRefused 0 1) fresh)) = 0 ∧
    readValue 0x01 (after (.cpwErrstat 0) (after (.cpwRefused 0 1) fresh)) = 0x41 := by decide
theorem test_cpw_bit_depth : readValue 0x02 (after (.cpwBitDepth 10) fresh) = 12 ∧
    readValue 0x02 (after (.cpwBitDepth 0xFFFFFFFF) fresh) = 16 := by decide
theorem test_cpw_loop_size : readValue 0x03 (after (.cpwLoopSize 0x12345678) fresh) = 0x5678 := by decide
theorem test_cpw_freeze : readValue 0x04 (after (.cpwFreeze 0) (after (.cpwFreeze 3) fresh)) = 3 := by
  decide
theorem test_cpw_glitch : readValue 0x05 (after (.cpwGlitch 0xFFFF0001) fresh) = 0x00010001 := by decide
theorem test_cpw_speed : readValue 0x06 (after (.cpwSpeed 0x12345) fresh) = 0x2345 := by decide
theorem test_cpw_delay : readValue 0x10 (after (.cpwDelay 0 0xFFFFFFFF) fresh) = 0x8000FFFF := by decide
theorem test_cpw_delay_beyond_heads : readValue 0x01 (after (.cpwDelay 1 7) fresh) = 0x1141 := by decide
theorem test_cpw_refused : readValue 0x01 (after (.cpwRefused 0x80 5) fresh) = 0x8041 := by decide
theorem test_cpr : (after (.cpr 0x02 0x4D) fresh).ports.cpOut = [0x10] ∧
    (after (.cpr 0x80 0) fresh).ports.cpOut = [0] := by decide

/-! ### The step -/

/-- X2 at the machine: the illegal word is one word long, and the command behind it runs. -/
theorem test_step_rejects_then_runs : readValue 0x01 (stepped (engine [0x02000000, 0x14008000] fresh)) = 0x211 ∧
    (stepped (engine [0x14008000] fresh)).resp = [4] := by decide
/-- X8: cause 2 before cause 3. X7: BAD_HEAD. -/
theorem test_step_priority : readValue 0x01 (stepped (engine [0x20120000, 3] fresh)) = 0x2021 ∧
    readValue 0x01 (stepped (engine [0x20100000, 3] fresh)) = 0x2031 := by decide
/-- Rows of the table run as the first instruction after reset; PROCESS_BLOCK finds its samples (log 4). -/
theorem test_fetch_word : (stepped (State.reset.withFetchWord 32 0x01000000)).buf.wh = 128 ∧
    (stepped (State.reset.withFetchWord 32 0x1400FFFF)).resp = [24999] ∧
    (stepped (State.reset.withFetchWord 32 0x12000000)).buf.wfade = 16 ∧
    (stepped (State.reset.withFetchWord 48 0x10400000003)).stg.freeze = .toggle := by decide +kernel

/-! ### Witnesses: the hypotheses of each statement, met together, at the boundaries of each clause -/

/-- What every statement about PROCESS_BLOCK asks of a state. -/
abbrev Ready (s : State) : Prop := Inv s ∧ s.cfg.blockSize ≤ s.inq.length

/-- The controller and the requests of a state. -/
abbrev Between (s : State) (c : CtlState) (m : CtlMode) (r : FreezeReq) (pending : Bool) (u : Nat) : Prop :=
  Ready s ∧ s.ctl.cstate = c ∧ s.ctl.cmode = m ∧ s.stg.freeze = r ∧ s.stg.glitchPending = pending ∧ s.ctl.updates = u

/-- The ring with exactly one block in IN. -/
def block : State := feed [1, 2] ring

/-- The controller ACTIVE. -/
def running (m : CtlMode) (updates : Nat) (s : State) : State :=
  s.setCtl { s.ctl with cstate := .active, cmode := m, updates := updates }

/-- Requests staged: FREEZE.REQ, GLITCH.PENDING; DURATION_MS is 0, which makes U = 1. -/
def asked (r : FreezeReq) (pending : Bool) (s : State) : State :=
  s.setStg { s.stg with freeze := r, glitchPending := pending }

/-- A head that loops over slots 6, 7, 0, 1, past its first wrap. -/
def looping (pos : Nat) : Head :=
  { Head.reset with pos := pos, loopEn := true, loopStart := 6, loopEnd := 2, xfDone := true }

/-- One block in IN, the head looping, and a shift cadence of two callbacks. -/
def shifting (period timer : Nat) : State :=
  let s := feed [1, 2] (withHead (looping 6) (State.resetWith
    { small with shiftPeriod := period, shiftSamples := 3, shiftReverseEvery := 2 }))
  running .glitch 2 (s.setCtl { s.ctl with shiftTimer := timer, shiftCount := 1 })

theorem witness_DecodingAnEncodedInstructionReturnsIt : Instr.nop.wf = true ∧ (Instr.cpwRefused 0x00 0).wf = true ∧
    (Instr.cpwRefused 0x07 0).wf = true ∧ (Instr.cpwRefused 0x0F 0).wf = true ∧
    (Instr.cpwRefused 0x20 0).wf = true ∧ (Instr.cpwRefused 0xFF 0).wf = true := by decide

theorem witness_EncodingADecodedInstructionReturnsItsWords :
    decodeEp [0x22F00000, 6, 2, 7] = .instr (.enableLoop 15 6 2) [7] := rfl

theorem witness_MalformedCommandIsRecordedAndConsumed :
    let ready : List Word → Prop := fun ws => (engine ws fresh).cfg.Legal ∧
      (engine ws fresh).ports.sched = [.engine] ∧ (engine ws fresh).ports.ep = ws
    let opc : Word → BitVec 8 := fun header => header.extractLsb' 24 8
    (ready [0x02000000, 5] ∧ ∀ row ∈ commandMap, row.opc ≠ opc 0x02000000) ∧
    (ready [0x25000000] ∧ ∀ row ∈ commandMap, row.opc ≠ opc 0x25000000) ∧
    (ready [0x11000001, 5] ∧ ∃ row ∈ commandMap, row.opc = opc 0x11000001 ∧ row.words - 1 = [(5 : Word)].length ∧
      row.reservedUsed 0x11000001) ∧
    (ready [0x22100000, 6, 2] ∧ ∃ row ∈ commandMap, row.opc = opc 0x22100000 ∧
      row.words - 1 = [(6 : Word), 2].length ∧ ¬row.reservedUsed 0x22100000 ∧ row.usesHead = true ∧
      fresh.cfg.numHeads = ((0x22100000 : Word).extractLsb' 20 4).toNat) := by
  intro ready opc; and_intros <;> first | rfl | decide

theorem witness_EveryUnreservedHeaderIsACommand : ∃ row ∈ commandMap,
    row.opc = (0x21F0FFFF : Word).extractLsb' 24 8 ∧ row.words - 1 = ([] : List Word).length ∧
      ¬row.reservedUsed 0x21F0FFFF := by decide

/-- PROCESS_BLOCK with exactly B samples in IN, WRITE_BLOCK with exactly n, and a command that needs none. -/
theorem witness_StepRunsTheDecodedCommand : fresh.cfg.Legal ∧
    (engine [0x01000000] block).ports.sched = [.engine] ∧
    decodeEp (engine [0x01000000] block).ports.ep = .instr .processBlock [] ∧
    inputNeeded block.cfg .processBlock = block.inq.length ∧
    decodeEp (engine [0x10000002, 7] block).ports.ep = .instr (.writeBlock 2) [7] ∧
    inputNeeded block.cfg (.writeBlock 2) = block.inq.length ∧
    inputNeeded block.cfg .nop ≤ fresh.inq.length := by
  and_intros <;> first | rfl | decide

theorem witness_StepRunsTheOldestTransaction : (control 0x10400000003 fresh).cfg.Legal ∧
    (control 0x10400000003 fresh).ports.sched = [.control] ∧
    (control 0x10400000003 fresh).ports.cp = [0x10400000003] := by decide

/-- One sample short, for each of the two commands. -/
theorem witness_InputHoldLeavesTheCommandWaiting : (engine [0x01000000] (feed [1] ring)).cfg.Legal ∧
    (engine [0x01000000] (feed [1] ring)).ports.sched = [.engine] ∧
    decodeEp (engine [0x01000000] (feed [1] ring)).ports.ep = .instr .processBlock [] ∧
    (feed [1] ring).inq.length + 1 = inputNeeded ring.cfg .processBlock ∧
    decodeEp (engine [0x10000003] block).ports.ep = .instr (.writeBlock 3) [] ∧
    block.inq.length + 1 = inputNeeded ring.cfg (.writeBlock 3) ∧ block.inq.length < (3 : BitVec 16).toNat ∧
    (feed [1] ring).inq.length < ring.cfg.blockSize := by
  and_intros <;> first | rfl | decide

/-- No word, and ENABLE_LOOP without its last one. -/
theorem witness_EngineWaitsForTheWordsOfACommand : (engine [] fresh).cfg.Legal ∧
    (engine [] fresh).ports.sched = [.engine] ∧ (engine [] fresh).ports.ep = [] ∧
    (engine [0x22000000, 6] fresh).ports.ep = [0x22000000, 6] ∧ ∃ row ∈ commandMap,
      row.opc = (0x22000000 : Word).extractLsb' 24 8 ∧ [(6 : Word)].length + 1 = row.words - 1 := by decide

/-- The least capacity, and one byte less. -/
theorem witness_EveryLegalStepHasANextState : (State.resetWith { small with capacity := 4 }).cfg.Legal ∧
    ¬(State.resetWith { small with capacity := 3 }).cfg.Legal := by decide

theorem witness_NoStepChangesTheParameters : step block = .next (stepped block) := rfl

theorem witness_HostMovesStreamsOnly : ∀ a ∈ [HostAction.supply 5, .takeOut 0, .takeOut 15, .takeResp],
    (host a block).cfg.Legal ∧ (host a block).ports.sched = [.host] ∧ (host a block).ports.host = [a] := by decide

theorem witness_ResetInputGivesTheResetState : (host .assertReset block).cfg.Legal ∧
    (host .assertReset block).ports.sched = [.host] ∧ (host .assertReset block).ports.host = [.assertReset] := by
  decide

theorem witness_ResetStateSatisfiesTheInvariant : ({ small with capacity := 4 } : Config).Legal ∧
    Config.reference.Legal := by decide

theorem witness_EveryStepKeepsTheInvariant : Inv (engine [0x01000000] block) ∧
    step (engine [0x01000000] block) = .next (stepped (engine [0x01000000] block)) :=
  ⟨by constructor <;> decide, rfl⟩

theorem witness_InvariantFitsTheRegisterWidths : Inv (shifting 2 1) ∧ ∃ hd, hd ∈ (shifting 2 1).heads :=
  ⟨by constructor <;> decide, looping 6, by decide⟩

theorem witness_QuantizationClearsTheLowBits : (0xFFFF : Sample).toInt ≤ (0 : Sample).toInt := by decide

/-- r at both ends of its range; both directions of the monotonicity clause. -/
theorem witness_BlendIsExactConvexAndMonotonic : small.Legal ∧ 1 ≤ small.fadeWindow ∧ (1 : Nat) ≤ 1 ∧
    (0x8000 : Sample).toInt ≤ (0x7FFF : Sample).toInt := by decide

/-- The least and the greatest count. -/
theorem witness_WriteBlockStoresSampleBySample : block.inq = 1 :: [2] ∧ 1 ≤ [(2 : Sample)].length ∧
    65534 + 1 < 65536 ∧ (feed (3 :: List.replicate 65534 4) ring).inq = 3 :: List.replicate 65534 4 ∧
    65534 ≤ (List.replicate 65534 (4 : Sample)).length :=
  ⟨rfl, by decide, by decide, rfl, by rw [List.length_replicate]⟩

/-- n = N, and n = 3, where slot 7 is not written; a write fade of two samples. -/
theorem witness_WriteBlockFillsItsSlots :
    let s := after (.setWriteHead 2) (feed [1, 2, 3, 4, 5, 6, 7, 8] ring)
    s.cfg.Legal ∧ BufferInv s.cfg s.buf ∧ (8 : BitVec 16).toNat = s.slots ∧ (8 : BitVec 16).toNat = s.inq.length ∧
      s.buf.wfade = 2 ∧ ∀ j, j < (3 : BitVec 16).toNat → (s.buf.wh + j) % s.slots ≠ 7 := by decide

/-- Twice round the ring; and a byte next to the slot that one sample is stored in. -/
theorem witness_WriteBlockChangesOnlyItsSlots :
    let s := feed (List.replicate 16 9) ring
    s.buf.wh < s.slots ∧ (16 : BitVec 16).toNat = s.inq.length ∧
      ∀ j, j < (1 : BitVec 16).toNat → (2 < s.buf.slotAddr s.cfg ((s.buf.wh + j) % s.slots) ∨
        s.buf.slotAddr s.cfg ((s.buf.wh + j) % s.slots) + s.buf.depth.bps ≤ 2) := by decide

theorem witness_ReadSampleRespondsWithTheWrappedSlot :
    (0xFFFFFFF7 : BitVec 32).toInt = (7 : BitVec 32).toInt + (-2) * ring.slots := by decide

/-- 14 is the least depth number that clamps to 16. -/
theorem witness_SetBitDepthRewrapsEveryPosition : clampDepth (14 : BitVec 16).toNat = ring.buf.depth ∧
    clampDepth (13 : BitVec 16).toNat ≠ ring.buf.depth := by decide

theorem witness_DepthChangeReinterpretsTheBytes :
    let s := after (.setBitDepth 8) ring
    ring.cfg.Legal ∧ exec (.setBitDepth 8) ring = .next s ∧ ring.buf.depth.bps = 2 ∧ s.buf.depth.bps = 1 ∧
      7 < ring.slots ∧ s.cfg.Legal ∧ exec (.setBitDepth 16) s = .next (after (.setBitDepth 16) s) ∧
      (after (.setBitDepth 16) s).buf.depth.bps = 2 ∧ 7 < (after (.setBitDepth 16) s).slots := by
  intro s; and_intros <;> first | rfl | decide

/-- The last head there is, and the first there is not. -/
abbrev HeadClauses : Prop := (0 : BitVec 4).toNat + 1 = ring.cfg.numHeads ∧ ring.cfg.numHeads = (1 : BitVec 4).toNat

theorem witness_SetPlayHeadRetargetsUnlessLooping : HeadClauses := by decide
theorem witness_EnableLoopSetsTheRegionAndEntersIt : HeadClauses := by decide
theorem witness_DisableLoopClearsLoopEnOnly : HeadClauses := by decide
theorem witness_ShiftLoopMovesTheLoopWithItsHead : HeadClauses := by decide
theorem witness_DelayWriteStagesItsHead : HeadClauses := by decide
theorem witness_ReadBlockPlaysSampleBySample : HeadClauses ∧ 65534 + 1 < 65536 := by decide

/-- A fade of W samples at the last slot of both streams. -/
theorem witness_ReadBlockFadesThenFollowsTheIncomingStream :
    let hd : Head := { Head.reset with pos := 7, xpos := 7, xrem := 2 }
    (0 : BitVec 4).toNat < (withHead hd ring).cfg.numHeads ∧
      (withHead hd ring).heads[(0 : BitVec 4).toNat]? = some hd ∧ hd.loopEn = false ∧
      hd.pos + 1 = (withHead hd ring).slots ∧ hd.xpos + 1 = (withHead hd ring).slots := by decide

/-- The first and the last slot of the region. -/
theorem witness_LoopingHeadRepeatsItsRegion : ∀ p ∈ [6, 1],
    (0 : BitVec 4).toNat < (withHead (looping p) ring).cfg.numHeads ∧
      (withHead (looping p) ring).heads[(0 : BitVec 4).toNat]? = some (looping p) ∧
      HeadInv small (withHead (looping p) ring).slots (looping p) ∧ (looping p).loopEn = true ∧
      (looping p).xfDone = true ∧ (looping p).xrem = 0 := by decide

theorem witness_ReadBlockChangesOnlyItsHead : (0 : BitVec 4).toNat < (withHead (looping 6) ring).cfg.numHeads ∧
    (withHead (looping 6) ring).heads[(0 : BitVec 4).toNat]? = some (looping 6) ∧
    (looping 6).xfDone = true := by decide

theorem witness_NopChangesNothing : (0x00100000 : Word).extractLsb' 24 8 = 0x00#8 ∧ (0x00100000 : Word) ≠ 0 ∧
    (0x00000001 : Word).extractLsb' 24 8 = 0x00#8 ∧ (0x00000001 : Word) ≠ 0 := by decide

/-- At WH = 0 the stored slots are bytes 0 to 3: bytes 4 and 15 are outside; at WH = 7 the second slot wraps, and bytes
2 and 13 are outside. -/
theorem witness_ProcessBlockTakesAndMakesOneBlock :
    ∀ q ∈ [(0, 4, 15), (7, 2, 13)],
      let s := block.setBuf { block.buf with wh := q.1 }
      let outside := fun a => ∀ j, j < s.cfg.blockSize →
        a < s.buf.slotAddr s.cfg ((q.1 + j) % s.slots) ∨ s.buf.slotAddr s.cfg ((q.1 + j) % s.slots) + 2 ≤ a
      Ready s ∧ s.stg.bitDepth = s.buf.depth ∧ s.buf.wh % s.slots = q.1 ∧ s.heads[0]? = some Head.reset ∧
        outside q.2.1 ∧ outside q.2.2 := by
  simp only [List.mem_cons, List.not_mem_nil, or_false]
  rintro q (rfl | rfl) <;> exact ⟨⟨by constructor <;> decide, by decide⟩, by decide⟩

/-- One state for each of the eleven clauses, in their order; a running glitch that goes on with P = 0, with the timer
at 2 and at 1 by countdown, and at 1 by a retrigger in its last callback. -/
theorem witness_ProcessBlockRunsTheCommandsOfItsSteps :
    let idle := fun r p => asked r p block
    let glitch := fun r p u => asked r p (running .glitch u block)
    let frozen := fun r p => asked r p (running .freeze 0 block)
    Between (idle .toggle true) .idle .glitch .toggle true 0 ∧ Between (idle .off true) .idle .glitch .off true 0 ∧
    Between (idle .none false) .idle .glitch .none false 0 ∧
    Between (glitch .on true 1) .active .glitch .on true 1 ∧
    Between (glitch .off false 1) .active .glitch .off false 1 ∧
    (∀ q ∈ [(0, 0), (2, 2), (2, 1)], Between (shifting q.1 q.2) .active .glitch .none false 2 ∧
      (shifting q.1 q.2).cfg.shiftPeriod = q.1 ∧ (shifting q.1 q.2).ctl.shiftTimer = q.2) ∧
    Between (asked .off true (running .glitch 1 (shifting 2 1))) .active .glitch .off true 1 ∧
    Between (frozen .toggle true) .active .freeze .toggle true 0 ∧
    Between (frozen .off false) .active .freeze .off false 0 ∧
    Between (frozen .none true) .active .freeze .none true 0 := by
  refine ⟨?_, ?_, ?_, ?_, ?_, ?_, ?_, ?_, ?_, ?_⟩
  case refine_6 =>
    simp only [List.mem_cons, List.not_mem_nil, or_false]
    rintro q (rfl | rfl | rfl) <;> exact ⟨⟨⟨by constructor <;> decide, by decide⟩, by decide⟩, by decide⟩
  all_goals exact ⟨⟨by constructor <;> decide, by decide⟩, by decide⟩

/-- Both modes of a staged delay, with another depth staged. -/
theorem witness_ProcessBlockAppliesTheStagedValues :
    ∀ d ∈ [DelayReg.mk false 0xFFFF, DelayReg.mk true 1],
      let s := block.setStg { block.stg with bitDepth := .d8, delays := [d] }
      Ready s ∧ s.heads[0]? = some Head.reset ∧ s.stg.delays[0]? = some d := by
  simp only [List.mem_cons, List.not_mem_nil, or_false]
  rintro d (rfl | rfl) <;> exact ⟨⟨by constructor <;> decide, by decide⟩, by decide⟩

/-- One state for each of the ten clauses, in their order. -/
theorem witness_ProcessBlockMovesTheController :
    let idle := fun r p => asked r p block
    let glitch := fun r p u => asked r p (running .glitch u block)
    let frozen := fun r p => asked r p (running .freeze 0 block)
    Between (idle .on true) .idle .glitch .on true 0 ∧ Between (idle .off true) .idle .glitch .off true 0 ∧
    Between (idle .off false) .idle .glitch .off false 0 ∧
    Between (glitch .toggle true 1) .active .glitch .toggle true 1 ∧
    Between (glitch .off true 1) .active .glitch .off true 1 ∧
    Between (glitch .off false 2) .active .glitch .off false 2 ∧
    Between (glitch .off false 1) .active .glitch .off false 1 ∧
    Between (frozen .toggle true) .active .freeze .toggle true 0 ∧
    Between (frozen .toggle false) .active .freeze .toggle false 0 ∧
    Between (frozen .on true) .active .freeze .on true 0 := by
  refine ⟨?_, ?_, ?_, ?_, ?_, ?_, ?_, ?_, ?_, ?_⟩ <;>
    exact ⟨⟨by constructor <;> decide, by decide⟩, by decide⟩

/-- A start from IDLE by each request, and a glitch that takes over from a released freeze. -/
theorem witness_ActivationLoopsEveryHeadBehindTheWriteHead :
    Between (asked .on false block) .idle .glitch .on false 0 ∧
    Between (asked .toggle false block) .idle .glitch .toggle false 0 ∧
    Between (asked .none true block) .idle .glitch .none true 0 ∧
    Between (asked .off true (running .freeze 0 block)) .active .freeze .off true 0 ∧
    Between (asked .toggle true (running .freeze 0 block)) .active .freeze .toggle true 0 := by
  refine ⟨?_, ?_, ?_, ?_, ?_⟩ <;> exact ⟨⟨by constructor <;> decide, by decide⟩, by decide⟩

theorem witness_ReleasedHeadsReturnToTheirDelay :
    let s := running .glitch 1 (withHead (looping 6) block)
    Ready s ∧ exec .processBlock s = .next (after .processBlock s) ∧ s.ctl.cstate = .active ∧
      (after .processBlock s).ctl.cstate = .idle ∧ ∃ hd ∈ (after .processBlock s).heads, hd.loopEn = false :=
  ⟨⟨by constructor <;> decide, by decide⟩, rfl, by decide⟩

theorem witness_FreezeHoldsItsLoop : ∀ r ∈ [FreezeReq.none, .on],
    let s := asked r true (running .freeze 0 (withHead (looping 6) block))
    Ready s ∧ s.ctl.cstate = .active ∧ s.ctl.cmode = .freeze ∧ s.stg.freeze = r ∧
      s.stg.bitDepth = s.buf.depth := by
  simp only [List.mem_cons, List.not_mem_nil, or_false]
  rintro r (rfl | rfl) <;> exact ⟨⟨by constructor <;> decide, by decide⟩, by decide⟩

/-- P = 0; P = 2 with the timer at 2 and at 1, where the direction reverses too: each with two callbacks left and no
request; with OFF; and with OFF, a retrigger in the last callback, and another depth staged. -/
theorem witness_GlitchShiftsItsLoopInCadence : ∀ q ∈ [(0, 0), (2, 2), (2, 1)],
    let s := shifting q.1 q.2
    let last := asked .off true (running .glitch 1 s)
    (∀ t ∈ [s, asked .off false s, last.setStg { last.stg with bitDepth := .d8 }],
      Ready t ∧ t.ctl.cstate = .active ∧ t.ctl.cmode = .glitch ∧ (t.stg.freeze = .none ∨ t.stg.freeze = .off) ∧
        (2 ≤ t.ctl.updates ∨ t.stg.glitchPending = true) ∧ t.cfg.shiftPeriod = q.1 ∧ t.ctl.shiftTimer = q.2 ∧
        t.ctl.shiftCount + 1 = t.cfg.shiftReverseEvery) := by
  simp only [List.mem_cons, List.not_mem_nil, or_false]
  rintro q (rfl | rfl | rfl) t (rfl | rfl | rfl) <;> exact ⟨⟨by constructor <;> decide, by decide⟩, by decide⟩

/-- From IDLE with CMODE still FREEZE, and again while a glitch runs; U = 1 and two blocks in IN. -/
theorem witness_TimedGlitchLastsExactlyItsCallbacks :
    let s := asked .none true (feed [1, 2, 3, 4] ring)
    let a := s.setCtl { s.ctl with cmode := .freeze }
    let b := running .glitch 3 s
    (Inv a ∧ a.ctl.cstate = .idle) ∧ (Inv b ∧ b.ctl.cmode = .glitch) ∧ s.stg.freeze = .none ∧
      s.stg.glitchPending = true ∧
      (max 1 (s.stg.glitchMs.toNat * s.cfg.sampleRate / (1000 * s.cfg.blockSize)) + 1) * s.cfg.blockSize =
        s.inq.length :=
  ⟨⟨by constructor <;> decide, by decide⟩, ⟨by constructor <;> decide, by decide⟩, by decide⟩

/-- The least delay (B) as a ratio, and the greatest (N - 1) in milliseconds; two callbacks. -/
theorem witness_DelayLineReturnsTheInputDelayed :
    ∀ q ∈ [(DelayReg.mk false 0x4000, 2), (DelayReg.mk true 1, 7)],
      let hd : Head := { Head.reset with pos := 8 - q.2 }
      let s := feed [1, 2, 3, 4] (withHead hd (ring.setStg { ring.stg with delays := [q.1] }))
      Inv s ∧ s.heads[0]? = some hd ∧ s.stg.delays[0]? = some q.1 ∧ s.ctl.cstate = .idle ∧ s.stg.freeze = .none ∧
        s.stg.glitchPending = false ∧ s.buf.depth = .d16 ∧ s.stg.bitDepth = .d16 ∧ s.buf.wfade = 0 ∧
        hd.xrem = 0 ∧ hd.loopEn = false ∧
        (if q.1.ms = true then min (q.1.value.toNat * s.cfg.sampleRate / 1000) (s.slots - 1)
          else min (q.1.value.toNat * s.slots / 65536) (s.slots - 1)) = q.2 ∧
        s.cfg.blockSize ≤ q.2 ∧ hd.pos = wrap ((s.buf.wh : Int) - q.2) s.slots ∧
        2 * s.cfg.blockSize = s.inq.length := by
  simp only [List.mem_cons, List.not_mem_nil, or_false]
  rintro q (rfl | rfl) <;> exact ⟨by constructor <;> decide, by decide⟩

/-- The clauses meet at the addresses 0x06, 0x07, 0x0F, 0x10 + h and 0x20. -/
theorem witness_RefusedWriteIsRecordedOnly :
    (7 ≤ (0x07 : BitVec 8).toNat ∧ (0x0F : BitVec 8).toNat < 16 ∧ 32 ≤ (0x20 : BitVec 8).toNat) ∧
    fresh.cfg.numHeads = (1 : BitVec 4).toNat ∧
    (∀ i ∈ [Instr.cpwErrstat 2, .cpwSpeed 1, .cpwDelay 0 7, .cpr 0x80 0], onEnginePort i = false ∧
      exec i fresh = .next (after i fresh)) ∧
    (∀ a d, Instr.cpwDelay 0 7 ≠ .cpwRefused a d) ∧
    (∀ h d, Instr.cpwDelay 0 7 = .cpwDelay h d → h.toNat < fresh.cfg.numHeads) := by
  refine ⟨by decide, by decide, ?_, ?_, ?_⟩
  · simp only [List.mem_cons, List.not_mem_nil, or_false]
    rintro i (rfl | rfl | rfl | rfl) <;> exact ⟨rfl, rfl⟩
  · rintro a d ⟨⟩
  · rintro h d ⟨⟩
    decide

theorem witness_ControlPortNeverTouchesLiveState : onEnginePort (.cpwGlitch 1) = false ∧
    exec (.cpwGlitch 1) block = .next (after (.cpwGlitch 1) block) := ⟨rfl, rfl⟩

theorem witness_EngineCommandsIgnoreStaging : onEnginePort (.writeBlock 2) = true ∧
    Instr.writeBlock 2 ≠ .processBlock ∧ exec (.writeBlock 2) block = .next (after (.writeBlock 2) block) :=
  ⟨rfl, by decide, rfl⟩

theorem witness_SpeedHasNoEffect : (∀ d, Instr.processBlock ≠ .cpwSpeed d) ∧
    (∀ d, Instr.processBlock ≠ .cpr 0x06 d) ∧ (∀ d, Instr.cpr 0x05 0 ≠ .cpr 0x06 d) ∧
    exec .processBlock block = .next (after .processBlock block) := by
  and_intros
  · rintro d ⟨⟩
  · rintro d ⟨⟩
  · intro d h
    simp at h
  · rfl

/-- An error recorded, then another and a clearing; no error recorded, then one. -/
theorem witness_FirstErrorIsKeptUntilCleared :
    let s := after (.cpwRefused 0 1) fresh
    s.err.err = true ∧ exec (.readBlock 1 2) s = .next (after (.readBlock 1 2) s) ∧
      exec (.cpwErrstat 1) s = .next (after (.cpwErrstat 1) s) ∧ fresh.err.err = false ∧
      exec (.cpwRefused 0 1) fresh = .next s ∧ s.err.err = true := ⟨rfl, rfl, rfl, rfl, rfl, rfl⟩

end Sys2Proof.Tests
end

section
/-! The sample codec and its two commands (40_codec.md R100 to R106). -/

namespace Sys2Proof.Machine

/-! ### Depths -/

/-- The depth of a number of bits has that many bits, where the number is a supported one. -/
theorem depthOfBits_bits {q : Nat} (h1 : 1 ≤ q) (h4 : q ≤ 4) : (depthOfBits (4 * q)).bits = 4 * q := by
  interval_cases q <;> rfl

/-- The clamped depth by the formula of R100. -/
theorem bits_clampDepth (r : Nat) : (clampDepth r).bits = 4 * ((clamp r 4 16 + 2) / 4) :=
  depthOfBits_bits (by unfold clamp; omega) (by unfold clamp; omega)

/-- The clamped depth by the table of R100. -/
theorem bits_clampDepth_eq_table (r : Nat) :
    (clampDepth r).bits = if r ≤ 5 then 4 else if r ≤ 9 then 8 else if r ≤ 13 then 12 else 16 := by
  rw [bits_clampDepth, clamp]
  split_ifs <;> omega

/-- The supported depths (R100). -/
theorem exists_depth_bits_iff {b : Nat} : (∃ d : Depth, d.bits = b) ↔ b = 4 ∨ b = 8 ∨ b = 12 ∨ b = 16 := by
  constructor
  · rintro ⟨d, rfl⟩
    cases d <;> decide
  · rintro (rfl | rfl | rfl | rfl)
    exacts [⟨.d4, rfl⟩, ⟨.d8, rfl⟩, ⟨.d12, rfl⟩, ⟨.d16, rfl⟩]

theorem Depth.four_dvd_bits (d : Depth) : 4 ∣ d.bits := by cases d <;> decide

/-- No multiple of four is nearer to `c` than the one the formula of R100 rounds it to. -/
theorem abs_sub_round_le (c : Nat) {m : Nat} (hm : 4 ∣ m) :
    |(c : Int) - (4 * ((c + 2) / 4) : Nat)| ≤ |(c : Int) - m| := by
  rw [abs_le', le_abs, le_abs]
  omega

/-- No supported depth is nearer to the clamped request than the clamped depth (R100). -/
theorem abs_sub_clampDepth_le (r : Nat) (d : Depth) :
    |(clamp r 4 16 : Int) - (clampDepth r).bits| ≤ |(clamp r 4 16 : Int) - d.bits| := by
  rw [bits_clampDepth]
  exact abs_sub_round_le _ d.four_dvd_bits

/-! ### Decode -/

/-- Decode is exact: the scaled code fits a sample (R103). -/
theorem toInt_decodeSample (v : Nat) (d : Depth) :
    (decodeSample v d).toInt = (BitVec.ofNat d.bits v).toInt * 2 ^ (16 - d.bits) := by
  have hpow : (2 : Int) ^ d.bits * 2 ^ (16 - d.bits) = 2 ^ 16 := by
    rw [← pow_add, Nat.add_sub_cancel' d.bits_le]
  have hscale : (0 : Int) < 2 ^ (16 - d.bits) := by positivity
  have hlo := mul_le_mul_of_nonneg_right (BitVec.le_two_mul_toInt (x := BitVec.ofNat d.bits v)) hscale.le
  have hhi := mul_lt_mul_of_pos_right (BitVec.two_mul_toInt_lt (x := BitVec.ofNat d.bits v)) hscale
  rw [neg_mul, hpow, mul_assoc] at hlo
  rw [hpow, mul_assoc] at hhi
  rw [decodeSample, BitVec.toInt_ofInt]
  exact Int.bmod_eq_of_le_mul_two (by omega) (by omega)

/-- The two's complement value of the low `w` bits of a number. -/
theorem toInt_ofNat_eq_ite (w v : Nat) :
    (BitVec.ofNat w v).toInt =
      if 2 * (v % 2 ^ w) < 2 ^ w then ((v % 2 ^ w : Nat) : Int) else ((v % 2 ^ w : Nat) : Int) - 2 ^ w := by
  rw [BitVec.toInt_eq_toNat_cond, BitVec.toNat_ofNat]
  norm_cast

/-- A decoded sample is the two's complement value of the low d bits, scaled (R103). -/
theorem toInt_decodeSample_eq_ite (v : Nat) (d : Depth) :
    (decodeSample v d).toInt =
      (if 2 * (v % 2 ^ d.bits) < 2 ^ d.bits then ((v % 2 ^ d.bits : Nat) : Int)
        else ((v % 2 ^ d.bits : Nat) : Int) - 2 ^ d.bits) * 2 ^ (16 - d.bits) := by
  rw [toInt_decodeSample, toInt_ofNat_eq_ite]

/-- The discarded low bits of a decoded sample are zero (R103). -/
theorem dvd_toNat_decodeSample (v : Nat) (d : Depth) : 2 ^ (16 - d.bits) ∣ (decodeSample v d).toNat := by
  have hscale : (2 : Int) ^ (16 - d.bits) ∣ 2 ^ 16 := pow_dvd_pow 2 (Nat.sub_le _ _)
  have hint : (2 : Int) ^ (16 - d.bits) ∣ (decodeSample v d).toInt := by
    rw [toInt_decodeSample]
    exact dvd_mul_left _ _
  have hnat : (2 : Int) ^ (16 - d.bits) ∣ ((decodeSample v d).toNat : Int) := by
    rw [BitVec.toInt_eq_toNat_cond] at hint
    split at hint
    · exact hint
    · exact (dvd_sub_left hscale).mp hint
  exact_mod_cast hnat

/-- Decode ignores the bits above d - 1 (R103). -/
theorem decodeSample_mod (v : Nat) (d : Depth) : decodeSample (v % 2 ^ d.bits) d = decodeSample v d := by
  have h : BitVec.ofNat d.bits (v % 2 ^ d.bits) = BitVec.ofNat d.bits v :=
    BitVec.eq_of_toNat_eq (by simp)
  rw [decodeSample, h, decodeSample]

/-! ### The response words and the two commands -/

/-- A number that is not negative, as a response word (R84). -/
theorem zext32_toNat {z : Int} (h : 0 ≤ z) : zext32 z.toNat = BitVec.ofInt 32 z := by
  rw [zext32, ← BitVec.ofInt_natCast, Int.toNat_of_nonneg h]

/-- A sample as a response word is its value (R84). -/
theorem sext32_eq_ofInt (x : Sample) : sext32 x = BitVec.ofInt 32 x.toInt := rfl

/-- ENCODE's response word (R102, R105). -/
theorem zext32_encodeSample (x : Sample) (d : Depth) :
    zext32 (encodeSample x d) =
      BitVec.ofInt 32 (x.toInt / 2 ^ (16 - d.bits) % 2 ^ (8 * ((d.bits + 7) / 8))) :=
  zext32_toNat (Int.emod_nonneg _ (by positivity))

/-- ENCODE appends one word to RESP and does nothing else (R105). -/
theorem exec_encode (x : BitVec 16) (r : BitVec 32) (s : State) :
    exec (.encode x r) s =
      .next { s with resp := s.resp ++ [zext32 (encodeSample x (clampDepth r.toNat))] } := rfl

/-- DECODE appends one word to RESP and does nothing else (R106). -/
theorem exec_decode (v : BitVec 16) (r : BitVec 32) (s : State) :
    exec (.decode v r) s =
      .next { s with resp := s.resp ++ [sext32 (decodeSample v.toNat (clampDepth r.toNat))] } := rfl

/-! ### The obligations -/

/-- Settles O19: a supported depth is a multiple of four, and the formula rounds to the nearest one. -/
theorem clampDepthIsNearestSupportedDepth : Obligations.ClampDepthIsNearestSupportedDepth := by
  refine ⟨fun r => ⟨bits_clampDepth r, bits_clampDepth_eq_table r, fun d => ?_⟩,
    fun b => exists_depth_bits_iff, rfl, rfl, rfl, rfl⟩
  obtain ⟨hbelow, habove⟩ := abs_le'.mp (abs_sub_clampDepth_le r d)
  exact ⟨hbelow, by rwa [neg_sub] at habove⟩

/-- Settles O21, from the three facts about Decode: its value, its zero low bits, its unread high bits. -/
theorem decodeIsExactAndIgnoresHighBits : Obligations.DecodeIsExactAndIgnoresHighBits := fun v d =>
  ⟨toInt_decodeSample_eq_ite v d, Nat.mod_eq_zero_of_dvd (dvd_toNat_decodeSample v d), decodeSample_mod v d⟩

/-- Settles O22: the response word at the clamped depth, whose bits are the formula of R100. -/
theorem encodeRespondsWithTheStoredCode : Obligations.EncodeRespondsWithTheStoredCode := by
  refine fun x r s => ⟨rfl, ?_⟩
  rw [exec_encode, zext32_encodeSample, bits_clampDepth]
  rfl

/-- Settles O23: the decoded value at the clamped depth, sign-extended. -/
theorem decodeRespondsWithTheSample : Obligations.DecodeRespondsWithTheSample := by
  refine fun v r s => ⟨rfl, ?_⟩
  rw [exec_decode, sext32_eq_ofInt, toInt_decodeSample_eq_ite, bits_clampDepth]
  rfl

end Sys2Proof.Machine
end

section
/-! The delay-buffer commands (41_delay_buffer.md R125 to R137). -/

namespace Sys2Proof.Machine

/-! ### WRITE_BLOCK -/

/-- A write fade that is not running has nothing left to count down (R125). -/
theorem sub_one_eq_ite (w : Nat) : w - 1 = if 0 < w then w - 1 else 0 := by
  split <;> omega

/-- One turn of WRITE_BLOCK's loop, in the words of R125. -/
theorem writeSample_eq (c : Config) (b : Buffer) (x : Sample) :
    writeSample c b x =
      { slotWrite c b b.wh (if 0 < b.wfade then blend c (slotRead c b b.wh) x b.wfade else x) with
        wh := (b.wh + 1) % b.slots c
        wfade := if 0 < b.wfade then b.wfade - 1 else 0 } := by
  rw [← sub_one_eq_ite]
  rfl

/-- A block of no samples changes nothing. -/
theorem writeBlock_zero (s : State) : writeBlock 0 s = s := rfl

/-- A block writes its oldest sample, then the rest of it (R125). -/
theorem writeBlock_succ {s : State} {x : Sample} {xs : List Sample} (h : s.inq = x :: xs) (n : Nat) :
    writeBlock (n + 1) s = writeBlock n ((s.setBuf (writeSample s.cfg s.buf x)).setInq xs) := by
  ext1 <;> simp [h]

/-- WRITE_BLOCK with a count that fits its field and its samples in IN (R125). -/
theorem exec_writeBlock_ofNat {s : State} {n : Nat} (hn : n < 65536) (h : n ≤ s.inq.length) :
    exec (.writeBlock (BitVec.ofNat 16 n)) s = .next (writeBlock n s) := by
  have hcount : (BitVec.ofNat 16 n).toNat = n := by rw [BitVec.toNat_ofNat, Nat.mod_eq_of_lt hn]
  rw [exec_writeBlock_of_le (by rwa [hcount]), hcount]

/-- WRITE_BLOCK(n + 1) is WRITE_BLOCK(n) after one turn of its loop (R125). -/
theorem exec_writeBlock_succ {s : State} {x : Sample} {xs : List Sample} {n : Nat} (hn : n + 1 < 65536)
    (hinq : s.inq = x :: xs) (hlen : n ≤ xs.length) :
    exec (.writeBlock (BitVec.ofNat 16 (n + 1))) s =
      exec (.writeBlock (BitVec.ofNat 16 n)) ((s.setBuf (writeSample s.cfg s.buf x)).setInq xs) := by
  rw [exec_writeBlock_ofNat hn (by simpa [hinq] using hlen), exec_writeBlock_ofNat (by omega) hlen,
    writeBlock_succ hinq]

/-- Settles O25: one turn of the loop is `writeSample`, here in the words of R125. -/
theorem writeBlockStoresSampleBySample : Obligations.WriteBlockStoresSampleBySample := by
  refine ⟨fun n => rfl, fun s => ?_, fun s x xs n hn hinq hlen => ?_⟩
  · exact (exec_writeBlock_of_le (Nat.zero_le _)).trans (congrArg _ (writeBlock_zero s))
  · rw [exec_writeBlock_succ hn hinq hlen, writeSample_eq]
    rfl

/-! ### READ_SAMPLE -/

/-- Positions a multiple of the ring's length apart are one position (R8, R61). -/
theorem wrap_add_mul_self (x k : Int) (n : Nat) : wrap (x + k * n) n = wrap x n := by
  rw [wrap, Int.add_mul_emod_self_right, wrap]

/-- READ_SAMPLE appends one word to RESP and does nothing else (R126). -/
theorem exec_readSample (i : BitVec 32) (s : State) :
    exec (.readSample i) s =
      .next { s with resp := s.resp ++ [sext32 (slotRead s.cfg s.buf (wrap i.toInt s.slots))] } := rfl

/-- Settles O28: the response depends on the index only through its wrap. -/
theorem readSampleRespondsWithTheWrappedSlot : Obligations.ReadSampleRespondsWithTheWrappedSlot := by
  refine fun i s => ⟨rfl, exec_readSample i s, fun k j hj => ?_⟩
  rw [exec_readSample, exec_readSample, hj, wrap_add_mul_self]

/-! ### SET_WRITE_HEAD -/

/-- SET_WRITE_HEAD sets WH and WFADE and does nothing else (R127). -/
theorem exec_setWriteHead (x : BitVec 32) (s : State) :
    exec (.setWriteHead x) s =
      .next (s.setBuf { s.buf with wh := wrap x.toInt s.slots, wfade := s.cfg.fadeWindow }) := rfl

/-- Settles O29: the meaning arms the fade without looking at WH or WFADE. -/
theorem setWriteHeadMovesAndArmsTheFade : Obligations.SetWriteHeadMovesAndArmsTheFade :=
  fun x s => ⟨rfl, exec_setWriteHead x s⟩

/-! ### SET_BIT_DEPTH -/

/-- A head after a depth change to `n` slots, in the words of R130. -/
theorem renormHead_eq (n : Nat) (hd : Head) :
    renormHead n hd =
      let ls := hd.loopStart % n
      let le := if hd.loopEn = true ∧ hd.loopEnd % n = ls then wrap ((ls : Int) - 1) n else hd.loopEnd % n
      { hd with
        pos := if hd.loopEn = true ∧ inregion (hd.pos % n) ls le n = false then ls else hd.pos % n
        xpos := hd.xpos % n
        loopStart := ls
        loopEnd := le
        doff := min hd.doff (n - 1) } := by
  simp only [renormHead, Bool.and_eq_true, beq_iff_eq, Bool.not_eq_true']

/-- Settles O30: `setDepth` to the live depth and to another, with the new head banks in the words of R130. -/
theorem setBitDepthRewrapsEveryPosition : Obligations.SetBitDepthRewrapsEveryPosition := by
  refine fun r s => ⟨rfl, fun hlive => ?_, fun hother => ?_⟩
  · rw [exec_setBitDepth, hlive, setDepth_same]
  · rw [exec_setBitDepth, setDepth_of_ne hother, funext (renormHead_eq _)]
    rfl

/-! ### Delay conversions -/

/-- DELAY_FROM_RATIO appends one word to RESP and does nothing else (R136). -/
theorem exec_delayFromRatio (v : BitVec 16) (s : State) :
    exec (.delayFromRatio v) s = .next { s with resp := s.resp ++ [zext32 (delayFromRatio s.slots v.toNat)] } := rfl

/-- DELAY_FROM_MS appends one word to RESP and does nothing else (R137). -/
theorem exec_delayFromMs (ms : BitVec 32) (s : State) :
    exec (.delayFromMs ms) s = .next { s with resp := s.resp ++ [zext32 (delayFromMs s.cfg s.slots ms.toNat)] } := rfl

/-- Settles O32: the response word is DR(v). -/
theorem delayFromRatioRespondsWithTheOffset : Obligations.DelayFromRatioRespondsWithTheOffset :=
  fun v s => ⟨rfl, exec_delayFromRatio v s⟩

/-- Settles O33: the response word is DM(ms). -/
theorem delayFromMsRespondsWithTheOffset : Obligations.DelayFromMsRespondsWithTheOffset :=
  fun ms s => ⟨rfl, exec_delayFromMs ms s⟩

end Sys2Proof.Machine
end

section
/-! The play-head commands (42_play_head.md R150 to R168). -/

namespace Sys2Proof.Machine

/-! ### Head commands -/

/-- A head command in its two clauses: the bank of an existing head, or BAD_HEAD recorded with the opcode (R271). -/
theorem exec_onHead_clauses {i : Instr} {s : State} {opc : BitVec 8} {head : BitVec 4} {f : Head → Head}
    (hi : exec i s = .next (s.onHead opc head f)) :
    (head.toNat < s.cfg.numHeads → exec i s = .next { s with heads := s.heads.modify head.toNat f }) ∧
    (s.cfg.numHeads ≤ head.toNat → exec i s = .next { s with err := recorded s.err 3 opc }) := by
  rw [hi]
  exact ⟨fun hlt => congrArg _ (State.onHead_of_lt hlt opc f), fun hge => congrArg _ (State.onHead_of_ge hge opc f)⟩

/-- SET_PLAY_HEAD is `followHead` on its head (R160). -/
theorem exec_setPlayHead (head : BitVec 4) (off : BitVec 32) (s : State) :
    exec (.setPlayHead head off) s = .next (s.onHead 0x20 head (followHead s.cfg s.buf off.toInt)) := rfl

/-- READ_BLOCK is `readHead` on its head (R162). -/
theorem exec_readBlock (head : BitVec 4) (count : BitVec 16) (s : State) :
    exec (.readBlock head count) s = .next (s.onHead 0x21 head (readHead s.cfg s.buf count.toNat)) := rfl

/-- ENABLE_LOOP is `enableLoopHead` on its head (R164). -/
theorem exec_enableLoop (head : BitVec 4) (a e : BitVec 32) (s : State) :
    exec (.enableLoop head a e) s = .next (s.onHead 0x22 head (enableLoopHead s.cfg s.slots a.toInt e.toInt)) := rfl

/-- DISABLE_LOOP is `disableLoopHead` on its head (R166). -/
theorem exec_disableLoop (head : BitVec 4) (s : State) :
    exec (.disableLoop head) s = .next (s.onHead 0x23 head disableLoopHead) := rfl

/-- SHIFT_LOOP is `shiftLoopHead` on its head (R168). -/
theorem exec_shiftLoop (head : BitVec 4) (off : BitVec 32) (s : State) :
    exec (.shiftLoop head off) s = .next (s.onHead 0x24 head (shiftLoopHead s.slots off.toInt)) := rfl

/-! ### One sample of a head -/

/-- `Advance(h)`, in the words of R151. -/
theorem advance_eq (c : Config) (n : Nat) (hd : Head) :
    advance c n hd =
      let p := (hd.pos + 1) % n
      if hd.loopEn = true ∧ p = hd.loopEnd then
        if hd.xfDone = true then { hd with pos := hd.loopStart }
        else { hd with pos := hd.loopStart, xpos := hd.loopEnd, xrem := c.fadeWindow, xfDone := true }
      else { hd with pos := p } := by
  simp only [advance, Bool.and_eq_true, beq_iff_eq]

/-- The outgoing stream of a head moves on by one sample while its fade runs (R150). -/
def fadeStep (n : Nat) (hd : Head) : Head :=
  if 0 < hd.xrem then { hd with xpos := (hd.xpos + 1) % n, xrem := hd.xrem - 1 } else hd

@[simp] theorem fadeStep_pos (n : Nat) (hd : Head) : (fadeStep n hd).pos = hd.pos := by
  unfold fadeStep; split <;> rfl
@[simp] theorem fadeStep_loopEn (n : Nat) (hd : Head) : (fadeStep n hd).loopEn = hd.loopEn := by
  unfold fadeStep; split <;> rfl
@[simp] theorem fadeStep_loopStart (n : Nat) (hd : Head) : (fadeStep n hd).loopStart = hd.loopStart := by
  unfold fadeStep; split <;> rfl
@[simp] theorem fadeStep_loopEnd (n : Nat) (hd : Head) : (fadeStep n hd).loopEnd = hd.loopEnd := by
  unfold fadeStep; split <;> rfl
@[simp] theorem fadeStep_xfDone (n : Nat) (hd : Head) : (fadeStep n hd).xfDone = hd.xfDone := by
  unfold fadeStep; split <;> rfl

/-- The crossfade multiplexer: the incoming stream, blended with the outgoing one while the fade runs (R150). -/
theorem playSample_fst (c : Config) (b : Buffer) (hd : Head) :
    (playSample c b hd).1 =
      if 0 < hd.xrem then blend c (slotRead c b hd.xpos) (slotRead c b hd.pos) hd.xrem
      else slotRead c b hd.pos := by
  unfold playSample
  split <;> rfl

/-- After a sample the outgoing stream has moved on, and then the head has advanced (R150). -/
theorem playSample_snd (c : Config) (b : Buffer) (hd : Head) :
    (playSample c b hd).2 = advance c (b.slots c) (fadeStep (b.slots c) hd) := by
  unfold playSample fadeStep
  split <;> rfl

/-- A head plays one sample and pushes it to its OUT: one turn of READ_BLOCK's loop (R162). -/
def pushSample (c : Config) (b : Buffer) (hd : Head) : Head :=
  { (playSample c b hd).2 with out := hd.out ++ [(playSample c b hd).1] }

/-- One turn of READ_BLOCK's loop, in the words of R150 and R151. -/
theorem pushSample_eq (c : Config) (b : Buffer) (hd : Head) :
    pushSample c b hd =
      let a := slotRead c b hd.pos
      let y := if 0 < hd.xrem then blend c (slotRead c b hd.xpos) a hd.xrem else a
      let f := fadeStep (b.slots c) hd
      let p := (hd.pos + 1) % b.slots c
      let g : Head :=
        if hd.loopEn = true ∧ p = hd.loopEnd then
          if hd.xfDone = true then { f with pos := hd.loopStart }
          else { f with pos := hd.loopStart, xpos := hd.loopEnd, xrem := c.fadeWindow, xfDone := true }
        else { f with pos := p }
      { g with out := hd.out ++ [y] } := by
  simp only [pushSample, playSample_fst, playSample_snd, advance_eq, fadeStep_pos, fadeStep_loopEn,
    fadeStep_loopStart, fadeStep_loopEnd, fadeStep_xfDone]

/-! ### READ_BLOCK -/

/-- A block pushes its first sample, then the rest of it (R162). -/
theorem readHead_succ_eq_comp (c : Config) (b : Buffer) (n : Nat) :
    readHead c b (n + 1) = readHead c b n ∘ pushSample c b :=
  funext (readHead_succ c b n)

/-- READ_BLOCK of an existing head with a count that fits its field (R162). -/
theorem exec_readBlock_ofNat {s : State} {head : BitVec 4} (h : head.toNat < s.cfg.numHeads) {n : Nat}
    (hn : n < 65536) :
    exec (.readBlock head (BitVec.ofNat 16 n)) s =
      .next (s.setHeads (s.heads.modify head.toNat (readHead s.cfg s.buf n))) := by
  rw [exec_readBlock_of_lt h, BitVec.toNat_ofNat, Nat.mod_eq_of_lt hn]

/-- READ_BLOCK(0) of an existing head changes nothing (R162). -/
theorem exec_readBlock_zero {s : State} {head : BitVec 4} (h : head.toNat < s.cfg.numHeads) :
    exec (.readBlock head 0) s = .next s := by
  have hid : readHead s.cfg s.buf 0 = id := funext (readHead_zero s.cfg s.buf)
  refine (exec_readBlock_ofNat h (n := 0) (by decide)).trans ?_
  rw [hid, List.modify_id, State.setHeads_self]

/-- READ_BLOCK(n + 1) is READ_BLOCK(n) after one turn of its loop (R162). -/
theorem exec_readBlock_succ {s : State} {head : BitVec 4} (h : head.toNat < s.cfg.numHeads) {n : Nat}
    (hn : n + 1 < 65536) :
    exec (.readBlock head (BitVec.ofNat 16 (n + 1))) s =
      exec (.readBlock head (BitVec.ofNat 16 n))
        (s.setHeads (s.heads.modify head.toNat (pushSample s.cfg s.buf))) := by
  rw [exec_readBlock_ofNat h hn, exec_readBlock_ofNat (by simpa using h) (by omega), readHead_succ_eq_comp]
  simp [List.modify_modify_eq]

/-- Settles O35: one turn of the loop is `pushSample`, here in the words of R150 and R151. -/
theorem readBlockPlaysSampleBySample : Obligations.ReadBlockPlaysSampleBySample := by
  refine ⟨fun h n => rfl, fun h n s hbad => ?_, fun h s hh => exec_readBlock_zero hh, fun h n s hh hn => ?_⟩
  · exact (exec_onHead_clauses (exec_readBlock h n s)).2 hbad
  · rw [exec_readBlock_succ hh hn, funext (pushSample_eq s.cfg s.buf)]
    rfl

/-! ### The commands that move a head and its loop -/

/-- A head after SET_PLAY_HEAD, in the words of R152 and R160. -/
theorem followHead_eq (c : Config) (b : Buffer) (off : Int) (hd : Head) :
    followHead c b off hd =
      let t := wrap ((b.wh : Int) - off) (b.slots c)
      if hd.loopEn = true then hd
      else if cdist t hd.pos (b.slots c) ≤ 1 then { hd with pos := t }
      else { hd with xpos := hd.pos, pos := t, xrem := c.fadeWindow } := rfl

/-- Settles O34: SET_PLAY_HEAD is `followHead` on its head, in the words of R152 and R160. -/
theorem setPlayHeadRetargetsUnlessLooping : Obligations.SetPlayHeadRetargetsUnlessLooping := by
  refine fun h off s => ⟨rfl, ?_⟩
  have hclauses := exec_onHead_clauses (exec_setPlayHead h off s)
  rw [funext (followHead_eq s.cfg s.buf off.toInt)] at hclauses
  exact hclauses

/-- A head after ENABLE_LOOP, in the words of R152 and R164. -/
theorem enableLoopHead_eq (c : Config) (n : Nat) (a e : Int) (hd : Head) :
    enableLoopHead c n a e hd =
      let ls := wrap a n
      let le := if wrap e n = ls then wrap ((ls : Int) - 1) n else wrap e n
      let looped : Head := { hd with loopStart := ls, loopEnd := le, loopEn := true, xfDone := false }
      if inregion hd.pos ls le n = true then looped
      else if cdist ls hd.pos n ≤ 1 then { looped with pos := ls }
      else { looped with xpos := hd.pos, pos := ls, xrem := c.fadeWindow } := rfl

/-- Settles O39: ENABLE_LOOP is `enableLoopHead` on its head, in the words of R152 and R164. -/
theorem enableLoopSetsTheRegionAndEntersIt : Obligations.EnableLoopSetsTheRegionAndEntersIt := by
  refine fun h a e s => ⟨rfl, ?_⟩
  have hclauses := exec_onHead_clauses (exec_enableLoop h a e s)
  rw [funext (enableLoopHead_eq s.cfg s.slots a.toInt e.toInt)] at hclauses
  exact hclauses

/-- Settles O40: DISABLE_LOOP is `disableLoopHead` on its head. -/
theorem disableLoopClearsLoopEnOnly : Obligations.DisableLoopClearsLoopEnOnly :=
  fun h s => ⟨rfl, exec_onHead_clauses (exec_disableLoop h s)⟩

/-- Settles O41: SHIFT_LOOP is `shiftLoopHead` on its head. -/
theorem shiftLoopMovesTheLoopWithItsHead : Obligations.ShiftLoopMovesTheLoopWithItsHead :=
  fun h off s => ⟨rfl, exec_onHead_clauses (exec_shiftLoop h off s)⟩

end Sys2Proof.Machine
end

section
/-! The control port's writes (44_staging.md R221 to R227). -/

namespace Sys2Proof.Machine

/-! ### Fields of a data word -/

/-- A one-bit field is its bit. -/
theorem extractLsb'_one_eq_ofBool {w : Nat} (x : BitVec w) (i : Nat) :
    x.extractLsb' i 1 = BitVec.ofBool (x.getLsbD i) := by
  apply BitVec.eq_of_getLsbD_eq
  intro j hj
  obtain rfl : j = 0 := by omega
  simp

/-- A one-bit field is set when its bit is. -/
theorem extractLsb'_one_eq_one_iff {w : Nat} (x : BitVec w) (i : Nat) :
    x.extractLsb' i 1 = 1#1 ↔ x.getLsbD i = true := by
  rw [extractLsb'_one_eq_ofBool]
  cases x.getLsbD i <;> decide

/-! ### What the writes store -/

/-- The request a write of FREEZE makes, by the number in data bits 1:0 (R223). -/
theorem freezeRequest_eq_ite (d : BitVec 32) (pending : FreezeReq) :
    freezeRequest d pending =
      if d.toNat % 4 = 0 then pending else if d.toNat % 4 = 1 then .on
      else if d.toNat % 4 = 2 then .off else .toggle := by
  have hfield : (d.extractLsb' 0 2).toNat = d.toNat % 4 := rfl
  have hlt : d.toNat % 4 < 4 := Nat.mod_lt _ (by decide)
  simp only [freezeRequest, BitVec.toNat_eq, hfield]
  generalize d.toNat % 4 = r at hlt
  interval_cases r <;> rfl

/-- CPW_ERRSTAT sets ERRSTAT alone: cleared by data bit 0, else as it was (R227). -/
theorem exec_cpwErrstat (d : BitVec 32) (s : State) :
    exec (.cpwErrstat d) s = .next (s.setErr (if d.extractLsb' 0 1 = 1#1 then errNone else s.err)) := by
  simp only [exec, execCpwErrstat, extractLsb'_one_eq_one_iff]
  split <;> rfl

/-- CPW_BIT_DEPTH sets the staged depth alone (R221). -/
theorem exec_cpwBitDepth (d : BitVec 32) (s : State) :
    exec (.cpwBitDepth d) s = .next (s.setStg { s.stg with bitDepth := clampDepth d.toNat }) := rfl

/-- CPW_LOOP_SIZE sets the staged loop size alone (R222). -/
theorem exec_cpwLoopSize (d : BitVec 32) (s : State) :
    exec (.cpwLoopSize d) s = .next (s.setStg { s.stg with loopSize := d.extractLsb' 0 16 }) := rfl

/-- CPW_FREEZE sets the freeze request alone (R223). -/
theorem exec_cpwFreeze (d : BitVec 32) (s : State) :
    exec (.cpwFreeze d) s = .next (s.setStg { s.stg with freeze := freezeRequest d s.stg.freeze }) := rfl

/-- CPW_GLITCH sets the duration and the pending request (R224). -/
theorem exec_cpwGlitch (d : BitVec 32) (s : State) :
    exec (.cpwGlitch d) s =
      .next (s.setStg { s.stg with glitchMs := d.extractLsb' 0 16, glitchPending := true }) := rfl

/-- CPW_SPEED sets the staged speed alone (R226). -/
theorem exec_cpwSpeed (d : BitVec 32) (s : State) :
    exec (.cpwSpeed d) s = .next (s.setStg { s.stg with speed := d.extractLsb' 0 16 }) := rfl

/-- A refused CP write records cause 4 with its address, and changes nothing else (R274). -/
theorem cpError_eq (addr : BitVec 8) (s : State) :
    cpError addr s = { s with err := recorded s.err 4 addr } := rfl

/-- The transaction of a write of DELAY_h, its address in two nibbles (R39, R86). -/
theorem encode_cpwDelay (h : BitVec 4) (d : BitVec 32) :
    encode (.cpwDelay h d) = .cp (1#1 ++ 0x1#4 ++ h ++ d) :=
  congrArg (fun rwAddr : BitVec 9 => Encoding.cp (rwAddr ++ d)) BitVec.append_assoc'

/-! ### The obligations -/

/-- Settles O53: each write's meaning on its own field, with the FREEZE request as a number. -/
theorem controlWritesStageTheirFields : Obligations.ControlWritesStageTheirFields := by
  refine fun d s => ⟨⟨rfl, exec_cpwErrstat d s⟩, ⟨rfl, exec_cpwBitDepth d s⟩, ⟨rfl, exec_cpwLoopSize d s⟩,
    ⟨rfl, ?_⟩, ⟨rfl, exec_cpwGlitch d s⟩, ⟨rfl, exec_cpwSpeed d s⟩⟩
  rw [exec_cpwFreeze, freezeRequest_eq_ite]
  rfl

/-- Settles O54: the two clauses of CPW_DELAY, with MODE as a one-bit field and the error as ERRSTAT's new value. -/
theorem delayWriteStagesItsHead : Obligations.DelayWriteStagesItsHead := by
  refine fun h d s => ⟨encode_cpwDelay h d, fun hlt => ?_, fun hge => ?_⟩
  · have hmode : (d.extractLsb' 31 1 == 1#1) = d.getLsbD 31 := by
      rw [Bool.eq_iff_iff, beq_iff_eq, extractLsb'_one_eq_one_iff]
    rw [exec_cpwDelay_of_lt hlt, hmode]
    rfl
  · exact (exec_cpwDelay_of_ge hge d).trans (congrArg _ (cpError_eq (delayAddrOf h) s))

end Sys2Proof.Machine
end

section
/-! NOP, a command of one word without operands (30_encoding.md R87; 45_callback.md R251). -/

namespace Sys2Proof.Machine

/-! ### Decoding a command of one word -/

/-- Where neither HEAD nor IMM16 is used, the one header without a reserved field in use is the opcode's own. -/
theorem reservedZero_iff_eq_header {r : OpcodeRow} (hhead : r.usesHead = false) (himm : r.usesImm = false)
    (w : Word) : reservedZero r w = true ↔ w = header (opcOf w) 0 0 := by
  simp only [reservedZero, hhead, himm, Bool.false_or, Bool.and_eq_true, beq_iff_eq]
  constructor
  · rintro ⟨⟨hrsv, hh⟩, hi⟩
    rw [← hh, ← hi, header_of_fields hrsv]
  · intro h
    rw [h]
    simp

/-- A one-word command is decided by its header alone, with no wait for operands (R81, R87). -/
theorem decodeEp_of_oneWord {r : OpcodeRow} {w : Word} (hrow : opcodeRow (opcOf w) = some r) (hone : r.words = 1)
    (rest : List Word) :
    decodeEp (w :: rest) =
      if reservedZero r w then .instr (r.build (headOf w) (immOf w) (rest.getD 0 0) (rest.getD 1 0)) rest
      else .reject .reservedField (opcOf w) rest := by
  simp [decodeEp, hrow, hone]

/-- A header with NOP's opcode is NOP where it is the all-zero word, else it has a reserved field in use. -/
theorem decodeEp_of_nopOpcode {w : Word} (hopc : opcOf w = 0x00#8) (rest : List Word) :
    decodeEp (w :: rest) = if w = 0#32 then .instr .nop rest else .reject .reservedField 0x00#8 rest := by
  have hrow : opcodeRow (opcOf w) = some ⟨0x00#8, 1, false, false, fun _ _ _ _ => .nop⟩ := by
    rw [hopc]
    rfl
  have hzero : header 0x00#8 0 0 = 0#32 := rfl
  rw [decodeEp_of_oneWord hrow rfl]
  simp only [reservedZero_iff_eq_header, hopc, hzero]

/-- NOP leaves the state as it is (R251). -/
theorem exec_nop (s : State) : exec .nop s = .next s := rfl

/-! ### The obligation -/

/-- Settles O42: both decoding clauses are the one case split on a header with NOP's opcode. -/
theorem nopChangesNothing : Obligations.NopChangesNothing := by
  refine ⟨rfl, fun rest => ?_, fun w rest hopc hw => ?_, exec_nop⟩
  · exact (decodeEp_of_nopOpcode rfl rest).trans (if_pos rfl)
  · exact (decodeEp_of_nopOpcode hopc rest).trans (if_neg hw)

end Sys2Proof.Machine
end

section
/-! Refused control-port writes: which transactions they are, and that no other one records an error
(44_staging.md R220; 60_exceptions.md R274). -/

namespace Sys2Proof.Machine

/-! ### Which writes are refused -/

/-- A transaction with RW = 1 is a write of its data to its address (R86). -/
theorem decodeCp_write (a : BitVec 8) (d : BitVec 32) : decodeCp (1#1 ++ a ++ d) = decodeCpWrite a d := by
  have hword : (1#1 ++ a ++ d : Transaction) = transaction true a d := rfl
  rw [hword, decodeCp, rwOf_transaction, addrOf_transaction, dataOf_transaction, if_pos rfl]

/-- A write is refused exactly where its address is neither a named register nor in the DELAY row (R220, R274). -/
theorem decodeCpWrite_eq_cpwRefused_iff (a : BitVec 8) (d : BitVec 32) :
    decodeCpWrite a d = .cpwRefused a d ↔ namedWriteAddr a = false ∧ delayAddr a = false := by
  have hnamed : namedWriteAddr a = false ↔
      a ≠ 0x01#8 ∧ a ≠ 0x02#8 ∧ a ≠ 0x03#8 ∧ a ≠ 0x04#8 ∧ a ≠ 0x05#8 ∧ a ≠ 0x06#8 := by
    simp only [namedWriteAddr, Bool.and_eq_false_iff, decide_eq_false_iff_not]
    bv_omega
  rw [hnamed, decodeCpWrite]
  split_ifs <;> simp_all

/-- The addresses of no write row: STATUS, 0x07 to 0x0F, and those from 0x20 on (R31, R40). -/
theorem not_writable_iff (a : BitVec 8) :
    namedWriteAddr a = false ∧ delayAddr a = false ↔
      a = 0x00#8 ∨ (7 ≤ a.toNat ∧ a.toNat < 16) ∨ 32 ≤ a.toNat := by
  simp only [namedWriteAddr, delayAddr, Bool.and_eq_false_iff, decide_eq_false_iff_not]
  bv_omega

/-- The address of DELAY_h as a number (R31). -/
theorem toNat_delayAddrOf (h : BitVec 4) : (delayAddrOf h).toNat = 16 + h.toNat := by
  have hlt : h.toNat < 2 ^ 4 := h.isLt
  rw [delayAddrOf, BitVec.toNat_append, ← Nat.shiftLeft_add_eq_or_of_lt hlt]
  rfl

/-- The head of a DELAY address is its low nibble (R39). -/
theorem extractLsb'_delayAddrOf (h : BitVec 4) : (delayAddrOf h).extractLsb' 0 4 = h := by
  apply BitVec.eq_of_toNat_eq
  rw [BitVec.extractLsb'_toNat, toNat_delayAddrOf]
  exact (Nat.add_mod_left 16 h.toNat).trans (Nat.mod_eq_of_lt h.isLt)

/-- A write to 0x10 + h is one of DELAY_h, for every head field (R39). -/
theorem decodeCpWrite_delayAddrOf (h : BitVec 4) (d : BitVec 32) :
    decodeCpWrite (delayAddrOf h) d = .cpwDelay h d := by
  have haddr := toNat_delayAddrOf h
  have hrow : delayAddr (delayAddrOf h) = true := by
    simp only [delayAddr, Bool.and_eq_true, decide_eq_true_iff]
    bv_omega
  have hne {n : BitVec 8} (hn : n.toNat < 16) : delayAddrOf h ≠ n := by bv_omega
  simp [decodeCpWrite, hne, hrow, extractLsb'_delayAddrOf]

/-! ### What a transaction can do -/

/-- A refused write records its address, whatever its data (R274). -/
theorem exec_cpwRefused (a : BitVec 8) (d : BitVec 32) (s : State) :
    exec (.cpwRefused a d) s = .next (cpError a s) := rfl

/-- Everything a control-port transaction can do: set the staging registers, clear ERRSTAT or leave it, be a refused
write, or answer a read (R220, R227, R228, R274). -/
theorem exec_controlPort_cases {i : Instr} {s t : State} (hport : onEnginePort i = false)
    (h : exec i s = .next t) :
    (∃ g, t = s.setStg g) ∨
    (∃ d, i = .cpwErrstat d ∧ t = s.setErr (if d.extractLsb' 0 1 = 1#1 then errNone else s.err)) ∨
    (∃ a d, i = .cpwRefused a d ∧ t = cpError a s) ∨
    (∃ head d, i = .cpwDelay head d ∧ s.cfg.numHeads ≤ head.toNat ∧ t = cpError (delayAddrOf head) s) ∨
    (∃ a d, i = .cpr a d ∧ t = s.setPorts { s.ports with cpOut := s.ports.cpOut ++ [readValue a s] }) := by
  cases i with
  | nop | processBlock | encode | decode | writeBlock | readSample | setWriteHead | setBitDepth | delayFromRatio
  | delayFromMs | setPlayHead | readBlock | enableLoop | disableLoop | shiftLoop => cases hport
  | cpwBitDepth d | cpwLoopSize d | cpwFreeze d | cpwGlitch d | cpwSpeed d => cases h; exact .inl ⟨_, rfl⟩
  | cpwErrstat d =>
    rw [exec_cpwErrstat] at h
    cases h
    exact .inr (.inl ⟨d, rfl, rfl⟩)
  | cpwDelay head d =>
    rcases Nat.lt_or_ge head.toNat s.cfg.numHeads with hlt | hge
    · rw [exec_cpwDelay_of_lt hlt] at h
      cases h
      exact .inl ⟨_, rfl⟩
    · rw [exec_cpwDelay_of_ge hge] at h
      cases h
      exact .inr (.inr (.inr (.inl ⟨head, d, rfl, hge, rfl⟩)))
  | cpwRefused a d => cases h; exact .inr (.inr (.inl ⟨a, d, rfl, rfl⟩))
  | cpr a d => cases h; exact .inr (.inr (.inr (.inr ⟨a, d, rfl, rfl⟩)))

/-! ### The obligation -/

/-- Settles O55: a refused write is `cpError`, the decoder refuses the addresses of no write row, and of what a
transaction can do only a refused write records an error. -/
theorem refusedWriteIsRecordedOnly : Obligations.RefusedWriteIsRecordedOnly := by
  refine ⟨fun a d s => (exec_cpwRefused a d s).trans (congrArg _ (cpError_eq a s)), fun h d s hge => ?_,
    fun a d => ?_, fun h d => ?_, fun i s t hport hrefused hdelay hexec => ?_⟩
  · exact (exec_cpwDelay_of_ge hge d).trans (congrArg _ (cpError_eq (delayAddrOf h) s))
  · rw [decodeCp_write, decodeCpWrite_eq_cpwRefused_iff, not_writable_iff]
  · exact (decodeCp_write (delayAddrOf h) d).trans (decodeCpWrite_delayAddrOf h d)
  · rcases exec_controlPort_cases hport hexec with
      ⟨g, rfl⟩ | ⟨d, -, rfl⟩ | ⟨a, d, hi, -⟩ | ⟨head, d, hi, hge, -⟩ | ⟨a, d, -, rfl⟩
    · exact .inl rfl
    · rw [State.setErr_err]
      split
      · exact .inr rfl
      · exact .inl rfl
    · exact absurd hi (hrefused a d)
    · exact absurd (hdelay head d hi) (Nat.not_lt.mpr hge)
    · exact .inl rfl

end Sys2Proof.Machine
end

section
/-! Encoding and decoding are inverse to each other (30_encoding.md R80 to R88). -/

namespace Sys2Proof.Machine

/-! ### Engine-port commands -/

/-- A header whose fields meet its row's reserved-field check, and the operand words of the row, decode to the row's
command; what is behind them is left (R81, R87). -/
theorem decodeEp_header {opc : BitVec 8} {r : OpcodeRow} {head : BitVec 4} {imm : BitVec 16} {ops : List Word}
    (hrow : opcodeRow opc = some r) (hhead : r.usesHead = true ∨ head = 0) (himm : r.usesImm = true ∨ imm = 0)
    (hops : ops.length = r.words - 1) (rest : List Word) :
    decodeEp (header opc head imm :: ops ++ rest) =
      .instr (r.build head imm ((ops ++ rest).getD 0 0) ((ops ++ rest).getD 1 0)) rest := by
  have hzero : reservedZero r (header opc head imm) = true := by
    simpa [reservedZero] using ⟨hhead, himm⟩
  have hlong : ¬(ops ++ rest).length < r.words - 1 := by
    rw [List.length_append]
    omega
  simp only [List.cons_append, decodeEp, opcOf_header, headOf_header, immOf_header, hrow, hlong, hzero, if_false,
    if_true]
  rw [← hops, List.drop_left]

/-- What a decoded command came from: a header of a row of the map that meets the reserved-field check, and behind it
the row's operand words and the rest (R81, R87). -/
theorem decodeEp_eq_instr {words rest : List Word} {i : Instr} (h : decodeEp words = .instr i rest) :
    ∃ w ops r, words = w :: ops ∧ opcodeRow (opcOf w) = some r ∧ r.words - 1 ≤ ops.length ∧
      reservedZero r w = true ∧ i = r.build (headOf w) (immOf w) (ops.getD 0 0) (ops.getD 1 0) ∧
      rest = ops.drop (r.words - 1) := by
  cases words with
  | nil => cases h
  | cons w ops =>
    rw [decodeEp] at h
    cases hrow : opcodeRow (opcOf w) with
    | none => rw [hrow] at h; cases h
    | some r =>
      rw [hrow] at h
      simp only at h
      split_ifs at h with hshort hzero
      cases h
      exact ⟨w, ops, r, rfl, hrow, Nat.le_of_not_lt hshort, hzero, rfl, rfl⟩

/-- No command has more than two operand words (R81). -/
theorem opcodeMap_words_le {r : OpcodeRow} (h : r ∈ opcodeMap) : r.words - 1 ≤ 2 := by
  simp only [opcodeMap, List.mem_cons, List.not_mem_nil, or_false] at h
  rcases h with h | h | h | h | h | h | h | h | h | h | h | h | h | h | h <;> subst h <;> decide

/-- The first operand words, as OPA and OPB. -/
theorem take_eq_take_getD {k : Nat} {ops : List Word} (hk : k ≤ 2) (h : k ≤ ops.length) :
    ops.take k = [ops.getD 0 0, ops.getD 1 0].take k := by
  match k, ops with
  | 0, _ => rfl
  | 1, _ :: _ => rfl
  | 2, _ :: _ :: _ => rfl

/-- The command a row builds from fields that meet its check is well-formed, and encodes as those fields and the row's
operand words (R83). -/
theorem encode_build {r : OpcodeRow} (hr : r ∈ opcodeMap) {head : BitVec 4} {imm : BitVec 16}
    (hhead : r.usesHead = true ∨ head = 0) (himm : r.usesImm = true ∨ imm = 0) (a b : Word) :
    (r.build head imm a b).wf = true ∧
      encode (r.build head imm a b) = .ep (header r.opc head imm :: [a, b].take (r.words - 1)) := by
  simp only [opcodeMap, List.mem_cons, List.not_mem_nil, or_false] at hr
  rcases hr with h | h | h | h | h | h | h | h | h | h | h | h | h | h | h <;> subst h <;>
    simp only [Bool.false_eq_true, false_or, true_or] at hhead himm <;> subst_vars <;> exact ⟨rfl, rfl⟩

/-- A header that meets its row's check, and its operand words, are the encoding of the command they decode to, which
is well-formed. -/
theorem encode_decoded {w : Word} {ops : List Word} {r : OpcodeRow} (hrow : opcodeRow (opcOf w) = some r)
    (hlen : r.words - 1 ≤ ops.length) (hzero : reservedZero r w = true) :
    (r.build (headOf w) (immOf w) (ops.getD 0 0) (ops.getD 1 0)).wf = true ∧
      encode (r.build (headOf w) (immOf w) (ops.getD 0 0) (ops.getD 1 0)) = .ep (w :: ops.take (r.words - 1)) := by
  obtain ⟨hr, hopc⟩ := opcodeRow_some hrow
  simp only [reservedZero, Bool.and_eq_true, Bool.or_eq_true, beq_iff_eq] at hzero
  obtain ⟨⟨hrsv, hhead⟩, himm⟩ := hzero
  have hbuild := encode_build hr hhead himm (ops.getD 0 0) (ops.getD 1 0)
  rwa [hopc, header_of_fields hrsv, ← take_eq_take_getD (opcodeMap_words_le hr) hlen] at hbuild

/-! ### Control-port transactions -/

/-- A transaction with RW = 1 is a write of its data to its address (R86). -/
theorem decodeCp_transaction_true (a : BitVec 8) (d : BitVec 32) :
    decodeCp (transaction true a d) = decodeCpWrite a d := decodeCp_write a d

/-- A transaction with RW = 0 is a read of its address (R86). -/
theorem decodeCp_transaction_false (a : BitVec 8) (d : BitVec 32) : decodeCp (transaction false a d) = .cpr a d := by
  rw [decodeCp, rwOf_transaction, addrOf_transaction, dataOf_transaction, if_neg Bool.false_ne_true]

/-- An address in the DELAY row is the one of the head in its low nibble (R39). -/
theorem delayAddrOf_extractLsb' {a : BitVec 8} (h : delayAddr a = true) : delayAddrOf (a.extractLsb' 0 4) = a := by
  simp only [delayAddr, Bool.and_eq_true, decide_eq_true_iff] at h
  apply BitVec.eq_of_toNat_eq
  rw [toNat_delayAddrOf, BitVec.extractLsb'_toNat]
  bv_omega

/-- What a write decodes to is well-formed and encodes as that write (R86, R220). -/
theorem encode_decodeCpWrite (a : BitVec 8) (d : BitVec 32) :
    (decodeCpWrite a d).wf = true ∧ encode (decodeCpWrite a d) = .cp (transaction true a d) := by
  by_cases hdelay : delayAddr a = true
  · have haddr := delayAddrOf_extractLsb' hdelay
    rw [← haddr, decodeCpWrite_delayAddrOf]
    exact ⟨rfl, rfl⟩
  · by_cases hnamed : namedWriteAddr a = true
    · have hrow : a = 0x01#8 ∨ a = 0x02#8 ∨ a = 0x03#8 ∨ a = 0x04#8 ∨ a = 0x05#8 ∨ a = 0x06#8 := by
        simp only [namedWriteAddr, Bool.and_eq_true, decide_eq_true_iff] at hnamed
        bv_omega
      rcases hrow with rfl | rfl | rfl | rfl | rfl | rfl <;> exact ⟨rfl, rfl⟩
    · rw [Bool.not_eq_true] at hdelay hnamed
      rw [(decodeCpWrite_eq_cpwRefused_iff a d).mpr ⟨hnamed, hdelay⟩]
      exact ⟨by simp [Instr.wf, hnamed, hdelay], rfl⟩

/-- Every transaction decodes to a well-formed instruction whose encoding it is (R88). -/
theorem encode_decodeCp (t : Transaction) : (decodeCp t).wf = true ∧ encode (decodeCp t) = .cp t := by
  rw [← transaction_fields t]
  cases rwOf t
  · rw [decodeCp_transaction_false]
    exact ⟨rfl, rfl⟩
  · rw [decodeCp_transaction_true]
    exact encode_decodeCpWrite _ _

/-! ### The obligations -/

/-- Settles O1: for an engine-port command by its row of the map, for a transaction by its address. -/
theorem decodingAnEncodedInstructionReturnsIt : Obligations.DecodingAnEncodedInstructionReturnsIt := by
  intro i hwf
  cases i with
  | nop => exact decodeEp_header (opc := 0x00) (ops := []) rfl (.inr rfl) (.inr rfl) rfl
  | processBlock => exact decodeEp_header (opc := 0x01) (ops := []) rfl (.inr rfl) (.inr rfl) rfl
  | encode x d => exact decodeEp_header (opc := 0x08) (ops := [d]) rfl (.inr rfl) (.inl rfl) rfl
  | decode v d => exact decodeEp_header (opc := 0x09) (ops := [d]) rfl (.inr rfl) (.inl rfl) rfl
  | writeBlock n => exact decodeEp_header (opc := 0x10) (ops := []) rfl (.inr rfl) (.inl rfl) rfl
  | readSample i => exact decodeEp_header (opc := 0x11) (ops := [i]) rfl (.inr rfl) (.inr rfl) rfl
  | setWriteHead x => exact decodeEp_header (opc := 0x12) (ops := [x]) rfl (.inr rfl) (.inr rfl) rfl
  | setBitDepth d => exact decodeEp_header (opc := 0x13) (ops := []) rfl (.inr rfl) (.inl rfl) rfl
  | delayFromRatio v => exact decodeEp_header (opc := 0x14) (ops := []) rfl (.inr rfl) (.inl rfl) rfl
  | delayFromMs ms => exact decodeEp_header (opc := 0x15) (ops := [ms]) rfl (.inr rfl) (.inr rfl) rfl
  | setPlayHead h off => exact decodeEp_header (opc := 0x20) (ops := [off]) rfl (.inl rfl) (.inr rfl) rfl
  | readBlock h n => exact decodeEp_header (opc := 0x21) (ops := []) rfl (.inl rfl) (.inl rfl) rfl
  | enableLoop h a e => exact decodeEp_header (opc := 0x22) (ops := [a, e]) rfl (.inl rfl) (.inr rfl) rfl
  | disableLoop h => exact decodeEp_header (opc := 0x23) (ops := []) rfl (.inl rfl) (.inr rfl) rfl
  | shiftLoop h off => exact decodeEp_header (opc := 0x24) (ops := [off]) rfl (.inl rfl) (.inr rfl) rfl
  | cpwErrstat d | cpwBitDepth d | cpwLoopSize d | cpwFreeze d | cpwGlitch d | cpwSpeed d =>
    exact decodeCp_transaction_true _ d
  | cpwDelay h d => exact (decodeCp_transaction_true _ d).trans (decodeCpWrite_delayAddrOf h d)
  | cpwRefused a d =>
    simp only [Instr.wf, Bool.and_eq_true, Bool.not_eq_true'] at hwf
    exact (decodeCp_transaction_true a d).trans ((decodeCpWrite_eq_cpwRefused_iff a d).mpr hwf)
  | cpr a d => exact decodeCp_transaction_false a d

/-- Settles O2: the command of a row encodes as the words taken, and every transaction as itself. -/
theorem encodingADecodedInstructionReturnsItsWords : Obligations.EncodingADecodedInstructionReturnsItsWords := by
  refine ⟨fun words rest i h => ?_, encode_decodeCp⟩
  obtain ⟨w, ops, r, rfl, hrow, hlen, hzero, rfl, rfl⟩ := decodeEp_eq_instr h
  obtain ⟨hwf, henc⟩ := encode_decoded hrow hlen hzero
  exact ⟨hwf, w :: ops.take (r.words - 1), by simp, henc⟩

/-- Settles O3: each word list by evaluating the decoder on it. -/
theorem writtenOutWordsDecodeToTheirCommands : Obligations.WrittenOutWordsDecodeToTheirCommands :=
  ⟨rfl, rfl, rfl, rfl, rfl, rfl, rfl, rfl⟩

/-- A header with no reserved field used and its operand words behind it is its row's command (R81, R87). -/
theorem decodeEp_of_unreserved {w : Word} {ops : List Word} {r : OpcodeRow} (hrow : opcodeRow (opcOf w) = some r)
    (hlen : r.words - 1 ≤ ops.length) (hzero : reservedZero r w = true) :
    decodeEp (w :: ops) = .instr (r.build (headOf w) (immOf w) (ops.getD 0 0) (ops.getD 1 0))
      (ops.drop (r.words - 1)) := by
  rw [decodeEp, hrow]
  simp only [Nat.not_lt.mpr hlen, hzero, if_false, if_true]

/-- Settles O5: the decoder's row of the opcode builds the command, whose encoding is the words taken. -/
theorem everyUnreservedHeaderIsACommand : Obligations.EveryUnreservedHeaderIsACommand := by
  intro w ops row hrow hopc hlen hreserved
  obtain ⟨r, hr, hwords, huse, himm⟩ := commandMap_row hrow
  have hzero : reservedZero r w = true := (reservedZero_iff huse himm w).mpr hreserved
  rw [hopc] at hr
  rw [← hwords] at hlen ⊢
  exact ⟨_, decodeEp_of_unreserved hr hlen hzero, (encode_decoded hr hlen hzero).2⟩

/-- A 16-bit operand as the low half of a data word (R39). -/
theorem setWidth_eq_zero_append (v : BitVec 16) : v.setWidth 32 = 0#16 ++ v := BitVec.setWidth_eq_append (by decide)

/-- MODE = 1 above a 16-bit value is the value with bit 31 set (R39, R91). -/
theorem msDelay_eq_append (ms : BitVec 16) : 0x80000000#32 + ms.setWidth 32 = 0x8000#16 ++ ms := by
  apply BitVec.eq_of_toNat_eq
  rw [BitVec.toNat_append, ← Nat.shiftLeft_add_eq_or_of_lt ms.isLt]
  have hlt : ms.toNat < 65536 := ms.isLt
  simp
  omega

/-- The transaction of a write of DELAY_h, its data in two halves. -/
theorem encode_cpwDelay_append (h : BitVec 4) (m v : BitVec 16) :
    encode (.cpwDelay h (m ++ v)) = .cp (1#1 ++ 0x1#4 ++ h ++ m ++ v) :=
  (encode_cpwDelay h _).trans (congrArg Encoding.cp BitVec.append_assoc')

/-- Settles O6: each expansion is one transaction; a 16-bit operand is the low half of its data word. -/
theorem pseudoInstructionsAreTheirTransactions : Obligations.PseudoInstructionsAreTheirTransactions := by
  refine ⟨fun h v => ⟨?_, ?_, ?_⟩, fun v => ⟨rfl, rfl, rfl⟩, rfl, rfl, rfl, rfl, rfl, rfl⟩
  · rw [Pseudo.expand, setWidth_eq_zero_append, encode_cpwDelay_append]
  · rw [Pseudo.expand, msDelay_eq_append, encode_cpwDelay_append]
  · rw [Pseudo.expand, setWidth_eq_zero_append]
    exact congrArg Encoding.cp BitVec.append_assoc'

end Sys2Proof.Machine
end

section
/-! One turn of each agent (00_scope.md R7; 60_exceptions.md R272 to R278; 70_reset_and_hazards.md R290, R301): what a
step is where the schedule names the agent, and what an instruction can do to the state. -/

namespace Sys2Proof.Machine

/-! ### A step by what its turn came to -/

theorem step_of_fetch_settled {s t : State} (hl : s.cfg.Legal) (h : fetch s = .settled t) : step s = .next t := by
  rw [step_of_legal hl, h]

theorem step_of_fetch_run {s t : State} {i : Instr} (hl : s.cfg.Legal) (h : fetch s = .run i t) :
    step s = exec i t := by
  rw [step_of_legal hl, h]

/-- The engine's turn passes while the words of its next command have not all come (log 5). -/
theorem fetchEngine_of_wait {s : State} (h : decodeEp s.ports.ep = .wait) : fetchEngine s = .settled s := by
  rw [fetchEngine, h]

/-- A malformed command is recorded and consumed (R272). -/
theorem fetchEngine_of_reject {s : State} {cause : ErrCause} {opc : BitVec 8} {rest : List Word}
    (h : decodeEp s.ports.ep = .reject cause opc rest) :
    fetchEngine s = .settled (cmdError cause opc (leaveEp rest s)) := by
  rw [fetchEngine, h]

/-- A command that has its input runs, its words consumed. -/
theorem fetchEngine_of_ready {s : State} {i : Instr} {rest : List Word} (h : decodeEp s.ports.ep = .instr i rest)
    (hin : inputNeeded s.cfg i ≤ s.inq.length) : fetchEngine s = .run i (leaveEp rest s) := by
  have hgo : holds i s = false := by simpa [holds] using hin
  simp [fetchEngine, h, hgo]

/-- A command short of input stays on the port (R301). -/
theorem fetchEngine_of_held {s : State} {i : Instr} {rest : List Word} (h : decodeEp s.ports.ep = .instr i rest)
    (hin : s.inq.length < inputNeeded s.cfg i) : fetchEngine s = .settled s := by
  have hhold : holds i s = true := by simpa [holds] using hin
  simp [fetchEngine, h, hhold]

/-! ### The checks of a header, in the claims' terms -/

/-- The first check of R87. -/
theorem decodeEp_of_unknown {w : Word} {ops : List Word} (h : ∀ row ∈ commandMap, row.opc ≠ opcOf w) :
    decodeEp (w :: ops) = .reject .illegalOpcode (opcOf w) ops := by
  rw [decodeEp, opcodeRow_none h]

/-- A header of the map with operand words missing (R81, log 5). -/
theorem decodeEp_of_short {w : Word} {ops : List Word} {r : OpcodeRow} (hrow : opcodeRow (opcOf w) = some r)
    (hlen : ops.length < r.words - 1) : decodeEp (w :: ops) = .wait := by
  rw [decodeEp, hrow]
  simp only [hlen, if_true]

/-- The second check of R87 fails. -/
theorem decodeEp_of_reserved {w : Word} {ops : List Word} {r : OpcodeRow} (hrow : opcodeRow (opcOf w) = some r)
    (hlen : r.words - 1 ≤ ops.length) (hzero : reservedZero r w = false) :
    decodeEp (w :: ops) = .reject .reservedField (opcOf w) (ops.drop (r.words - 1)) := by
  rw [decodeEp, hrow]
  simp [Nat.not_lt.mpr hlen, hzero]

/-- The third check of R87: a command with a HEAD operand needs no input and records BAD_HEAD where there is no such
head (R271). -/
theorem exec_build_of_badHead {r : OpcodeRow} (hr : r ∈ opcodeMap) (huse : r.usesHead = true) {head : BitVec 4}
    {s : State} (hbad : s.cfg.numHeads ≤ head.toNat) (imm : BitVec 16) (a b : Word) :
    inputNeeded s.cfg (r.build head imm a b) = 0 ∧
      exec (r.build head imm a b) s = .next (cmdError .badHead r.opc s) := by
  have key {opc : BitVec 8} {f : Head → Head} : Host.Outcome.next (φ := Fault) (ρ := Refusal) (s.onHead opc head f) =
      .next (cmdError .badHead opc s) := congrArg _ (State.onHead_of_ge hbad opc f)
  simp only [opcodeMap, List.mem_cons, List.not_mem_nil, or_false] at hr
  rcases hr with h | h | h | h | h | h | h | h | h | h | h | h | h | h | h <;> subst h <;>
    simp only [Bool.false_eq_true] at huse <;> exact ⟨rfl, key⟩

/-- A recorded error, in the claims' terms (R272). -/
theorem cmdError_eq (cause : ErrCause) (info : BitVec 8) (s : State) :
    cmdError cause info s = { s with err := recorded s.err (causeCode cause) info } := rfl

/-! ### Turns of the engine, the control agent and the host -/

/-- Settles O7: the turn comes to the decoded command. -/
theorem stepRunsTheDecodedCommand : Obligations.StepRunsTheDecodedCommand := fun s _ _ turns hl hsched hdec hin =>
  step_of_fetch_run hl ((fetch_of_engine hsched).trans
    (fetchEngine_of_ready (s := s.setPorts { s.ports with sched := turns }) hdec hin))

/-- Settles O8: the turn comes to the oldest transaction. -/
theorem stepRunsTheOldestTransaction : Obligations.StepRunsTheOldestTransaction := by
  intro s t rest turns hl hsched hcp
  refine step_of_fetch_run hl ((fetch_of_control hsched).trans ?_)
  simp only [fetchControl, State.setPorts_ports, hcp]
  rfl

/-- Settles O9: the hold at the step, and the two meanings short of input. -/
theorem inputHoldLeavesTheCommandWaiting : Obligations.InputHoldLeavesTheCommandWaiting := by
  refine ⟨fun s i rest turns hl hsched hdec hin => ?_, fun s n hn => ?_, fun s hn => ?_⟩
  · exact step_of_fetch_settled hl ((fetch_of_engine hsched).trans
      (fetchEngine_of_held (s := s.setPorts { s.ports with sched := turns }) hdec hin))
  · exact if_pos hn
  · exact if_pos hn

/-- Settles O10: in both cases the decoder waits. -/
theorem engineWaitsForTheWordsOfACommand : Obligations.EngineWaitsForTheWordsOfACommand := by
  intro s turns hl hsched hshort
  refine step_of_fetch_settled hl ((fetch_of_engine hsched).trans (fetchEngine_of_wait ?_))
  rcases hshort with hep | ⟨w, ops, hep, row, hrow, hopc, hlen⟩
  · simp only [State.setPorts_ports, hep, decodeEp]
  · obtain ⟨r, hr, hwords, -, -⟩ := commandMap_row hrow
    rw [hopc] at hr
    simp only [State.setPorts_ports, hep]
    exact decodeEp_of_short hr (hwords ▸ hlen)

/-- On the engine's turn a malformed command is recorded, and its words and the turn are consumed (R272). -/
theorem step_of_reject {s : State} {cause : ErrCause} {opc : BitVec 8} {rest : List Word} {turns : List Agent}
    (hl : s.cfg.Legal) (hsched : s.ports.sched = .engine :: turns)
    (hdec : decodeEp s.ports.ep = .reject cause opc rest) :
    step s = .next { s with
      ports := { s.ports with ep := rest, sched := turns }, err := recorded s.err (causeCode cause) opc } := by
  have hturn := fetchEngine_of_reject (s := s.setPorts { s.ports with sched := turns }) hdec
  rw [step_of_fetch_settled hl ((fetch_of_engine hsched).trans hturn), cmdError_eq]
  rfl

/-- Settles O4: the three checks of R87, each at the step. -/
theorem malformedCommandIsRecordedAndConsumed : Obligations.MalformedCommandIsRecordedAndConsumed := by
  intro s w ops turns hl hsched hep
  refine ⟨fun hunknown => ?_, fun row hrow hopc hlen => ?_⟩
  · exact step_of_reject hl hsched (hep ▸ decodeEp_of_unknown hunknown)
  · obtain ⟨r, hr, hwords, huse, himm⟩ := commandMap_row hrow
    rw [hopc] at hr
    obtain ⟨hmem, hropc⟩ := opcodeRow_some hr
    have hcheck := reservedZero_iff huse himm w
    rw [← hwords] at hlen ⊢
    refine ⟨fun hused => ?_, fun hunused hhead hbad => ?_⟩
    · have hzero : reservedZero r w = false := Bool.not_eq_true _ ▸ fun h => hcheck.mp h hused
      exact step_of_reject hl hsched (hep ▸ decodeEp_of_reserved hr hlen hzero)
    · have hrun (u : State) (hu : u.cfg = s.cfg) := exec_build_of_badHead hmem (huse.trans hhead) (head := headOf w)
        (s := u) (hu ▸ hbad) (immOf w) (ops.getD 0 0) (ops.getD 1 0)
      have hdec : decodeEp s.ports.ep = _ := hep ▸ decodeEp_of_unreserved hr hlen (hcheck.mpr hunused)
      rw [stepRunsTheDecodedCommand s _ _ turns hl hsched hdec ((hrun s rfl).1.trans_le (Nat.zero_le _)),
        (hrun _ (by rfl)).2, hropc, cmdError_eq]
      rfl

/-- The host's oldest action is its turn. -/
theorem step_of_host {s : State} {a : HostAction} {rest : List HostAction} {turns : List Agent} (hl : s.cfg.Legal)
    (hsched : s.ports.sched = .host :: turns) (hhost : s.ports.host = a :: rest) :
    step s = .next (hostAct a (s.setPorts { s.ports with host := rest, sched := turns })) := by
  refine step_of_fetch_settled hl ((fetch_of_host hsched).trans ?_)
  simp only [fetchHost, State.setPorts_ports, hhost]
  rfl

/-- Settles O13: each stream action is the host's meaning of it. -/
theorem hostMovesStreamsOnly : Obligations.HostMovesStreamsOnly := by
  intro s a rest turns hl hsched hhost
  rw [step_of_host hl hsched hhost]
  refine ⟨?_, ?_, ?_⟩
  · rintro x rfl
    rfl
  · rintro h rfl
    simp only [List.drop_one]
    rfl
  · rintro rfl
    simp only [List.drop_one]
    rfl

/-- Settles O14: asserting reset is the host's meaning of it. -/
theorem resetInputGivesTheResetState : Obligations.ResetInputGivesTheResetState :=
  fun _ _ _ hl hsched hhost => step_of_host hl hsched hhost

/-! ### What an instruction can do -/

/-- No instruction's meaning stops (R272). -/
theorem exec_total (i : Instr) (s : State) : ∃ t, exec i s = .next t := by
  cases i with
  | nop | encode | decode | readSample | setWriteHead | setBitDepth | delayFromRatio | delayFromMs | setPlayHead
  | readBlock | enableLoop | disableLoop | shiftLoop | cpwErrstat | cpwBitDepth | cpwLoopSize | cpwFreeze | cpwGlitch
  | cpwSpeed | cpwRefused | cpr => exact ⟨_, rfl⟩
  | processBlock => simp only [exec, execProcessBlock]; split <;> exact ⟨_, rfl⟩
  | writeBlock n => simp only [exec, execWriteBlock]; split <;> exact ⟨_, rfl⟩
  | cpwDelay h d => simp only [exec, execCpwDelay]; split <;> exact ⟨_, rfl⟩

/-- The operations of the head commands, on the bank of one head (42_play_head.md section 2). -/
inductive HeadOp (s : State) : (Head → Head) → Prop
  | follow (off : Int) : HeadOp s (followHead s.cfg s.buf off)
  | read (n : Nat) : HeadOp s (readHead s.cfg s.buf n)
  | enable (a e : Int) : HeadOp s (enableLoopHead s.cfg s.slots a e)
  | disable : HeadOp s disableLoopHead
  | shift (off : Int) : HeadOp s (shiftLoopHead s.slots off)

/-- Everything an engine-port command can do (30_encoding.md R83). -/
theorem exec_enginePort_cases {i : Instr} {s t : State} (hport : onEnginePort i = true) (h : exec i s = .next t) :
    t = s ∨ (i = .processBlock ∧ t = processBlock s) ∨ (∃ w, t = s.respPush w) ∨ (∃ n, t = writeBlock n s) ∨
    (∃ x, t = s.setBuf { s.buf with wh := wrap x s.slots, wfade := s.cfg.fadeWindow }) ∨
    (∃ d, t = setDepth d s) ∨ (∃ opc head f, HeadOp s f ∧ t = s.onHead opc head f) := by
  cases i with
  | nop => cases h; exact .inl rfl
  | processBlock =>
    simp only [exec, execProcessBlock] at h
    split at h <;> cases h
    · exact .inl rfl
    · exact .inr (.inl ⟨rfl, rfl⟩)
  | encode | decode | readSample | delayFromRatio | delayFromMs => cases h; exact .inr (.inr (.inl ⟨_, rfl⟩))
  | writeBlock n =>
    simp only [exec, execWriteBlock] at h
    split at h <;> cases h
    · exact .inl rfl
    · exact .inr (.inr (.inr (.inl ⟨_, rfl⟩)))
  | setWriteHead x => cases h; exact .inr (.inr (.inr (.inr (.inl ⟨_, rfl⟩))))
  | setBitDepth d => cases h; exact .inr (.inr (.inr (.inr (.inr (.inl ⟨_, rfl⟩)))))
  | setPlayHead head off => cases h; exact .inr (.inr (.inr (.inr (.inr (.inr ⟨_, _, _, .follow _, rfl⟩)))))
  | readBlock head n => cases h; exact .inr (.inr (.inr (.inr (.inr (.inr ⟨_, _, _, .read _, rfl⟩)))))
  | enableLoop head a e => cases h; exact .inr (.inr (.inr (.inr (.inr (.inr ⟨_, _, _, .enable _ _, rfl⟩)))))
  | disableLoop head => cases h; exact .inr (.inr (.inr (.inr (.inr (.inr ⟨_, _, _, .disable, rfl⟩)))))
  | shiftLoop head off => cases h; exact .inr (.inr (.inr (.inr (.inr (.inr ⟨_, _, _, .shift _, rfl⟩)))))
  | cpwErrstat | cpwBitDepth | cpwLoopSize | cpwFreeze | cpwGlitch | cpwSpeed | cpwDelay | cpwRefused | cpr =>
    cases hport

/-- A head command on one head, or BAD_HEAD (R271). -/
theorem State.onHead_cases (s : State) (opc : BitVec 8) (head : BitVec 4) (f : Head → Head) :
    s.onHead opc head f = s.setHeads (s.heads.modify head.toNat f) ∨
    s.onHead opc head f = cmdError .badHead opc s := by
  rcases Nat.lt_or_ge head.toNat s.cfg.numHeads with hlt | hge
  · exact .inl (State.onHead_of_lt hlt opc f)
  · exact .inr (State.onHead_of_ge hge opc f)

@[simp] theorem State.onHead_cfg (s : State) (opc : BitVec 8) (head : BitVec 4) (f : Head → Head) :
    (s.onHead opc head f).cfg = s.cfg := by
  rcases s.onHead_cases opc head f with h | h <;> rw [h] <;> rfl

/-- Each instruction leaves the parameters alone (00_scope.md R5). -/
theorem exec_cfg {i : Instr} {s t : State} (h : exec i s = .next t) : t.cfg = s.cfg := by
  cases hport : onEnginePort i
  · rcases exec_controlPort_cases hport h with
      ⟨g, rfl⟩ | ⟨d, -, rfl⟩ | ⟨a, d, -, rfl⟩ | ⟨head, d, -, -, rfl⟩ | ⟨a, d, -, rfl⟩ <;> rfl
  · rcases exec_enginePort_cases hport h with
      rfl | ⟨-, rfl⟩ | ⟨w, rfl⟩ | ⟨n, rfl⟩ | ⟨x, rfl⟩ | ⟨d, rfl⟩ | ⟨opc, head, f, -, rfl⟩
    · rfl
    · exact (processBlock_frame s).1
    · rfl
    · rfl
    · rfl
    · exact setDepth_cfg d s
    · exact State.onHead_cfg s opc head f

/-- The host leaves the parameters alone, reset included (R290). -/
theorem hostAct_cfg (a : HostAction) (s : State) : (hostAct a s).cfg = s.cfg := by cases a <;> rfl

/-! ### Obligations on every step -/

/-- Settles O11: a turn settles or runs an instruction, and none of these stops. -/
theorem everyLegalStepHasANextState : Obligations.EveryLegalStepHasANextState := by
  refine fun s => ⟨fun hl => ?_, step_of_illegal⟩
  cases hfetch : fetch s with
  | settled t => exact ⟨t, step_of_fetch_settled hl hfetch⟩
  | run i t =>
    rw [step_of_fetch_run hl hfetch]
    exact exec_total i t

/-- Settles O12: by what a turn can come to, and what an instruction can do. -/
theorem noStepChangesTheParameters : Obligations.NoStepChangesTheParameters := by
  intro s t h
  obtain ⟨-, hsettled | ⟨i, s', hrun, hexec⟩⟩ := step_next_cases h
  · rcases fetch_settled_cases hsettled with ⟨p, rfl⟩ | ⟨p, cause, opc, rfl⟩ | ⟨p, a, rfl⟩
    · rfl
    · rfl
    · exact hostAct_cfg a _
  · obtain ⟨p, rfl⟩ := fetch_run_frame hrun
    exact (exec_cfg hexec).trans rfl

end Sys2Proof.Machine
end

section
/-! The reset state and the invariant of the machine (70_reset_and_hazards.md R290; 10_state.md R27, R29;
43_controller.md R191). -/

namespace Sys2Proof.Machine

/-! ### Parts of the state the invariant does not read -/

theorem Inv.setPorts {s : State} (h : Inv s) (p : Ports) : Inv (s.setPorts p) :=
  ⟨h.legal, h.buffer, h.headCount, h.heads, h.controller, h.delayCount, h.errors⟩

theorem Inv.setInq {s : State} (h : Inv s) (xs : List Sample) : Inv (s.setInq xs) :=
  ⟨h.legal, h.buffer, h.headCount, h.heads, h.controller, h.delayCount, h.errors⟩

theorem Inv.setResp {s : State} (h : Inv s) (ws : List Word) : Inv (s.setResp ws) :=
  ⟨h.legal, h.buffer, h.headCount, h.heads, h.controller, h.delayCount, h.errors⟩

/-- Of the staging registers the invariant says only how many DELAY_h there are (R39). -/
theorem Inv.setStg {s : State} (h : Inv s) {g : Staging} (hg : g.delays.length = s.cfg.numHeads) :
    Inv (s.setStg g) :=
  ⟨h.legal, h.buffer, h.headCount, h.heads, h.controller, hg, h.errors⟩

theorem Inv.setErr {s : State} (h : Inv s) {e : ErrStat} (he : ErrInv e) : Inv (s.setErr e) :=
  ⟨h.legal, h.buffer, h.headCount, h.heads, h.controller, h.delayCount, he⟩

/-! ### Operations that keep the invariant -/

theorem errNone_inv : ErrInv errNone := by decide

/-- Recording an error keeps ERRSTAT to the four causes (R270, R272). -/
theorem cmdError_keeps_inv {s : State} (h : Inv s) (cause : ErrCause) (info : BitVec 8) :
    Inv (cmdError cause info s) := by
  refine h.setErr ?_
  rcases recordErr_cases cause info s.err with ⟨-, he⟩ | ⟨-, he⟩ <;> rw [he]
  · exact h.errors
  · exact ⟨fun hf => (nomatch hf), fun _ => causeCode_range cause⟩

theorem HeadOp.keeps_inv {s : State} {f : Head → Head} (hf : HeadOp s f) (hn : 2 ≤ s.slots) {hd : Head}
    (h : HeadInv s.cfg s.slots hd) : HeadInv s.cfg s.slots (f hd) := by
  have hn0 : 0 < s.slots := by omega
  cases hf with
  | follow off => exact followHead_keeps_inv hn0 off h
  | read n => exact readHead_keeps_inv hn0 n h
  | enable a e => exact enableLoopHead_keeps_inv hn a e h
  | disable => exact disableLoopHead_keeps_inv h
  | shift off => exact shiftLoopHead_keeps_inv hn0 off h

theorem Inv.two_le_slots {s : State} (h : Inv s) : 2 ≤ s.slots := h.rest.two_le_slots

theorem onHead_keeps_inv {s : State} (h : Inv s) {f : Head → Head} (hf : HeadOp s f) (opc : BitVec 8)
    (head : BitVec 4) : Inv (s.onHead opc head f) := by
  rcases s.onHead_cases opc head f with he | he <;> rw [he]
  · exact (h.rest.modifyHead _ fun _ => hf.keeps_inv h.two_le_slots).toInv h.controller
  · exact cmdError_keeps_inv h _ _

theorem setWriteHead_keeps_inv {s : State} (h : Inv s) (x : Int) :
    Inv (s.setBuf { s.buf with wh := wrap x s.slots, wfade := s.cfg.fadeWindow }) := by
  obtain ⟨-, -, hwf, hin⟩ := h.buffer
  have hn := h.two_le_slots
  exact ⟨h.legal, ⟨wrap_lt (by omega) x, le_rfl, hwf, hin⟩, h.headCount, h.heads, h.controller, h.delayCount, h.errors⟩

theorem setDepth_keeps_inv {s : State} (h : Inv s) (d : Depth) : Inv (setDepth d s) := by
  obtain ⟨hstate, hactive, hupdates, htimer, hcount, hlss⟩ := h.controller
  refine (setDepth_keeps_rest h.rest d).toInv ?_
  rw [setDepth_ctl, setDepth_cfg]
  exact ⟨hstate, hactive, hupdates, htimer, hcount, setDepth_keeps_lss h.legal d hlss⟩

/-- A control-port transaction keeps the number of DELAY registers (R39). -/
theorem exec_controlPort_delayCount {i : Instr} {s t : State} (hport : onEnginePort i = false)
    (h : exec i s = .next t) : t.stg.delays.length = s.stg.delays.length := by
  cases i with
  | nop | processBlock | encode | decode | writeBlock | readSample | setWriteHead | setBitDepth | delayFromRatio
  | delayFromMs | setPlayHead | readBlock | enableLoop | disableLoop | shiftLoop => cases hport
  | cpwBitDepth | cpwLoopSize | cpwFreeze | cpwGlitch | cpwSpeed | cpwRefused | cpr => cases h; rfl
  | cpwErrstat d =>
    rw [exec_cpwErrstat] at h
    cases h
    rfl
  | cpwDelay head d =>
    rcases Nat.lt_or_ge head.toNat s.cfg.numHeads with hlt | hge
    · rw [exec_cpwDelay_of_lt hlt] at h
      cases h
      exact List.length_set
    · rw [exec_cpwDelay_of_ge hge] at h
      cases h
      rfl

/-- Every instruction keeps the invariant. -/
theorem exec_keeps_inv {i : Instr} {s t : State} (hi : Inv s) (h : exec i s = .next t) : Inv t := by
  cases hport : onEnginePort i
  · have hdelays := (exec_controlPort_delayCount hport h).trans hi.delayCount
    rcases exec_controlPort_cases hport h with
      ⟨g, rfl⟩ | ⟨d, -, rfl⟩ | ⟨a, d, -, rfl⟩ | ⟨head, d, -, -, rfl⟩ | ⟨a, d, -, rfl⟩
    · exact hi.setStg hdelays
    · refine hi.setErr ?_
      split
      exacts [errNone_inv, hi.errors]
    · exact cmdError_keeps_inv hi _ _
    · exact cmdError_keeps_inv hi _ _
    · exact hi.setPorts _
  · rcases exec_enginePort_cases hport h with
      rfl | ⟨-, rfl⟩ | ⟨w, rfl⟩ | ⟨n, rfl⟩ | ⟨x, rfl⟩ | ⟨d, rfl⟩ | ⟨opc, head, f, hf, rfl⟩
    · exact hi
    · exact processBlock_keeps_inv hi
    · exact hi.setResp _
    · exact writeBlock_keeps_inv hi n
    · exact setWriteHead_keeps_inv hi x
    · exact setDepth_keeps_inv hi d
    · exact onHead_keeps_inv hi hf opc head

/-! ### The reset state -/

/-- A head after reset is as R27 says, on any ring with a slot. -/
theorem headReset_inv (c : Config) {n : Nat} (hn : 0 < n) : HeadInv c n Head.reset :=
  ⟨⟨hn, hn, hn, hn, hn⟩, Nat.zero_le _, fun h => nomatch h⟩

theorem resetWith_slots (c : Config) : (State.resetWith c).slots = c.capacity / 2 :=
  congrArg (c.capacity / ·) (by decide : Depth.d16.bps = 2)

/-- The reset state of legal parameters satisfies the invariant (R290). -/
theorem resetWith_inv {c : Config} (h : c.Legal) : Inv (State.resetWith c) := by
  have hn : 2 ≤ (State.resetWith c).slots := two_le_slotsAt h .d16
  have hlss := loopSamples_range hn 4096
  rw [resetWith_slots] at hlss
  have hreverse : 1 ≤ c.shiftReverseEvery := h.2.2.2.2.2.2.2.2.1
  have hctl : ControllerInv c (c.capacity / 2) (State.resetWith c).ctl :=
    ⟨.inl rfl, fun hactive => (nomatch hactive), Nat.zero_lt_succ _, Nat.zero_le _, hreverse, hlss⟩
  refine ⟨h, ⟨?_, Nat.zero_le _, Memory.nil_wf, ?_⟩, List.length_replicate, fun hd hmem => ?_, ?_,
    List.length_replicate, errNone_inv⟩
  · exact lt_of_lt_of_le Nat.zero_lt_two hn
  · exact fun cell hcell => (nomatch hcell)
  · rw [List.eq_of_mem_replicate hmem]
    exact headReset_inv c (by omega)
  · rw [resetWith_slots]
    exact hctl

/-! ### The host's actions and the step -/

/-- Taking a sample from OUT_h moves no register of the head (R41). -/
theorem takeOut_keeps_inv {s : State} (h : Inv s) (k : Nat) :
    Inv (s.setHeads (s.heads.modify k fun hd => { hd with out := hd.out.tail })) :=
  (h.rest.modifyHead k (f := fun hd => { hd with out := hd.out.tail }) fun _ hhead => hhead).toInv h.controller

theorem hostAct_keeps_inv {s : State} (h : Inv s) (a : HostAction) : Inv (hostAct a s) := by
  cases a with
  | supply x => exact h.setInq _
  | takeOut head => exact takeOut_keeps_inv h _
  | takeResp => exact h.setResp _
  | assertReset => exact (resetWith_inv h.legal).setPorts _

/-- Settles O16. -/
theorem resetStateSatisfiesTheInvariant : Obligations.ResetStateSatisfiesTheInvariant :=
  ⟨fun _ h => resetWith_inv h, resetWith_inv (by decide)⟩

/-- Settles O17: a turn settles by moving ports, recording an error or acting for the host, or it runs an instruction,
and each of these keeps the invariant. -/
theorem everyStepKeepsTheInvariant : Obligations.EveryStepKeepsTheInvariant := by
  intro s t hi h
  obtain ⟨-, hsettled | ⟨i, s', hrun, hexec⟩⟩ := step_next_cases h
  · rcases fetch_settled_cases hsettled with ⟨p, rfl⟩ | ⟨p, cause, opc, rfl⟩ | ⟨p, a, rfl⟩
    · exact hi.setPorts p
    · exact cmdError_keeps_inv (hi.setPorts p) cause opc
    · exact hostAct_keeps_inv (hi.setPorts p) a
  · obtain ⟨p, rfl⟩ := fetch_run_frame hrun
    exact exec_keeps_inv (hi.setPorts p) hexec

/-- The slot count of legal parameters is below 2^31 (R5, R6). -/
theorem slots_lt_of_legal {s : State} (h : s.cfg.Legal) : s.slots < 2147483648 := by
  have hcap : s.cfg.capacity ≤ 2147483647 := h.1.2
  have hle : s.slots ≤ s.cfg.capacity := slotsAt_le_capacity _ _
  omega

/-- Settles O18: each range of the invariant ends below the width's bound, by the legal ranges of R5. -/
theorem invariantFitsTheRegisterWidths : Obligations.InvariantFitsTheRegisterWidths := by
  intro s h
  have hn := slots_lt_of_legal h.legal
  obtain ⟨-, -, -, ⟨-, hfade⟩, -, -, hperiod, -, -, hreverse⟩ := h.legal
  obtain ⟨hwh, hwfade, -⟩ := h.buffer
  obtain ⟨-, -, hupdates, htimer, hcount, -, hlss⟩ := h.controller
  have hwh' : s.buf.wh < s.slots := hwh
  refine ⟨by omega, by omega, by omega, by omega, by omega, by omega, fun hd hmem => ?_⟩
  obtain ⟨⟨hpos, hxpos, hstart, hend, hdoff⟩, hxrem, -⟩ := h.heads hd hmem
  exact ⟨by omega, by omega, by omega, by omega, by omega, by omega⟩

end Sys2Proof.Machine
end

section
/-! Control-port reads (44_staging.md R228, with the layouts of 10_state.md R32 to R40), and the reset table, which
reads the registers. -/

namespace Sys2Proof.Machine

/-! ### The words of the registers -/

/-- A word of two fields, as a number. -/
theorem toNat_append_eq_add {m n : Nat} (x : BitVec m) (y : BitVec n) :
    (x ++ y).toNat = x.toNat * 2 ^ n + y.toNat := by
  rw [BitVec.toNat_append, ← Nat.shiftLeft_add_eq_or_of_lt y.isLt, Nat.shiftLeft_eq]

/-- A one-bit field, as a number. -/
theorem toNat_ofBool_eq_ite (b : Bool) : (BitVec.ofBool b).toNat = if b = true then 1 else 0 := by
  cases b <;> rfl

/-- STATUS (R32). -/
theorem statusWord_eq (k : Controller) :
    statusWord k = BitVec.ofNat 32 (if k.cstate = .active ∧ k.cmode = .freeze then 1
      else if k.cstate = .active ∧ k.cmode = .glitch then 2 else 0) := by
  unfold statusWord glitchActive freezeActive
  cases k.cstate <;> cases k.cmode <;> decide

/-- ERRSTAT (R33). -/
theorem errstatWord_eq (e : ErrStat) :
    errstatWord e = BitVec.ofNat 32 (e.info.toNat * 256 + e.cause.toNat * 16 + if e.err = true then 1 else 0) := by
  apply BitVec.eq_of_toNat_eq
  have hinfo := e.info.isLt
  have hcause := e.cause.isLt
  simp only [errstatWord, toNat_append_eq_add, toNat_ofBool_eq_ite, BitVec.toNat_ofNat]
  split <;> omega

/-- A 16-bit field alone in its word (R35, R38). -/
theorem zero_append_eq_ofNat (x : BitVec 16) : (0#16 ++ x : BitVec 32) = BitVec.ofNat 32 x.toNat := by
  apply BitVec.eq_of_toNat_eq
  have hx := x.isLt
  rw [toNat_append_eq_add, BitVec.toNat_ofNat, BitVec.toNat_ofNat]
  omega

/-- GLITCH (R37). -/
theorem glitchWord_eq (g : Staging) :
    glitchWord g = BitVec.ofNat 32 ((if g.glitchPending = true then 1 else 0) * 65536 + g.glitchMs.toNat) := by
  apply BitVec.eq_of_toNat_eq
  have hms := g.glitchMs.isLt
  simp only [glitchWord, toNat_append_eq_add, toNat_ofBool_eq_ite, BitVec.toNat_ofNat]
  split <;> omega

/-- DELAY_h (R39). -/
theorem delayWord_eq (d : DelayReg) :
    delayWord d = BitVec.ofNat 32 ((if d.ms = true then 1 else 0) * 2147483648 + d.value.toNat) := by
  apply BitVec.eq_of_toNat_eq
  have hvalue := d.value.isLt
  simp only [delayWord, toNat_append_eq_add, toNat_ofBool_eq_ite, BitVec.toNat_ofNat]
  split <;> omega

/-- FREEZE (R36). -/
theorem freezeWord_eq (g : Staging) :
    freezeWord g = BitVec.ofNat 32 (match g.freeze with | .none => 0 | .on => 1 | .off => 2 | .toggle => 3) := by
  unfold freezeWord
  cases g.freeze <;> rfl

/-- The transaction of a read (R86). -/
theorem encode_cpr (a : BitVec 8) (d : BitVec 32) : encode (.cpr a d) = .cp (0#1 ++ a ++ d) := rfl

/-- A read appends the register's word to the words returned and does nothing else (R228). -/
theorem exec_cpr (a : BitVec 8) (d : BitVec 32) (s : State) :
    exec (.cpr a d) s = .next (s.setPorts { s.ports with cpOut := s.ports.cpOut ++ [readValue a s] }) := rfl

/-- A choice between two words, as a choice between their numbers. -/
theorem ite_eq_ofNat {p : Prop} [Decidable p] {x y : Word} {m n : Nat} (hx : x = BitVec.ofNat 32 m)
    (hy : y = BitVec.ofNat 32 n) : (if p then x else y) = BitVec.ofNat 32 (if p then m else n) := by
  split
  exacts [hx, hy]

/-- Settles O56: the word of each address as a number. -/
theorem controlReadReturnsTheRegister : Obligations.ControlReadReturnsTheRegister := by
  refine fun a d s => ⟨encode_cpr a d, ?_⟩
  rw [exec_cpr]
  refine congrArg (fun v => Host.Outcome.next (s.setPorts { s.ports with cpOut := s.ports.cpOut ++ [v] })) ?_
  exact ite_eq_ofNat (statusWord_eq s.ctl) <| ite_eq_ofNat (errstatWord_eq s.err) <| ite_eq_ofNat rfl <|
    ite_eq_ofNat (zero_append_eq_ofNat s.stg.loopSize) <| ite_eq_ofNat (freezeWord_eq s.stg) <|
    ite_eq_ofNat (glitchWord_eq s.stg) <| ite_eq_ofNat (zero_append_eq_ofNat s.stg.speed) <|
    ite_eq_ofNat (delayWord_eq _) rfl

/-! ### The reset table -/

/-- After reset every DELAY register is at its reset value, listed or not (R39, R290). -/
theorem delayOf_resetWith (c : Config) (h : Nat) :
    delayOf (State.resetWith c).stg h = { ms := false, value := 0 } := by
  show (List.replicate c.numHeads ({ ms := false, value := 0 } : DelayReg)).getD h { ms := false, value := 0 } = _
  rw [List.getD_eq_getElem?_getD, List.getElem?_replicate]
  split <;> rfl

/-- A read of a DELAY register after reset, of a head that exists or not, is 0 (R40). -/
theorem readValue_delay_resetWith (c : Config) (h : BitVec 4) : readValue (delayAddrOf h) (State.resetWith c) = 0 := by
  have haddr := toNat_delayAddrOf h
  have hne {n : BitVec 8} (hn : n.toNat < 16) : delayAddrOf h ≠ n := by bv_omega
  simp only [readValue, hne, BitVec.toNat_ofNat, Nat.reducePow, Nat.reduceMod, Nat.reduceLT, if_false,
    delayOf_resetWith]
  split <;> rfl

/-- What the reads of the named registers return after reset (R290). -/
theorem readValue_named_resetWith (c : Config) :
    readValue 0x00 (State.resetWith c) = 0 ∧ readValue 0x01 (State.resetWith c) = 0 ∧
    readValue 0x02 (State.resetWith c) = 0x10 ∧ readValue 0x03 (State.resetWith c) = 0x1000 ∧
    readValue 0x04 (State.resetWith c) = 0 ∧ readValue 0x05 (State.resetWith c) = 0 ∧
    readValue 0x06 (State.resetWith c) = 0x100 := by
  simp [readValue, State.resetWith, statusWord_eq, errstatWord_eq, bitDepthWord, Depth.bits, loopSizeWord,
    freezeWord_eq, glitchWord_eq, speedWord]

/-- Settles O15: the parts of the reset state as they are defined, and the reads of its registers. -/
theorem resetValuesAreThoseOfTheTable : Obligations.ResetValuesAreThoseOfTheTable := by
  refine ⟨fun c => ?_, rfl⟩
  obtain ⟨h0, h1, h2, h3, h4, h5, h6⟩ := readValue_named_resetWith c
  exact ⟨rfl, fun _ => rfl, List.length_replicate, List.length_replicate, fun hd hmem => List.eq_of_mem_replicate hmem,
    rfl, rfl, rfl, h0, h1, h2, h3, h4, h5, h6, readValue_delay_resetWith c⟩

end Sys2Proof.Machine
end

section
/-! Quantization (40_codec.md R104) and the crossfade (41_delay_buffer.md R122, R123). -/

namespace Sys2Proof.Machine

/-! ### Quantization -/

/-- The low bits of a number that fits them are it. -/
theorem toInt_ofNat_emod {z : Int} {w k : Nat} (hwk : w ≤ k) (hlo : -2 ^ w ≤ z * 2) (hhi : z * 2 < 2 ^ w) :
    (BitVec.ofNat w (z % 2 ^ k).toNat).toInt = z := by
  have hnonneg : 0 ≤ z % 2 ^ k := Int.emod_nonneg _ (by positivity)
  have hdvd : ((2 ^ w : Nat) : Int) ∣ 2 ^ k := by
    push_cast
    exact pow_dvd_pow 2 hwk
  rw [← BitVec.ofInt_natCast, Int.toNat_of_nonneg hnonneg, BitVec.toInt_ofInt, ← Int.emod_bmod,
    Int.emod_emod_of_dvd _ hdvd, Int.emod_bmod]
  exact Int.bmod_eq_of_le_mul_two (by push_cast; exact hlo) (by push_cast; exact hhi)

theorem Depth.bits_le_bps (d : Depth) : d.bits ≤ 8 * d.bps := by cases d <;> decide

/-- Encoding then decoding is the floored division by 2^(16-d) and back (R104). -/
theorem toInt_decode_encode (x : Sample) (d : Depth) :
    (decodeSample (encodeSample x d) d).toInt = x.toInt / 2 ^ (16 - d.bits) * 2 ^ (16 - d.bits) := by
  have hlo := x.le_toInt
  have hhi := x.toInt_lt
  have hcode : (BitVec.ofNat d.bits (encodeSample x d)).toInt = x.toInt / 2 ^ (16 - d.bits) := by
    refine toInt_ofNat_emod d.bits_le_bps ?_ ?_ <;> cases d <;> simp only [Depth.bits] <;> omega
  rw [toInt_decodeSample, hcode]

/-- Quantization clears the low bits of the two's complement pattern (R104). -/
theorem decode_encode_eq_shift (x : Sample) (d : Depth) :
    decodeSample (encodeSample x d) d = (x >>> (16 - d.bits)) <<< (16 - d.bits) := by
  have hlt := x.isLt
  have hval := toInt_decode_encode x d
  apply BitVec.eq_of_toNat_eq
  rw [BitVec.toInt_eq_toNat_cond, BitVec.toInt_eq_toNat_cond] at hval
  rw [BitVec.toNat_shiftLeft, BitVec.toNat_ushiftRight, Nat.shiftLeft_eq, Nat.shiftRight_eq_div_pow]
  generalize decodeSample (encodeSample x d) d = y at hval
  have hy := y.isLt
  cases d <;> simp only [Depth.bits] at hval ⊢ <;> omega

/-- Settles O20: the law of R104 as arithmetic on floored division by 2^(16-d). -/
theorem quantizationClearsTheLowBits : Obligations.QuantizationClearsTheLowBits := by
  refine ⟨fun x d => ?_, fun x => ?_, fun x y d hxy => ?_⟩
  · have hscale : (0 : Int) < 2 ^ (16 - d.bits) := by positivity
    have hfloor := Int.ediv_mul_le x.toInt hscale.ne'
    have hceil := Int.lt_ediv_add_one_mul_self x.toInt hscale
    refine ⟨toInt_decode_encode x d, decode_encode_eq_shift x d, ?_, ?_, ?_⟩
    · simp only [toInt_decode_encode]
      omega
    · simp only [toInt_decode_encode]
      rw [add_mul] at hceil
      omega
    · simp only [toInt_decode_encode, Int.mul_ediv_cancel _ hscale.ne']
  · simp [toInt_decode_encode, Depth.bits]
  · simp only [toInt_decode_encode]
    exact Int.mul_le_mul_of_nonneg_right (Int.ediv_le_ediv (by positivity) hxy) (by positivity)

/-! ### The crossfade -/

/-- The weighted sum that the crossfade divides by W (R122). -/
def blendSum (c : Config) (o n : Sample) (r : Nat) : Int := o.toInt * r + n.toInt * ((c.fadeWindow : Int) - r)

section
variable {c : Config} {r : Nat}

/-- The weighted mean is no smaller than a lower bound of both samples. -/
theorem le_blendSum_div (hW : 0 < c.fadeWindow) (hr : r ≤ c.fadeWindow) {o n : Sample} {m : Int} (ho : m ≤ o.toInt)
    (hn : m ≤ n.toInt) : m ≤ blendSum c o n r / c.fadeWindow := by
  apply Int.le_ediv_of_mul_le (by omega)
  unfold blendSum
  nlinarith

/-- The weighted mean is no larger than an upper bound of both samples. -/
theorem blendSum_div_le (hW : 0 < c.fadeWindow) (hr : r ≤ c.fadeWindow) {o n : Sample} {m : Int} (ho : o.toInt ≤ m)
    (hn : n.toInt ≤ m) : blendSum c o n r / c.fadeWindow ≤ m := by
  apply Int.ediv_le_of_le_mul (by omega)
  unfold blendSum
  nlinarith

/-- The crossfade does not overflow (R123). -/
theorem toInt_blend (hW : 0 < c.fadeWindow) (hr : r ≤ c.fadeWindow) (o n : Sample) :
    (blend c o n r).toInt = blendSum c o n r / c.fadeWindow := by
  have hlo : -32768 ≤ blendSum c o n r / c.fadeWindow := le_blendSum_div hW hr o.le_toInt n.le_toInt
  have hhi : blendSum c o n r / c.fadeWindow ≤ 32767 :=
    blendSum_div_le hW hr (Int.le_of_lt_add_one o.toInt_lt) (Int.le_of_lt_add_one n.toInt_lt)
  rw [show blend c o n r = BitVec.ofInt 16 (blendSum c o n r / c.fadeWindow) from rfl, BitVec.toInt_ofInt]
  exact Int.bmod_eq_of_le_mul_two (by omega) (by omega)

/-- As the weight of the outgoing sample falls, the sum moves toward the incoming one (R123). -/
theorem blendSum_mono {r' : Nat} (h : r' ≤ r) {o n : Sample} (hon : o.toInt ≤ n.toInt) :
    blendSum c o n r ≤ blendSum c o n r' := by
  unfold blendSum
  nlinarith

theorem blendSum_anti {r' : Nat} (h : r' ≤ r) {o n : Sample} (hno : n.toInt ≤ o.toInt) :
    blendSum c o n r' ≤ blendSum c o n r := by
  unfold blendSum
  nlinarith

end

/-- Settles O24: each property of R123 is one of the weighted sum, divided by W. -/
theorem blendIsExactConvexAndMonotonic : Obligations.BlendIsExactConvexAndMonotonic := by
  intro c o n r hl hr1 hrW
  have hW : 0 < c.fadeWindow := hl.2.2.2.1.1
  have hWi : (0 : Int) < c.fadeWindow := by omega
  have hval := toInt_blend (c := c) hW hrW
  refine ⟨hval o n, ?_, ?_, ?_, ?_, fun r' hr1' hr' => ⟨fun hon => ?_, fun hno => ?_⟩⟩
  · rw [hval]
    exact le_blendSum_div hW hrW (min_le_left _ _) (min_le_right _ _)
  · rw [hval]
    exact blendSum_div_le hW hrW (le_max_left _ _) (le_max_right _ _)
  · apply BitVec.eq_of_toInt_eq
    rw [toInt_blend hW le_rfl, blendSum, sub_self, mul_zero, add_zero, Int.mul_ediv_cancel _ hWi.ne']
  · apply BitVec.eq_of_toInt_eq
    rw [hval, blendSum, ← mul_add, add_sub_cancel, Int.mul_ediv_cancel _ hWi.ne']
  · rw [hval, toInt_blend hW (hr'.trans hrW)]
    exact Int.ediv_le_ediv hWi (blendSum_mono hr' hon)
  · rw [hval, toInt_blend hW (hr'.trans hrW)]
    exact Int.ediv_le_ediv hWi (blendSum_anti hr' hno)

end Sys2Proof.Machine
end

section
/-! What WRITE_BLOCK leaves in the arena (41_delay_buffer.md R125), and what a depth change makes of its bytes
(20_memory.md R63). -/

namespace Sys2Proof.Machine

/-! ### Slot addresses -/

/-- A slot's address depends on the index modulo N only (R61). -/
theorem slotAddr_congr {c : Config} (b : Buffer) {i j : Nat} (h : i % b.slots c = j % b.slots c) :
    b.slotAddr c i = b.slotAddr c j := by
  rw [Buffer.slotAddr, h, Buffer.slotAddr]

theorem slotAddr_mod (c : Config) (b : Buffer) (i : Nat) : b.slotAddr c (i % b.slots c) = b.slotAddr c i :=
  slotAddr_congr b (Nat.mod_mod _ _)

theorem slotRead_mod (c : Config) (b : Buffer) (i : Nat) : slotRead c b (i % b.slots c) = slotRead c b i :=
  slotRead_congr (Nat.mod_mod _ _)

/-- The address of an index on the ring (R60). -/
theorem slotAddr_of_lt {c : Config} {b : Buffer} {i : Nat} (h : i < b.slots c) :
    b.slotAddr c i = i * b.depth.bps := by
  rw [Buffer.slotAddr, Nat.mod_eq_of_lt h]

/-- Steps of less than a whole turn from one position lead to different positions. -/
theorem add_mod_inj {n a i j : Nat} (hi : i < n) (hj : j < n) (h : (a + i) % n = (a + j) % n) : i = j :=
  Nat.ModEq.eq_of_lt_of_lt (Nat.ModEq.add_left_cancel' a h) hi hj

/-! ### One sample -/

@[simp] theorem writeSample_slotAddr (c : Config) (b : Buffer) (x : Sample) (i : Nat) :
    (writeSample c b x).slotAddr c i = b.slotAddr c i := rfl

/-- The sample WRITE_BLOCK stores: blended with the slot's content while the write fade runs (R125). -/
def storedSample (c : Config) (b : Buffer) (x : Sample) : Sample :=
  if 0 < b.wfade then blend c (slotRead c b b.wh) x b.wfade else x

theorem slotRead_writeSample (c : Config) (b : Buffer) (x : Sample) (i : Nat) :
    slotRead c (writeSample c b x) i = slotRead c (slotWrite c b b.wh (storedSample c b x)) i := rfl

/-- The slot under the write head holds the stored sample, quantized. -/
theorem slotRead_writeSample_same {c : Config} {b : Buffer} (hwf : b.arena.wf) (x : Sample) :
    slotRead c (writeSample c b x) b.wh = decodeSample (encodeSample (storedSample c b x) b.depth) b.depth := by
  rw [slotRead_writeSample, slotRead_slotWrite_same hwf rfl]

/-- Every other slot is as it was. -/
theorem slotRead_writeSample_other {c : Config} {b : Buffer} {i : Nat} (h : i % b.slots c ≠ b.wh % b.slots c)
    (x : Sample) : slotRead c (writeSample c b x) i = slotRead c b i := by
  rw [slotRead_writeSample, slotRead_slotWrite_other b h]

/-- Every byte outside the slot under the write head is as it was (R121). -/
theorem read_writeSample_other {c : Config} {b : Buffer} {a : Nat}
    (h : a < b.slotAddr c b.wh ∨ b.slotAddr c b.wh + b.depth.bps ≤ a) (x : Sample) :
    (writeSample c b x).arena.read a = b.arena.read a :=
  memWrite_read_other b.arena _ h

/-- The write head's next positions, seen from where it was. -/
theorem writeSample_wh_add (c : Config) (b : Buffer) (x : Sample) (j : Nat) :
    ((writeSample c b x).wh + j) % b.slots c = (b.wh + (j + 1)) % b.slots c := by
  rw [writeSample_wh, Nat.mod_add_mod, Nat.add_assoc, Nat.add_comm 1 j]

/-! ### A block of samples -/

theorem writeSamples_depth (c : Config) (b : Buffer) (xs : List Sample) : (writeSamples c b xs).depth = b.depth := by
  induction xs generalizing b with
  | nil => rfl
  | cons x xs ih => rw [writeSamples_cons, ih, writeSample_depth]

theorem writeSamples_slots (c : Config) (b : Buffer) (xs : List Sample) :
    (writeSamples c b xs).slots c = b.slots c := by
  rw [Buffer.slots, writeSamples_depth, Buffer.slots]

/-- A block changes no byte outside its slots. -/
theorem read_writeSamples_other {c : Config} {b : Buffer} {xs : List Sample} {a : Nat}
    (h : ∀ j, j < xs.length → a < b.slotAddr c (b.wh + j) ∨ b.slotAddr c (b.wh + j) + b.depth.bps ≤ a) :
    (writeSamples c b xs).arena.read a = b.arena.read a := by
  induction xs generalizing b with
  | nil => rfl
  | cons x xs ih =>
    rw [writeSamples_cons, ih, read_writeSample_other (h 0 Nat.succ_pos') x]
    intro j hj
    rw [writeSample_slotAddr, slotAddr_congr b (writeSample_wh_add c b x j)]
    exact h (j + 1) (Nat.succ_lt_succ hj)

/-- A block leaves every slot alone that it does not store to. -/
theorem slotRead_writeSamples_other {c : Config} {b : Buffer} {xs : List Sample} {i : Nat}
    (h : ∀ j, j < xs.length → (b.wh + j) % b.slots c ≠ i % b.slots c) :
    slotRead c (writeSamples c b xs) i = slotRead c b i := by
  induction xs generalizing b with
  | nil => rfl
  | cons x xs ih =>
    rw [writeSamples_cons, ih, slotRead_writeSample_other (h 0 Nat.succ_pos').symm]
    intro j hj
    rw [writeSample_slots, writeSample_wh_add]
    exact h (j + 1) (Nat.succ_lt_succ hj)

/-- A block no longer than the ring leaves its j-th sample, blended while the write fade runs and quantized, in the
j-th slot from the write head on (R125). -/
theorem slotRead_writeSamples {c : Config} {b : Buffer} (hwf : b.arena.wf) {xs : List Sample}
    (hlen : xs.length ≤ b.slots c) {j : Nat} (hj : j < xs.length) :
    slotRead c (writeSamples c b xs) (b.wh + j) =
      decodeSample (encodeSample (if j < b.wfade then blend c (slotRead c b (b.wh + j)) (xs.getD j 0) (b.wfade - j)
        else xs.getD j 0) b.depth) b.depth := by
  induction xs generalizing b j with
  | nil => cases hj
  | cons x xs ih =>
    rw [List.length_cons] at hlen hj
    have hwf' : (writeSample c b x).arena.wf := memWrite_wf hwf _ _ _
    cases j with
    | zero =>
      rw [writeSamples_cons, slotRead_writeSamples_other, Nat.add_zero, slotRead_writeSample_same hwf]
      · rfl
      · intro k hk heq
        rw [writeSample_slots, writeSample_wh_add] at heq
        exact absurd (add_mod_inj (by omega) (by omega) heq) (Nat.succ_ne_zero k)
    | succ j =>
      have hne : (b.wh + (j + 1)) % b.slots c ≠ b.wh % b.slots c := fun heq =>
        Nat.succ_ne_zero j (add_mod_inj (n := b.slots c) (j := 0) (by omega) (by omega) heq)
      have hpos := writeSample_wh_add c b x j
      have hrest := ih hwf' (Nat.le_of_succ_le hlen) (Nat.lt_of_succ_lt_succ hj)
      rw [slotRead_congr (b := writeSample c b x) hpos, slotRead_writeSample_other hne] at hrest
      rw [writeSamples_cons, ← slotRead_congr (i := (writeSample c b x).wh + j)
        (by rw [writeSamples_slots]; exact hpos), hrest, writeSample_wfade, writeSample_depth, List.getD_cons_succ]
      simp only [Nat.lt_sub_iff_add_lt, Nat.sub_sub, Nat.add_comm 1 j]

/-! ### The obligations -/

/-- Settles O26: the block's slots, and the others. -/
theorem writeBlockFillsItsSlots : Obligations.WriteBlockFillsItsSlots := by
  intro s n _ hbuf hn hinq
  obtain ⟨-, -, hwf, -⟩ := hbuf
  have hlen : (s.inq.take n.toNat).length = n.toNat := List.length_take_of_le hinq
  refine ⟨_, exec_writeBlock_of_le hinq, fun j hj => ?_, fun i hi hother => ?_⟩
  · have hslot := slotRead_writeSamples hwf (xs := s.inq.take n.toNat) (hlen.trans_le hn) (hj.trans_eq hlen.symm)
    have hget : (s.inq.take n.toNat).getD j 0 = s.inq.getD j 0 := by
      rw [List.getD_eq_getElem?_getD, List.getElem?_take_of_lt hj, List.getD_eq_getElem?_getD]
    rw [hget] at hslot
    rw [State.slots, slotRead_mod s.cfg s.buf, writeBlock_cfg, writeBlock_buf,
      ← writeSamples_slots s.cfg s.buf (s.inq.take n.toNat), slotRead_mod]
    exact hslot
  · refine slotRead_writeSamples_other fun j hj => ?_
    exact (Nat.mod_eq_of_lt hi : i % s.slots = i).symm ▸ hother j (hj.trans_eq hlen)

/-- Settles O27: the registers after the block, and the bytes outside its slots. -/
theorem writeBlockChangesOnlyItsSlots : Obligations.WriteBlockChangesOnlyItsSlots := by
  intro s n hwh hn
  have hlen : (s.inq.take n.toNat).length = n.toNat := List.length_take_of_le hn
  obtain ⟨hdepth, hpos, hfade⟩ := writeSamples_registers s.cfg s.buf (s.inq.take n.toNat) hwh
  rw [hlen] at hpos hfade
  refine ⟨_, exec_writeBlock_of_le hn, hdepth, hpos, hfade, fun a ha => read_writeSamples_other fun j hj => ?_⟩
  rw [← slotAddr_mod]
  exact ha j (hlen ▸ hj)

/-! ### The bytes under another depth -/

/-- A two-byte word is its low and its high byte (R62). -/
theorem memRead_two (m : Memory) (a : Nat) : memRead m a 2 = memRead m a 1 + 256 * memRead m (a + 1) 1 := by
  simp [memRead]

/-- Two buffers on the same bytes, one with slots of two bytes and one with slots of one byte: slot j of the first is
slots 2j (low) and 2j + 1 (high) of the second (R60, R62). -/
theorem memRead_slot_two_eq {c : Config} {b₂ b₁ : Buffer} (h₂ : b₂.depth.bps = 2) (h₁ : b₁.depth.bps = 1)
    (harena : b₁.arena = b₂.arena) {j : Nat} (hj : j < b₂.slots c) :
    memRead b₂.arena (b₂.slotAddr c j) b₂.depth.bps =
      memRead b₁.arena (b₁.slotAddr c (2 * j)) b₁.depth.bps +
        256 * memRead b₁.arena (b₁.slotAddr c (2 * j + 1)) b₁.depth.bps := by
  have hj' : j < c.capacity / 2 := by rwa [Buffer.slots, slotsAt, h₂] at hj
  have hslots : b₁.slots c = c.capacity := by rw [Buffer.slots, slotsAt, h₁, Nat.div_one]
  have hlow : b₁.slotAddr c (2 * j) = b₂.slotAddr c j := by
    rw [slotAddr_of_lt hj, slotAddr_of_lt (by omega), h₁, h₂]
    omega
  have hhigh : b₁.slotAddr c (2 * j + 1) = b₂.slotAddr c j + 1 := by
    rw [slotAddr_of_lt hj, slotAddr_of_lt (by omega), h₁, h₂]
    omega
  rw [h₂, h₁, harena, hlow, hhigh, memRead_two]

/-- The same, from the two-byte slot to its bytes. -/
theorem memRead_slot_two_bytes {c : Config} {b₂ b₁ : Buffer} (h₂ : b₂.depth.bps = 2) (h₁ : b₁.depth.bps = 1)
    (harena : b₁.arena = b₂.arena) {j : Nat} (hj : j < b₂.slots c) :
    memRead b₁.arena (b₁.slotAddr c (2 * j)) b₁.depth.bps = memRead b₂.arena (b₂.slotAddr c j) b₂.depth.bps % 256 ∧
    memRead b₁.arena (b₁.slotAddr c (2 * j + 1)) b₁.depth.bps =
      memRead b₂.arena (b₂.slotAddr c j) b₂.depth.bps / 256 := by
  have hlow := memRead_lt b₁.arena (b₁.slotAddr c (2 * j)) 1
  rw [memRead_slot_two_eq h₂ h₁ harena hj, h₁]
  omega

/-- Settles O31: the arena's bytes stay, and a two-byte slot is two one-byte slots. -/
theorem depthChangeReinterpretsTheBytes : Obligations.DepthChangeReinterpretsTheBytes := by
  intro s t r _ hexec
  rw [exec_setBitDepth] at hexec
  cases hexec
  have harena := setDepth_arena (clampDepth r.toNat) s
  have hcfg := setDepth_cfg (clampDepth r.toNat) s
  simp only [State.slots, hcfg]
  exact ⟨fun h2 h1 j hj => memRead_slot_two_bytes h2 h1 harena hj,
    fun h1 h2 j hj => memRead_slot_two_eq h2 h1 harena.symm hj⟩

end Sys2Proof.Machine
end

section
/-! What READ_BLOCK plays, in closed form (42_play_head.md R150 to R154, R162). -/

namespace Sys2Proof.Machine

/-! ### READ_BLOCK on the list of heads -/

/-- Changing an entry that is there is setting it. -/
theorem modify_eq_set_of_getElem? {α : Type} {xs : List α} {i : Nat} {x : α} (h : xs[i]? = some x) (f : α → α) :
    xs.modify i f = xs.set i (f x) := by
  simp [List.modify_eq_set_getElem?, h]

/-- READ_BLOCK of a head that is there sets its bank to the one after the block (R162). -/
theorem exec_readBlock_set {s : State} {h : BitVec 4} {hd : Head} (hlt : h.toNat < s.cfg.numHeads)
    (hget : s.heads[h.toNat]? = some hd) (n : BitVec 16) :
    exec (.readBlock h n) s =
      .next { s with heads := s.heads.set h.toNat (readHead s.cfg s.buf n.toNat hd) } := by
  rw [exec_readBlock_of_lt hlt, modify_eq_set_of_getElem? hget]
  rfl

/-! ### The frame -/

/-- No sample clears LOOP_XF_DONE (R151). -/
theorem playSamples_xfDone (c : Config) (b : Buffer) (n : Nat) {hd : Head} (h : hd.xfDone = true) :
    (playSamples c b n hd).2.xfDone = true := by
  induction n generalizing hd with
  | zero => exact h
  | succ n ih =>
    refine ih ?_
    rw [playSample_snd]
    rcases advance_cases c (b.slots c) (fadeStep (b.slots c) hd) with ⟨-, he⟩ | ⟨-, -, -, he⟩ | ⟨-, -, -, he⟩ <;>
      rw [he] <;> simp [h]

/-- Settles O38: the registers READ_BLOCK leaves alone are those of the bank it gives back. -/
theorem readBlockChangesOnlyItsHead : Obligations.ReadBlockChangesOnlyItsHead := by
  intro h n s hd hlt hget
  obtain ⟨hlen, hen, hstart, hend, hdoff, -⟩ := playSamples_frame s.cfg s.buf n.toNat hd
  let hd' := (playSamples s.cfg s.buf n.toNat hd).2
  refine ⟨hd'.pos, hd'.xpos, hd'.xrem, hd'.xfDone, _, hlen, playSamples_xfDone s.cfg s.buf n.toNat, ?_⟩
  rw [exec_readBlock_set hlt hget, readHead]
  simp only [hd', ← hen, ← hstart, ← hend, ← hdoff]

/-! ### A head without a loop -/

/-- The j-th sample of a head without a loop: the two streams blended while the fade lasts, then the incoming one
(R153). -/
def fadedSample (c : Config) (b : Buffer) (hd : Head) (j : Nat) : Sample :=
  if j < hd.xrem then blend c (slotRead c b (hd.xpos + j)) (slotRead c b (hd.pos + j)) (hd.xrem - j)
  else slotRead c b (hd.pos + j)

/-- A head without a loop after n samples (R150, R151). -/
def unloopedAfter (m n : Nat) (hd : Head) : Head :=
  { hd with pos := (hd.pos + n) % m, xpos := (hd.xpos + min n hd.xrem) % m, xrem := hd.xrem - n }

/-- One sample of a head without a loop. -/
theorem playSample_of_unlooped {c : Config} {b : Buffer} {hd : Head} (hen : hd.loopEn = false)
    (hx : hd.xpos < b.slots c) :
    playSample c b hd = (fadedSample c b hd 0, unloopedAfter (b.slots c) 1 hd) := by
  obtain ⟨pos, xpos, xrem, loopEn, loopStart, loopEnd, xfDone, doff, out⟩ := hd
  subst hen
  cases xrem with
  | zero => simp [playSample, advance_eq, fadedSample, unloopedAfter, Nat.mod_eq_of_lt hx]
  | succ r => simp [playSample, advance_eq, fadedSample, unloopedAfter]

theorem slotRead_mod_add (c : Config) (b : Buffer) (i j : Nat) :
    slotRead c b (i % b.slots c + j) = slotRead c b (i + j) := slotRead_congr (Nat.mod_add_mod i _ j)

/-- The samples of the head that the first sample left are the later ones of the head before it. -/
theorem fadedSample_unloopedAfter_one (c : Config) (b : Buffer) (hd : Head) :
    fadedSample c b (unloopedAfter (b.slots c) 1 hd) = fun j => fadedSample c b hd (j + 1) := by
  funext j
  simp only [fadedSample, unloopedAfter, slotRead_mod_add, Nat.lt_sub_iff_add_lt, Nat.sub_sub, Nat.add_assoc,
    Nat.add_comm 1 j]
  split
  · rw [Nat.min_eq_left (by omega), Nat.add_comm 1 j]
  · rfl

/-- A sample and n more are n + 1. -/
theorem unloopedAfter_one_add (m n : Nat) (hd : Head) :
    unloopedAfter m n (unloopedAfter m 1 hd) = unloopedAfter m (n + 1) hd := by
  have hfade : min 1 hd.xrem + min n (hd.xrem - 1) = min (n + 1) hd.xrem := by omega
  simp only [unloopedAfter, Nat.mod_add_mod, Nat.add_assoc, hfade, Nat.sub_sub, Nat.add_comm 1 n]

/-- What a head without a loop plays, and where it ends (R150, R153). -/
theorem playSamples_of_unlooped {c : Config} {b : Buffer} (n : Nat) {hd : Head} (hen : hd.loopEn = false)
    (hp : hd.pos < b.slots c) (hx : hd.xpos < b.slots c) :
    playSamples c b n hd = ((List.range n).map (fadedSample c b hd), unloopedAfter (b.slots c) n hd) := by
  induction n generalizing hd with
  | zero => simp [unloopedAfter, Nat.mod_eq_of_lt, hp, hx]
  | succ n ih =>
    have hn : 0 < b.slots c := Nat.zero_lt_of_lt hp
    rw [playSamples_succ, playSample_of_unlooped hen hx,
      ih (hd := unloopedAfter (b.slots c) 1 hd) hen (Nat.mod_lt _ hn) (Nat.mod_lt _ hn),
      fadedSample_unloopedAfter_one, unloopedAfter_one_add, List.range_succ_eq_map, List.map_cons, List.map_map]
    rfl

/-- Settles O36. -/
theorem readBlockFadesThenFollowsTheIncomingStream : Obligations.ReadBlockFadesThenFollowsTheIncomingStream := by
  intro h n s hd hlt hget hen hp hx
  rw [exec_readBlock_set hlt hget, readHead, playSamples_of_unlooped n.toNat hen hp hx]
  simp only [State.slots, slotRead_mod]
  rfl

/-! ### A looping head past its first wrap -/

/-- A position is as far round the ring from another as their wrapped difference says (R9). -/
theorem add_wrap_sub {n a b : Nat} (ha : a < n) (hb : b < n) : (b + wrap ((a : Int) - b) n) % n = a := by
  rw [wrap_sub_eq ha hb]
  split
  · rw [Nat.add_sub_cancel' ‹_›, Nat.mod_eq_of_lt ha]
  · rw [show b + (a + n - b) = a + n by omega, Nat.add_mod_right, Nat.mod_eq_of_lt ha]

/-- A step of a looping head past its first wrap, counted in its region of `len` slots (R151, R154). -/
theorem advance_in_region (c : Config) {n len k : Nat} {hd : Head} (hen : hd.loopEn = true) (hdone : hd.xfDone = true)
    (hstart : hd.loopStart < n) (hlen : len < n) (hend : hd.loopEnd = (hd.loopStart + len) % n) (hk : k < len)
    (hpos : hd.pos = (hd.loopStart + k) % n) :
    advance c n hd = { hd with pos := (hd.loopStart + (k + 1) % len) % n } := by
  have hnext : (hd.pos + 1) % n = (hd.loopStart + (k + 1)) % n := by
    rw [hpos, Nat.mod_add_mod, Nat.add_assoc]
  rw [advance_eq]
  simp only [hen, hdone, true_and, if_true, hnext]
  split
  · rename_i hwrap
    have hlast : k + 1 = len := add_mod_inj (by omega) hlen (hwrap.trans hend)
    rw [hlast, Nat.mod_self, Nat.add_zero, Nat.mod_eq_of_lt hstart]
  · rename_i hgo
    have hne : k + 1 ≠ len := fun h => hgo (by rw [h, hend])
    rw [Nat.mod_eq_of_lt (a := k + 1) (by omega)]

/-- A looping head past its first wrap and its fade plays its region round and round (R154). -/
theorem playSamples_in_region {c : Config} {b : Buffer} {len : Nat} (n : Nat) {k : Nat} {hd : Head}
    (hen : hd.loopEn = true) (hdone : hd.xfDone = true) (hrem : hd.xrem = 0) (hstart : hd.loopStart < b.slots c)
    (hlen : len < b.slots c) (hend : hd.loopEnd = (hd.loopStart + len) % b.slots c) (hk : k < len)
    (hpos : hd.pos = (hd.loopStart + k) % b.slots c) :
    playSamples c b n hd =
      ((List.range n).map (fun j => slotRead c b (hd.loopStart + (k + j) % len)),
        { hd with pos := (hd.loopStart + (k + n) % len) % b.slots c }) := by
  induction n generalizing k hd with
  | zero => simp [Nat.mod_eq_of_lt hk, ← hpos]
  | succ n ih =>
    have hplay : playSample c b hd = (slotRead c b (hd.loopStart + k % len),
        { hd with pos := (hd.loopStart + (k + 1) % len) % b.slots c }) := by
      refine Prod.ext ?_ ?_
      · rw [playSample_fst, hrem, if_neg (Nat.lt_irrefl 0), hpos, slotRead_mod, Nat.mod_eq_of_lt hk]
      · rw [playSample_snd, show fadeStep (b.slots c) hd = hd from if_neg (by omega)]
        exact advance_in_region c hen hdone hstart hlen hend hk hpos
    rw [playSamples_succ, hplay, ih (hd := { hd with pos := (hd.loopStart + (k + 1) % len) % b.slots c })
      hen hdone hrem hstart hend (Nat.mod_lt _ (by omega)) rfl]
    simp only [List.range_succ_eq_map, List.map_cons, List.map_map, Function.comp_def, Nat.succ_eq_add_one,
      Nat.mod_add_mod, Nat.add_assoc, Nat.add_comm 1, Nat.add_zero]

/-- Settles O37: the head's place in its region is its wrapped distance from the region's start. -/
theorem loopingHeadRepeatsItsRegion : Obligations.LoopingHeadRepeatsItsRegion := by
  intro h n s hd hlt hget hinv hen hdone hrem
  obtain ⟨⟨hp, -, hs, he, -⟩, -, hloop⟩ := hinv
  obtain ⟨-, hin⟩ := hloop hen
  rw [exec_readBlock_set hlt hget, readHead, playSamples_in_region n.toNat hen hdone hrem hs
    (wrap_lt (Nat.zero_lt_of_lt hp) _) (add_wrap_sub he hs).symm (inregion_iff.mp hin) (add_wrap_sub hp hs).symm]
  simp only [State.slots, slotRead_mod]

end Sys2Proof.Machine
end

section
/-! What the two ports keep apart (10_state.md R30, R38; 44_staging.md R220; 60_exceptions.md R272, R278). -/

namespace Sys2Proof.Machine

/-! ### The control port -/

/-- Settles O57: a transaction sets the staging registers or ERRSTAT, or appends a word that a read returns. -/
theorem controlPortNeverTouchesLiveState : Obligations.ControlPortNeverTouchesLiveState := by
  intro i s t hport h
  rcases exec_controlPort_cases hport h with
    ⟨g, rfl⟩ | ⟨d, -, rfl⟩ | ⟨a, d, -, rfl⟩ | ⟨head, d, -, -, rfl⟩ | ⟨a, d, -, rfl⟩
  case' inr.inr.inr.inr => exact ⟨rfl, rfl, rfl, rfl, rfl, rfl, rfl, rfl, rfl, rfl, .inr ⟨rfl, rfl⟩⟩
  all_goals exact ⟨rfl, rfl, rfl, rfl, rfl, rfl, rfl, rfl, rfl, rfl, .inl rfl⟩

/-! ### Errors -/

/-- What an instruction can do to ERRSTAT: leave it, record an error and do nothing else, or be its write (R272,
R227). -/
theorem exec_err_cases {i : Instr} {s t : State} (h : exec i s = .next t) :
    t.err = s.err ∨ (∃ cause info, t = cmdError cause info s) ∨
    (∃ d, i = .cpwErrstat d ∧ t = s.setErr (if d.extractLsb' 0 1 = 1#1 then errNone else s.err)) := by
  cases hport : onEnginePort i
  · rcases exec_controlPort_cases hport h with
      ⟨g, rfl⟩ | ⟨d, hi, rfl⟩ | ⟨a, d, -, rfl⟩ | ⟨head, d, -, -, rfl⟩ | ⟨a, d, -, rfl⟩
    · exact .inl rfl
    · exact .inr (.inr ⟨d, hi, rfl⟩)
    · exact .inr (.inl ⟨_, _, rfl⟩)
    · exact .inr (.inl ⟨_, _, rfl⟩)
    · exact .inl rfl
  · rcases exec_enginePort_cases hport h with
      rfl | ⟨-, rfl⟩ | ⟨w, rfl⟩ | ⟨n, rfl⟩ | ⟨x, rfl⟩ | ⟨d, rfl⟩ | ⟨opc, head, f, -, rfl⟩
    · exact .inl rfl
    · obtain ⟨-, -, -, -, -, herr, -⟩ := processBlock_frame s
      exact .inl herr
    · exact .inl rfl
    · exact .inl rfl
    · exact .inl rfl
    · exact .inl (setDepth_err d s)
    · rcases s.onHead_cases opc head f with he | he <;> rw [he]
      · exact .inl rfl
      · exact .inr (.inl ⟨_, _, rfl⟩)

/-- While an error is recorded, recording another changes nothing (R272). -/
theorem cmdError_of_err {s : State} (h : s.err.err = true) (cause : ErrCause) (info : BitVec 8) :
    cmdError cause info s = s := by
  rw [cmdError, recordErr, if_pos h, State.setErr_self]

/-- Settles O60: by what an instruction can do to ERRSTAT. -/
theorem firstErrorIsKeptUntilCleared : Obligations.FirstErrorIsKeptUntilCleared := by
  intro i s t h
  rcases exec_err_cases h with herr | ⟨cause, info, rfl⟩ | ⟨d, rfl, rfl⟩
  · exact ⟨fun _ => .inl herr, fun hs ht => by rw [herr, hs] at ht; cases ht⟩
  · exact ⟨fun hs => .inl (by rw [cmdError_of_err hs]), fun _ _ => rfl⟩
  · by_cases hclear : d.extractLsb' 0 1 = 1#1
    · exact ⟨fun _ => .inr ⟨d, rfl, hclear⟩, fun _ ht => by simp [hclear, errNone] at ht⟩
    · exact ⟨fun _ => .inl (by rw [State.setErr_err, if_neg hclear]), fun hs ht => by simp [hclear, hs] at ht⟩

/-! ### Engine commands and the staging registers -/

theorem State.onHead_setStg (s : State) (g : Staging) (opc : BitVec 8) (head : BitVec 4) (f : Head → Head) :
    (s.setStg g).onHead opc head f = (s.onHead opc head f).setStg g := by
  unfold State.onHead
  rw [apply_ite (State.setStg · g)]
  rfl

@[simp] theorem State.onHead_stg (s : State) (opc : BitVec 8) (head : BitVec 4) (f : Head → Head) :
    (s.onHead opc head f).stg = s.stg := by
  rcases s.onHead_cases opc head f with h | h <;> rw [h] <;> rfl

theorem setDepth_setStg (d : Depth) (s : State) (g : Staging) :
    setDepth d (s.setStg g) = (setDepth d s).setStg g := by
  unfold setDepth
  rw [apply_ite (State.setStg · g)]
  rfl

/-- An engine command but PROCESS_BLOCK leaves the staging registers alone and does the same whatever they hold
(R30). -/
theorem exec_setStg {i : Instr} {s t : State} (g : Staging) (hport : onEnginePort i = true) (hi : i ≠ .processBlock)
    (h : exec i s = .next t) : t.stg = s.stg ∧ exec i (s.setStg g) = .next (t.setStg g) := by
  cases i with
  | processBlock => exact absurd rfl hi
  | nop | encode | decode | readSample | setWriteHead | delayFromRatio | delayFromMs => cases h; exact ⟨rfl, rfl⟩
  | setBitDepth d =>
    rw [exec_setBitDepth] at h ⊢
    cases h
    exact ⟨setDepth_stg _ s, congrArg _ (setDepth_setStg _ s g)⟩
  | writeBlock n =>
    rcases Nat.lt_or_ge s.inq.length n.toNat with hlt | hge
    · obtain ⟨-, hshort, -⟩ := inputHoldLeavesTheCommandWaiting
      rw [hshort s n hlt] at h
      cases h
      exact ⟨rfl, hshort _ n hlt⟩
    · rw [exec_writeBlock_of_le hge] at h
      cases h
      exact ⟨rfl, exec_writeBlock_of_le (s := s.setStg g) hge⟩
  | setPlayHead | readBlock | enableLoop | disableLoop | shiftLoop =>
    cases h
    exact ⟨State.onHead_stg s _ _ _, congrArg _ (State.onHead_setStg s g _ _ _)⟩
  | cpwErrstat | cpwBitDepth | cpwLoopSize | cpwFreeze | cpwGlitch | cpwSpeed | cpwDelay | cpwRefused | cpr =>
    cases hport

/-- Settles O58. -/
theorem engineCommandsIgnoreStaging : Obligations.EngineCommandsIgnoreStaging :=
  fun _ _ _ g hport hi h => exec_setStg g hport hi h

/-! ### The staged speed -/

/-- The state with another staged speed. -/
def State.setSpeed (s : State) (v : BitVec 16) : State := s.setStg { s.stg with speed := v }

/-- Of the five apply steps none reads SPEED (R230 to R235). -/
theorem applyStaged_setSpeed (s : State) (v : BitVec 16) :
    applyStaged (s.setSpeed v) = ((applyStaged s).1.setSpeed v, (applyStaged s).2) := by
  have hdepth : applyDepth (s.setSpeed v) = (applyDepth s).setSpeed v := by
    rw [State.setSpeed, State.setSpeed, applyDepth_stg]
    exact setDepth_setStg _ s _
  unfold applyStaged
  rw [hdepth]
  generalize applyDepth s = u
  unfold applyGlitch
  cases hp : u.stg.glitchPending <;> simp [State.setSpeed, hp] <;> rfl

/-- The shift cadence reads no staging register (R195). -/
theorem shiftTick_setStg (s : State) (g : Staging) : shiftTick (s.setStg g) = (shiftTick s).setStg g := by
  unfold shiftTick
  rw [apply_ite (State.setStg · g), apply_ite (State.setStg · g)]
  rfl

theorem glitchTick_setStg (r : Bool) (s : State) (g : Staging) :
    glitchTick r (s.setStg g) = (glitchTick r s).setStg g := by
  unfold glitchTick
  simp only
  rw [apply_ite (State.setStg · g), ← shiftTick_setStg]
  rfl

/-- The controller step reads no staging register (R193). -/
theorem controllerStep_setStg (r : Bool) (s : State) (g : Staging) :
    controllerStep r (s.setStg g) = (controllerStep r s).setStg g := by
  simp only [controllerStep, State.setStg_ctl]
  cases s.ctl.cstate with
  | idle | armed | releasing => rfl
  | active =>
    cases s.ctl.cmode with
    | glitch => exact glitchTick_setStg r s g
    | freeze => rfl

/-- PROCESS_BLOCK does the same at every staged speed (R38). -/
theorem processBlock_setSpeed (s : State) (v : BitVec 16) :
    processBlock (s.setSpeed v) = (processBlock s).setSpeed v := by
  have hcontrol : applyAndControl (s.setSpeed v) = (applyAndControl s).setSpeed v := by
    obtain ⟨-, -, hstg, -⟩ := controllerStep_frame (applyStaged s).2 (applyStaged s).1
    rw [applyAndControl, applyStaged_setSpeed, State.setSpeed, controllerStep_setStg, applyAndControl, State.setSpeed,
      hstg]
  rw [processBlock, hcontrol]
  rfl

/-- A read of another register than SPEED returns the same at every staged speed. -/
theorem readValue_setSpeed {a : BitVec 8} (ha : a ≠ 0x06#8) (s : State) (v : BitVec 16) :
    readValue a (s.setSpeed v) = readValue a s := by
  simp only [readValue, ha, if_false]
  rfl

/-- Settles O59: engine commands but PROCESS_BLOCK ignore staging, PROCESS_BLOCK commutes with a change of the speed,
and a transaction but the write and the read of SPEED reads and writes other fields. -/
theorem speedHasNoEffect : Obligations.SpeedHasNoEffect := by
  intro i s t v hwrite hread h
  show t.stg.speed = s.stg.speed ∧ exec i (s.setSpeed v) = .next (t.setSpeed v)
  cases hport : onEnginePort i
  · cases i with
    | nop | processBlock | encode | decode | writeBlock | readSample | setWriteHead | setBitDepth | delayFromRatio
    | delayFromMs | setPlayHead | readBlock | enableLoop | disableLoop | shiftLoop => cases hport
    | cpwBitDepth | cpwLoopSize | cpwFreeze | cpwGlitch | cpwRefused => cases h; exact ⟨rfl, rfl⟩
    | cpwSpeed d => exact absurd rfl (hwrite d)
    | cpwErrstat d =>
      rw [exec_cpwErrstat] at h ⊢
      cases h
      exact ⟨rfl, rfl⟩
    | cpwDelay head d =>
      rcases Nat.lt_or_ge head.toNat s.cfg.numHeads with hlt | hge
      · rw [exec_cpwDelay_of_lt hlt] at h
        cases h
        exact ⟨rfl, exec_cpwDelay_of_lt (s := s.setSpeed v) hlt d⟩
      · rw [exec_cpwDelay_of_ge hge] at h
        cases h
        exact ⟨rfl, exec_cpwDelay_of_ge (s := s.setSpeed v) hge d⟩
    | cpr a d =>
      have ha : a ≠ 0x06#8 := fun heq => hread d (congrArg (Instr.cpr · d) heq)
      cases h
      rw [exec_cpr, readValue_setSpeed ha]
      exact ⟨rfl, rfl⟩
  · by_cases hi : i = .processBlock
    · subst hi
      rcases Nat.lt_or_ge s.inq.length s.cfg.blockSize with hlt | hge
      · obtain ⟨-, -, hshort⟩ := inputHoldLeavesTheCommandWaiting
        rw [hshort s hlt] at h
        cases h
        exact ⟨rfl, hshort (s.setSpeed v) hlt⟩
      · rw [exec_processBlock_of_le hge] at h
        cases h
        obtain ⟨-, -, -, -, hstg, -⟩ := processBlock_frame s
        refine ⟨by rw [hstg], ?_⟩
        rw [exec_processBlock_of_le (s := s.setSpeed v) hge, processBlock_setSpeed]
    · obtain ⟨hstg, hexec⟩ := exec_setStg { s.stg with speed := v } hport hi h
      refine ⟨by rw [hstg], ?_⟩
      rw [State.setSpeed, hexec, State.setSpeed, hstg]

end Sys2Proof.Machine
end

section
/-! PROCESS_BLOCK as a whole (45_callback.md R250): what its apply step and its controller step come to, as one
operation on every head and the controller's next registers. -/

namespace Sys2Proof.Machine

/-! ### The controller step as an operation on every head -/

/-- What the controller step performs on every head (R193): nothing, ENABLE_LOOP on entry, DISABLE_LOOP on release, or
SHIFT_LOOP where the shift timer runs out. -/
inductive LoopStep where
  | keep | enter | release | shift

/-- The operation on one head, at the state the apply step left (R194 to R196). -/
def LoopStep.onHead (s : State) : LoopStep → Head → Head
  | .keep => id
  | .enter => enableLoopHead s.cfg s.slots (windowStart s) (windowEnd s)
  | .release => disableLoopHead
  | .shift => shiftLoopHead s.slots (shiftOffset s)

/-- What the controller step performs, and the controller after it, by the controller the apply step left (R193). -/
def loopStep (c : Config) (reloaded : Bool) (k : Controller) : LoopStep × Controller :=
  match k.cstate with
  | .idle => (.keep, k)
  | .armed => (.enter, { k with
      cstate := .active, shiftFwd := true, shiftTimer := c.shiftPeriod, shiftCount := 0 })
  | .releasing => (.release, { k with cstate := .idle })
  | .active =>
    match k.cmode with
    | .freeze => (.keep, k)
    | .glitch =>
      let u := if reloaded = true then k.updates else k.updates - 1
      if u = 0 then (.release, { k with cstate := .idle, updates := 0 })
      else if c.shiftPeriod = 0 then (.keep, { k with updates := u })
      else if k.shiftTimer ≤ 1 then (.shift, shiftedCtl c { k with updates := u })
      else (.keep, { k with updates := u, shiftTimer := k.shiftTimer - 1 })

theorem setHeads_map_id (s : State) : s.setHeads (s.heads.map id) = s := by
  rw [List.map_id, State.setHeads_self]

/-- The controller step is its operation on every head and the controller after it. -/
theorem controllerStep_eq (reloaded : Bool) (s : State) :
    controllerStep reloaded s =
      (s.setHeads (s.heads.map ((loopStep s.cfg reloaded s.ctl).1.onHead s))).setCtl
        (loopStep s.cfg reloaded s.ctl).2 := by
  rcases controllerStep_cases reloaded s with ⟨hc | ⟨hc, hm⟩, he⟩ | ⟨hc, he⟩ | ⟨hc, he⟩ | ⟨hc, hm, hu, he⟩ |
    ⟨hc, hm, hu, he⟩ <;> rw [he]
  · simp only [loopStep, hc, LoopStep.onHead, setHeads_map_id, State.setCtl_self]
  · simp only [loopStep, hc, hm, LoopStep.onHead, setHeads_map_id, State.setCtl_self]
  · simp only [loopStep, hc, LoopStep.onHead]
  · simp only [loopStep, hc, LoopStep.onHead]
  · simp only [loopStep, hc, hm, hu, if_true, LoopStep.onHead]
  · rcases shiftTick_cases (s.setCtl { s.ctl with
        updates := if reloaded = true then s.ctl.updates else s.ctl.updates - 1 }) with
      ⟨hp, ht⟩ | ⟨hp, htimer, ht⟩ | ⟨hp, htimer, ht⟩ <;> rw [ht] <;>
      simp only [State.setCtl_cfg, State.setCtl_ctl] at *
    · simp only [loopStep, hc, hm, hu, hp, if_true, if_false, LoopStep.onHead, setHeads_map_id]
    · simp only [loopStep, hc, hm, hu, hp, htimer, if_true, if_false, LoopStep.onHead]
      rfl
    · simp only [loopStep, hc, hm, hu, hp, Nat.not_le.mpr htimer, if_false, LoopStep.onHead, setHeads_map_id]
      rfl

/-- No operation of the controller step changes a head's DOFF or OUT. -/
theorem LoopStep.onHead_frame (s : State) (op : LoopStep) (hd : Head) :
    (op.onHead s hd).doff = hd.doff ∧ (op.onHead s hd).out = hd.out := by
  cases op with
  | keep => exact ⟨rfl, rfl⟩
  | enter =>
    obtain ⟨-, -, -, -, hdoff, hout⟩ := enableLoopHead_frame s.cfg s.slots (windowStart s) (windowEnd s) hd
    exact ⟨hdoff, hout⟩
  | release => exact ⟨rfl, rfl⟩
  | shift =>
    simp only [LoopStep.onHead, shiftLoopHead]
    split <;> exact ⟨rfl, rfl⟩

/-! ### The requests -/

/-- The loop size that the apply step makes live (R233). -/
def stagedLss (s : State) : Nat := loopSamples (slotsAt s.cfg s.stg.bitDepth) s.stg.loopSize.toNat

/-- The length of the requested glitch in callbacks (R192). -/
def stagedCallbacks (s : State) : Nat := glitchCallbacks s.cfg s.stg.glitchMs.toNat

/-- The controller after both requests, and whether the glitch request loaded UPDATES (R234, R235). -/
def requestedCtl (s : State) : Controller × Bool :=
  if s.stg.glitchPending = true then glitchCtl (stagedCallbacks s) (frozenCtl s) else (frozenCtl s, false)

theorem applyStaged_requestedCtl (s : State) : ((applyStaged s).1.ctl, (applyStaged s).2) = requestedCtl s := by
  rcases applyStaged_ctl s with ⟨hp, h1, h2⟩ | ⟨hp, h1, h2⟩ <;> rw [h1, h2, requestedCtl, hp]
  · rfl
  · rfl

/-- What the callback's controller step performs, and the controller after it. -/
def callbackStep (s : State) : LoopStep × Controller := loopStep s.cfg (requestedCtl s).2 (requestedCtl s).1

/-- The first two steps of PROCESS_BLOCK: the staged parameters, then the callback's operation on every head and its
controller (R250). -/
theorem applyAndControl_eq (s : State) :
    applyAndControl s = ((applyStaged s).1.setHeads ((applyStaged s).1.heads.map
      ((callbackStep s).1.onHead (applyStaged s).1))).setCtl (callbackStep s).2 := by
  obtain ⟨hcfg, -⟩ := applyStaged_frame s
  rw [applyAndControl, controllerStep_eq, hcfg, callbackStep, ← applyStaged_requestedCtl]

theorem applyAndControl_callbackStep (s : State) : (applyAndControl s).ctl = (callbackStep s).2 := by
  rw [applyAndControl_eq, State.setCtl_ctl]

/-! ### The resolved freeze request -/

/-- A freeze is active (R32). -/
abbrev Frozen (s : State) : Prop := s.ctl.cstate = .active ∧ s.ctl.cmode = .freeze

/-- A timed glitch is active (R32). -/
abbrev Running (s : State) : Prop := s.ctl.cstate = .active ∧ s.ctl.cmode = .glitch

/-- A freeze is requested, a toggle resolved (R234). -/
abbrev FreezeOn (s : State) : Prop := s.stg.freeze = .on ∨ (s.stg.freeze = .toggle ∧ ¬Frozen s)

/-- A release is requested, a toggle resolved (R234). -/
abbrev FreezeOff (s : State) : Prop := s.stg.freeze = .off ∨ (s.stg.freeze = .toggle ∧ Frozen s)

theorem not_frozen_of_idle {s : State} (hc : s.ctl.cstate = .idle) : ¬Frozen s := fun h => nomatch hc.symm.trans h.1

theorem not_frozen_of_running {s : State} (hrun : Running s) : ¬Frozen s := fun h => nomatch hrun.2.symm.trans h.2

/-- The controller with the loop size the apply step makes live. -/
def sizedCtl (s : State) : Controller := { s.ctl with lss := stagedLss s }

theorem frozenCtl_eq (s : State) : frozenCtl s = freezeCtl s.stg.freeze (sizedCtl s) := rfl

theorem frozenCtl_of_idle_on {s : State} (hc : s.ctl.cstate = .idle) (hon : FreezeOn s) :
    frozenCtl s = { sizedCtl s with cstate := .armed, cmode := .freeze } := by
  rcases hon with hreq | ⟨hreq, -⟩ <;> simp [frozenCtl_eq, freezeCtl, resolveToggle, freezeActive, sizedCtl, hreq, hc]

theorem frozenCtl_of_running_on {s : State} (hrun : Running s) (hon : FreezeOn s) :
    frozenCtl s = { sizedCtl s with cmode := .freeze } := by
  obtain ⟨hc, hm⟩ := hrun
  rcases hon with hreq | ⟨hreq, -⟩ <;>
    simp [frozenCtl_eq, freezeCtl, resolveToggle, freezeActive, sizedCtl, hreq, hc, hm]

theorem frozenCtl_of_frozen_off {s : State} (hfrozen : Frozen s) (hoff : FreezeOff s) :
    frozenCtl s = { sizedCtl s with cstate := .releasing } := by
  obtain ⟨hc, hm⟩ := hfrozen
  rcases hoff with hreq | ⟨hreq, -⟩ <;>
    simp [frozenCtl_eq, freezeCtl, resolveToggle, freezeActive, sizedCtl, hreq, hc, hm]

theorem frozenCtl_of_frozen_stay {s : State} (hfrozen : Frozen s) (hoff : ¬FreezeOff s) : frozenCtl s = sizedCtl s := by
  have hc := hfrozen.1
  have hm := hfrozen.2
  cases hreq : s.stg.freeze with
  | none | on => simp [frozenCtl_eq, freezeCtl, resolveToggle, sizedCtl, hreq, hc, hm]
  | off => exact absurd (.inl hreq) hoff
  | toggle => exact absurd (.inr ⟨hreq, hfrozen⟩) hoff

theorem frozenCtl_of_no_request {s : State} (hfrozen : ¬Frozen s) (hon : ¬FreezeOn s) : frozenCtl s = sizedCtl s := by
  have hactive : freezeActive (sizedCtl s) = false := by
    simpa [freezeActive, sizedCtl] using hfrozen
  cases hreq : s.stg.freeze with
  | none | off => simp [frozenCtl_eq, freezeCtl, resolveToggle, hreq, hactive]
  | on => exact absurd (.inl hreq) hon
  | toggle => exact absurd (.inr ⟨hreq, hfrozen⟩) hon

/-! ### The callback's step in every case -/

/-- The controller that entered a loop (R194): ACTIVE, the shift cadence restarted. -/
def enteredCtl (s : State) (m : CtlMode) (u : Nat) : Controller where
  cstate := .active
  cmode := m
  updates := u
  shiftFwd := true
  shiftTimer := s.cfg.shiftPeriod
  shiftCount := 0
  lss := stagedLss s

/-- The callbacks a running glitch has left in this callback: those requested, or one fewer than before (R193,
R235). -/
def callbacksLeft (s : State) : Nat :=
  if s.stg.glitchPending = true then stagedCallbacks s else s.ctl.updates - 1

section
variable {s : State}

theorem callbackStep_of_idle_on (hc : s.ctl.cstate = .idle) (hon : FreezeOn s) :
    callbackStep s = (.enter, enteredCtl s .freeze s.ctl.updates) := by
  have hk := frozenCtl_of_idle_on hc hon
  cases hp : s.stg.glitchPending <;>
    simp [callbackStep, requestedCtl, hp, hk, glitchCtl, loopStep, enteredCtl, sizedCtl]

theorem callbackStep_of_idle_glitch (hc : s.ctl.cstate = .idle) (hon : ¬FreezeOn s) (hp : s.stg.glitchPending = true) :
    callbackStep s = (.enter, enteredCtl s .glitch (stagedCallbacks s)) := by
  have hk := frozenCtl_of_no_request (not_frozen_of_idle hc) hon
  simp [callbackStep, requestedCtl, hp, hk, glitchCtl, loopStep, enteredCtl, sizedCtl, hc]

theorem callbackStep_of_idle (hc : s.ctl.cstate = .idle) (hon : ¬FreezeOn s) (hp : ¬s.stg.glitchPending = true) :
    callbackStep s = (.keep, sizedCtl s) := by
  have hk := frozenCtl_of_no_request (not_frozen_of_idle hc) hon
  simp [callbackStep, requestedCtl, hp, hk, loopStep, sizedCtl, hc]

theorem callbackStep_of_running_on (hrun : Running s) (hon : FreezeOn s) :
    callbackStep s = (.keep, { sizedCtl s with cmode := .freeze }) := by
  have hk := frozenCtl_of_running_on hrun hon
  cases hp : s.stg.glitchPending <;>
    simp [callbackStep, requestedCtl, hp, hk, glitchCtl, loopStep, sizedCtl, hrun.1]

/-- A running glitch that no freeze request stops: the countdown, and by what is left of it the release or the shift
cadence. -/
theorem callbackStep_of_running (hrun : Running s) (hon : ¬FreezeOn s) :
    callbackStep s = loopStep s.cfg true { sizedCtl s with updates := callbacksLeft s } := by
  have hk := frozenCtl_of_no_request (not_frozen_of_running hrun) hon
  cases hp : s.stg.glitchPending <;>
    simp [callbackStep, requestedCtl, hp, hk, glitchCtl, loopStep, sizedCtl, callbacksLeft, hrun.1, hrun.2]

theorem callbackStep_of_running_end (hrun : Running s) (hon : ¬FreezeOn s) (hleft : callbacksLeft s = 0) :
    callbackStep s = (.release, { sizedCtl s with cstate := .idle, updates := 0 }) := by
  rw [callbackStep_of_running hrun hon, hleft]
  simp [loopStep, sizedCtl, hrun.1, hrun.2]

theorem callbackStep_of_running_noShift (hrun : Running s) (hon : ¬FreezeOn s) (hleft : 1 ≤ callbacksLeft s)
    (hP : s.cfg.shiftPeriod = 0) : callbackStep s = (.keep, { sizedCtl s with updates := callbacksLeft s }) := by
  have hne : callbacksLeft s ≠ 0 := by omega
  rw [callbackStep_of_running hrun hon]
  simp [loopStep, sizedCtl, hrun.1, hrun.2, hne, hP]

theorem callbackStep_of_running_tick (hrun : Running s) (hon : ¬FreezeOn s) (hleft : 1 ≤ callbacksLeft s)
    (hP : 0 < s.cfg.shiftPeriod) (htimer : 2 ≤ s.ctl.shiftTimer) :
    callbackStep s =
      (.keep, { sizedCtl s with updates := callbacksLeft s, shiftTimer := s.ctl.shiftTimer - 1 }) := by
  have hne : callbacksLeft s ≠ 0 := by omega
  have hP' : s.cfg.shiftPeriod ≠ 0 := by omega
  have htimer' : ¬s.ctl.shiftTimer ≤ 1 := by omega
  rw [callbackStep_of_running hrun hon]
  simp [loopStep, sizedCtl, hrun.1, hrun.2, hne, hP', htimer']

theorem callbackStep_of_running_shift (hrun : Running s) (hon : ¬FreezeOn s) (hleft : 1 ≤ callbacksLeft s)
    (hP : 0 < s.cfg.shiftPeriod) (htimer : s.ctl.shiftTimer = 1) :
    callbackStep s = (.shift, { sizedCtl s with
      updates := callbacksLeft s
      shiftTimer := s.cfg.shiftPeriod
      shiftCount := if s.ctl.shiftCount + 1 = s.cfg.shiftReverseEvery then 0 else s.ctl.shiftCount + 1
      shiftFwd := if s.ctl.shiftCount + 1 = s.cfg.shiftReverseEvery then !s.ctl.shiftFwd else s.ctl.shiftFwd }) := by
  have hne : callbacksLeft s ≠ 0 := by omega
  have hP' : s.cfg.shiftPeriod ≠ 0 := by omega
  rw [callbackStep_of_running hrun hon]
  simp [loopStep, sizedCtl, hrun.1, hrun.2, hne, hP', htimer, shiftedCtl]
  split <;> rfl

theorem callbackStep_of_frozen_glitch (hfrozen : Frozen s) (hoff : FreezeOff s) (hp : s.stg.glitchPending = true) :
    callbackStep s = (.enter, enteredCtl s .glitch (stagedCallbacks s)) := by
  have hk := frozenCtl_of_frozen_off hfrozen hoff
  simp [callbackStep, requestedCtl, hp, hk, glitchCtl, loopStep, enteredCtl, sizedCtl]

theorem callbackStep_of_frozen_release (hfrozen : Frozen s) (hoff : FreezeOff s) (hp : ¬s.stg.glitchPending = true) :
    callbackStep s = (.release, { sizedCtl s with cstate := .idle }) := by
  have hk := frozenCtl_of_frozen_off hfrozen hoff
  simp [callbackStep, requestedCtl, hp, hk, loopStep, sizedCtl]

theorem callbackStep_of_frozen_stay (hfrozen : Frozen s) (hoff : ¬FreezeOff s) :
    callbackStep s = (.keep, sizedCtl s) := by
  have hk := frozenCtl_of_frozen_stay hfrozen hoff
  cases hp : s.stg.glitchPending <;>
    simp [callbackStep, requestedCtl, hp, hk, glitchCtl, loopStep, sizedCtl, hfrozen.1, hfrozen.2]

end

end Sys2Proof.Machine
end

section
/-! What PROCESS_BLOCK leaves in the heads and the controller, case by case (43_controller.md R191 to R196,
44_staging.md R231 to R235). -/

namespace Sys2Proof.Machine

/-! ### The depth change -/

/-- The delay buffer after a change to depth `d`, the live one or another: WH wrapped, the bytes and WFADE kept
(R130). -/
theorem setDepth_buf {s : State} (hwh : s.buf.wh < s.slots) (d : Depth) :
    (setDepth d s).buf = { s.buf with depth := d, wh := s.buf.wh % slotsAt s.cfg d } := by
  by_cases hd : d = s.buf.depth
  · subst hd
    rw [setDepth_same, Nat.mod_eq_of_lt (show s.buf.wh < slotsAt s.cfg s.buf.depth from hwh)]
  · rw [setDepth_of_ne hd]
    rfl

/-- SET_BIT_DEPTH to the number of bits of a supported depth. -/
theorem exec_setBitDepth_bits (d : Depth) (s : State) :
    exec (.setBitDepth (BitVec.ofNat 16 d.bits)) s = .next (setDepth d s) := by
  have hbits : (BitVec.ofNat 16 d.bits).toNat = d.bits := by
    have := d.bits_le
    rw [BitVec.toNat_ofNat, Nat.mod_eq_of_lt (by omega)]
  rw [exec_setBitDepth, hbits, clampDepth_bits]

/-- A depth change adds and removes no head, and no sample of a stream. -/
theorem setDepth_getElem? {s : State} {h : Nat} {hd : Head} (hget : s.heads[h]? = some hd) (d : Depth) :
    ∃ hd', (setDepth d s).heads[h]? = some hd' ∧ hd'.out = hd.out := by
  unfold setDepth
  split
  · exact ⟨hd, hget, rfl⟩
  · exact ⟨renormHead (slotsAt s.cfg d) hd, by simp [hget], rfl⟩

/-! ### One head through PROCESS_BLOCK -/

/-- The live delay of head `h` after the apply step (R232). -/
def stagedOffset (s : State) (h : Nat) : Nat :=
  delayOffset s.cfg (slotsAt s.cfg s.stg.bitDepth) (delayOf s.stg h)

/-- A head after the apply step and the controller step, from the depth change on. -/
def steppedHead (s : State) (h : Nat) (hd : Head) : Head :=
  (callbackStep s).1.onHead (applyStaged s).1 { hd with doff := stagedOffset s h }

/-- A head after PROCESS_BLOCK, from the depth change on: stepped, brought to its delay, its block read (R250). -/
def blockHead (s : State) (h : Nat) (hd : Head) : Head :=
  readHead s.cfg (setDepth s.stg.bitDepth s).buf s.cfg.blockSize
    (followHead s.cfg (setDepth s.stg.bitDepth s).buf (stagedOffset s h) (steppedHead s h hd))

theorem steppedHead_frame (s : State) (h : Nat) (hd : Head) :
    (steppedHead s h hd).doff = stagedOffset s h ∧ (steppedHead s h hd).out = hd.out :=
  LoopStep.onHead_frame _ _ _

theorem applyAndControl_getElem? (s : State) (h : Nat) :
    (applyAndControl s).heads[h]? = (setDepth s.stg.bitDepth s).heads[h]?.map (steppedHead s h) := by
  obtain ⟨-, -, -, -, -, -, -, -, hheads⟩ := applyStaged_frame s
  rw [applyAndControl_eq, State.setCtl_heads, State.setHeads_heads, List.getElem?_map, hheads, List.getElem?_mapIdx,
    Option.map_map]
  rfl

/-- Every head goes through PROCESS_BLOCK by itself (R124, R250). -/
theorem processBlock_getElem? (s : State) (h : Nat) :
    (processBlock s).heads[h]? = (setDepth s.stg.bitDepth s).heads[h]?.map (blockHead s h) := by
  obtain ⟨-, -, hheads, -⟩ := processBlock_frame s
  rw [hheads, List.getElem?_map, applyAndControl_getElem?, Option.map_map]
  refine congrArg (Option.map · _) (funext fun hd => ?_)
  simp only [Function.comp_apply, (steppedHead_frame s h hd).1]
  rfl

/-- A head after PROCESS_BLOCK is one of before. -/
theorem exists_blockHead {s : State} {hd : Head} (hmem : hd ∈ (processBlock s).heads) :
    ∃ h hd₀, (setDepth s.stg.bitDepth s).heads[h]? = some hd₀ ∧ hd = blockHead s h hd₀ := by
  obtain ⟨h, hget⟩ := List.mem_iff_getElem?.mp hmem
  rw [processBlock_getElem?, Option.map_eq_some_iff] at hget
  obtain ⟨hd₀, hget₀, heq⟩ := hget
  exact ⟨h, hd₀, hget₀, heq.symm⟩

/-- PROCESS_BLOCK sets DOFF to the staged delay and adds one block to OUT (R232, R250). -/
theorem blockHead_frame (s : State) (h : Nat) (hd : Head) :
    (blockHead s h hd).doff = stagedOffset s h ∧
      ∃ ys : List Sample, ys.length = s.cfg.blockSize ∧ (blockHead s h hd).out = hd.out ++ ys := by
  obtain ⟨hdoff, hout⟩ := steppedHead_frame s h hd
  obtain ⟨-, -, -, -, fdoff, fout⟩ :=
    followHead_frame s.cfg (setDepth s.stg.bitDepth s).buf (stagedOffset s h) (steppedHead s h hd)
  obtain ⟨⟨ys, hlen, rout⟩, -, -, -, rdoff⟩ := readHead_frame s.cfg (setDepth s.stg.bitDepth s).buf s.cfg.blockSize
    (followHead s.cfg (setDepth s.stg.bitDepth s).buf (stagedOffset s h) (steppedHead s h hd))
  exact ⟨rdoff.trans (fdoff.trans hdoff), ys, hlen, rout.trans (by rw [fout, hout])⟩

/-! ### Loop regions -/

/-- The loop registers of a head. -/
def loopRegion (hd : Head) : Bool × Nat × Nat := (hd.loopEn, hd.loopStart, hd.loopEnd)

/-- Following a delay and reading a block move no loop. -/
theorem loopRegion_blockHead (s : State) (h : Nat) (hd : Head) :
    loopRegion (blockHead s h hd) = loopRegion (steppedHead s h hd) := by
  obtain ⟨fen, fstart, fend, -⟩ :=
    followHead_frame s.cfg (setDepth s.stg.bitDepth s).buf (stagedOffset s h) (steppedHead s h hd)
  obtain ⟨-, ren, rstart, rend, -⟩ := readHead_frame s.cfg (setDepth s.stg.bitDepth s).buf s.cfg.blockSize
    (followHead s.cfg (setDepth s.stg.bitDepth s).buf (stagedOffset s h) (steppedHead s h hd))
  simp only [loopRegion, blockHead, ren, rstart, rend, fen, fstart, fend]

/-- A loop shifted with its head (R168). -/
theorem loopRegion_shiftLoopHead (n : Nat) (off : Int) (hd : Head) :
    loopRegion (shiftLoopHead n off hd) =
      if hd.loopEn = true then (true, wrap (hd.loopStart + off) n, wrap (hd.loopEnd + off) n) else loopRegion hd := by
  cases hen : hd.loopEn <;> simp [loopRegion, shiftLoopHead, hen]

/-- A loop enabled on a region that is not empty (R164). -/
theorem loopRegion_enableLoopHead (c : Config) {n a e : Nat} (ha : a < n) (he : e < n) (hne : a ≠ e) (hd : Head) :
    loopRegion (enableLoopHead c n a e hd) = (true, a, e) := by
  obtain ⟨hen, hstart, hend, -⟩ := enableLoopHead_frame c n a e hd
  rw [wrap_of_lt ha, wrap_of_lt he, if_neg hne.symm] at hend
  rw [wrap_of_lt ha] at hstart
  rw [loopRegion, hen, hstart, hend]

/-- The loop that the controller step gives a head does not depend on the head's delay. -/
theorem loopRegion_onHead_setDoff (s : State) (op : LoopStep) (hd : Head) (o : Nat) :
    loopRegion (op.onHead s { hd with doff := o }) = loopRegion (op.onHead s hd) := by
  cases op with
  | keep | release => rfl
  | enter =>
    obtain ⟨en, start, stop, -⟩ := enableLoopHead_frame s.cfg s.slots (windowStart s) (windowEnd s) hd
    obtain ⟨en', start', stop', -⟩ :=
      enableLoopHead_frame s.cfg s.slots (windowStart s) (windowEnd s) { hd with doff := o }
    simp only [loopRegion, LoopStep.onHead, en, start, stop, en', start', stop']
  | shift =>
    simp only [LoopStep.onHead, loopRegion_shiftLoopHead]
    rfl

/-- The loops after PROCESS_BLOCK are those the depth change left, put through the controller step. -/
theorem processBlock_loopRegions (s : State) :
    (processBlock s).heads.map loopRegion = (setDepth s.stg.bitDepth s).heads.map (fun hd =>
      loopRegion ((callbackStep s).1.onHead (applyStaged s).1 hd)) := by
  apply List.ext_getElem?
  intro h
  rw [List.getElem?_map, List.getElem?_map, processBlock_getElem?, Option.map_map]
  refine congrArg (Option.map · _) (funext fun hd => ?_)
  rw [Function.comp_apply, loopRegion_blockHead, steppedHead, loopRegion_onHead_setDoff]

/-! ### The controller -/

theorem processBlock_ctl (s : State) : (processBlock s).ctl = (callbackStep s).2 := by
  obtain ⟨-, -, -, hctl, -⟩ := processBlock_frame s
  rw [hctl, applyAndControl_callbackStep]

/-- A requested glitch lasts at least one callback (R192). -/
theorem one_le_stagedCallbacks (s : State) : 1 ≤ stagedCallbacks s := Nat.le_max_left _ _

/-- A glitch with callbacks left runs on. -/
theorem callbackStep_of_running_on_going {s : State} (hrun : Running s) (hon : ¬FreezeOn s)
    (hleft : 1 ≤ callbacksLeft s) :
    (callbackStep s).2.cstate = .active ∧ (callbackStep s).2.cmode = .glitch ∧
      (callbackStep s).2.updates = callbacksLeft s := by
  have hne : callbacksLeft s ≠ 0 := by omega
  rw [callbackStep_of_running hrun hon]
  simp only [loopStep, sizedCtl, hrun.1, hrun.2, hne, if_true, if_false]
  split_ifs
  · exact ⟨rfl, rfl, rfl⟩
  · obtain ⟨hc, hm, hu, -⟩ := shiftedCtl_spec s.cfg { sizedCtl s with
      cstate := .active, cmode := .glitch, updates := callbacksLeft s }
    exact ⟨hc, hm, hu⟩
  · exact ⟨rfl, rfl, rfl⟩

/-- A freeze request that is none or off is no request to freeze. -/
theorem not_freezeOn {s : State} (h : s.stg.freeze = .none ∨ s.stg.freeze = .off) : ¬FreezeOn s := by
  rintro (hon | ⟨hon, -⟩) <;> rcases h with h | h <;> rw [h] at hon <;> cases hon

/-- A freeze request that is none or on is no request to release. -/
theorem not_freezeOff {s : State} (h : s.stg.freeze = .none ∨ s.stg.freeze = .on) : ¬FreezeOff s := by
  rintro (hoff | ⟨hoff, -⟩) <;> rcases h with h | h <;> rw [h] at hoff <;> cases hoff

/-- A freeze request moves CSTATE and CMODE only, and not to IDLE (R234). -/
theorem freezeCtl_cases (r : FreezeReq) (k : Controller) :
    ∃ cs m, freezeCtl r k = { k with cstate := cs, cmode := m } ∧ (cs = .idle → k.cstate = .idle) := by
  unfold freezeCtl
  cases resolveToggle k r with
  | none | toggle => exact ⟨k.cstate, k.cmode, rfl, id⟩
  | on =>
    cases hc : k.cstate with
    | idle => exact ⟨.armed, .freeze, rfl, fun h => nomatch h⟩
    | active => exact ⟨.active, .freeze, by simp [← hc], fun h => nomatch h⟩
    | armed | releasing => exact ⟨k.cstate, k.cmode, rfl, (hc ▸ ·)⟩
  | off =>
    simp only
    split
    · exact ⟨.releasing, k.cmode, rfl, fun h => nomatch h⟩
    · exact ⟨k.cstate, k.cmode, rfl, id⟩

/-- A glitch request moves CSTATE, CMODE and UPDATES only, and not to IDLE (R235). -/
theorem glitchCtl_cases (u : Nat) (k : Controller) :
    ∃ cs m v, (glitchCtl u k).1 = { k with cstate := cs, cmode := m, updates := v } ∧
      (cs = .idle → k.cstate = .idle) := by
  unfold glitchCtl
  cases hc : k.cstate with
  | idle | releasing => exact ⟨.armed, .glitch, u, rfl, fun h => nomatch h⟩
  | armed => exact ⟨k.cstate, k.cmode, k.updates, rfl, (hc ▸ ·)⟩
  | active =>
    cases k.cmode with
    | glitch => exact ⟨.active, .glitch, u, rfl, fun h => nomatch h⟩
    | freeze => exact ⟨k.cstate, k.cmode, k.updates, rfl, (hc ▸ ·)⟩

/-- Both requests together. -/
theorem requestedCtl_cases (s : State) :
    ∃ cs m v, (requestedCtl s).1 = { sizedCtl s with cstate := cs, cmode := m, updates := v } ∧
      (cs = .idle → s.ctl.cstate = .idle) := by
  obtain ⟨cs, m, hfrozen, hidle⟩ := freezeCtl_cases s.stg.freeze (sizedCtl s)
  rw [← frozenCtl_eq] at hfrozen
  unfold requestedCtl
  split
  · obtain ⟨cs', m', v, hglitch, hidle'⟩ := glitchCtl_cases (stagedCallbacks s) (frozenCtl s)
    rw [hfrozen] at hglitch hidle'
    exact ⟨cs', m', v, hfrozen ▸ hglitch, hidle ∘ hidle'⟩
  · exact ⟨cs, m, s.ctl.updates, hfrozen, hidle⟩

/-- The requests leave the loop size and the shift direction alone. -/
theorem requestedCtl_keeps (s : State) :
    (requestedCtl s).1.lss = stagedLss s ∧ (requestedCtl s).1.shiftFwd = s.ctl.shiftFwd := by
  obtain ⟨cs, m, v, heq, -⟩ := requestedCtl_cases s
  rw [heq]
  exact ⟨rfl, rfl⟩

/-- The offset of the next shift is not the requests' to change (R195). -/
theorem shiftOffset_applyStaged (s : State) : shiftOffset (applyStaged s).1 = shiftOffset s := by
  obtain ⟨hcfg, -⟩ := applyStaged_frame s
  have hctl : (applyStaged s).1.ctl = (requestedCtl s).1 := congrArg Prod.fst (applyStaged_requestedCtl s)
  rw [shiftOffset, hctl, (requestedCtl_keeps s).2, hcfg, shiftOffset]

/-- Settles O45: the depth of the buffer, LSS of the controller and DOFF of each head after PROCESS_BLOCK. -/
theorem processBlockAppliesTheStagedValues : Obligations.ProcessBlockAppliesTheStagedValues := by
  intro s hi hin
  obtain ⟨-, hbuf, -, hctl, -⟩ := processBlock_frame s
  refine ⟨_, exec_processBlock_of_le hin, ?_, ?_, fun h hd d hget hdelay => ?_⟩
  · rw [hbuf, writeSamples_depth, setDepth_depth]
  · rw [hctl, applyAndControl_lss]
    rfl
  · rw [processBlock_getElem?, Option.map_eq_some_iff] at hget
    obtain ⟨hd₀, -, rfl⟩ := hget
    have hof : delayOf s.stg h = d := by rw [delayOf, List.getD_eq_getElem?_getD, hdelay, Option.getD_some]
    rw [(blockHead_frame s h hd₀).1, stagedOffset, hof]
    rfl

/-- Settles O46: CSTATE, CMODE and UPDATES of the callback's controller in each case. -/
theorem processBlockMovesTheController : Obligations.ProcessBlockMovesTheController := by
  intro s hi hin frozen on off pending u
  refine ⟨_, exec_processBlock_of_le hin, ?_⟩
  rw [processBlock_ctl]
  have hleft (hp : pending) : callbacksLeft s = u := if_pos hp
  have hcount (hp : ¬pending) : callbacksLeft s = s.ctl.updates - 1 := if_neg hp
  refine ⟨fun hc hon => ?_, fun hc hon hp => ?_, fun hc hon hp => ?_, fun hc hm hon => ?_, fun hc hm hon hp => ?_,
    fun hc hm hon hp hu => ?_, fun hc hm hon hp hu => ?_, fun hf hoff hp => ?_, fun hf hoff hp => ?_,
    fun hf hoff => ?_⟩
  · rw [callbackStep_of_idle_on hc hon]
    exact ⟨rfl, rfl, rfl⟩
  · rw [callbackStep_of_idle_glitch hc hon hp]
    exact ⟨rfl, rfl, rfl⟩
  · rw [callbackStep_of_idle hc hon hp]
    exact ⟨hc, rfl, rfl⟩
  · rw [callbackStep_of_running_on ⟨hc, hm⟩ hon]
    exact ⟨hc, rfl, rfl⟩
  · rw [← hleft hp]
    exact callbackStep_of_running_on_going ⟨hc, hm⟩ hon (by rw [hleft hp]; exact Nat.le_max_left _ _)
  · rw [← hcount hp]
    exact callbackStep_of_running_on_going ⟨hc, hm⟩ hon (by rw [hcount hp]; omega)
  · rw [callbackStep_of_running_end ⟨hc, hm⟩ hon (by rw [hcount hp, hu])]
    exact ⟨rfl, hm, rfl⟩
  · rw [callbackStep_of_frozen_glitch hf hoff hp]
    exact ⟨rfl, rfl, rfl⟩
  · rw [callbackStep_of_frozen_release hf hoff hp]
    exact ⟨rfl, hf.2, rfl⟩
  · rw [callbackStep_of_frozen_stay hf hoff]
    exact ⟨hf.1, hf.2, rfl⟩

/-! ### Entry into a loop -/

/-- LOOP_END of the window that an entry sets: M behind the write head as the depth change left it (R194). -/
def enteredEnd (s : State) : Nat :=
  wrap (((s.buf.wh % slotsAt s.cfg s.stg.bitDepth : Nat) : Int) - s.cfg.loopMargin) (slotsAt s.cfg s.stg.bitDepth)

/-- LOOP_START of that window: the loop size before its end (R194). -/
def enteredStart (s : State) : Nat := wrap ((enteredEnd s : Int) - stagedLss s) (slotsAt s.cfg s.stg.bitDepth)

/-- The window of LoopEnter after the apply step. -/
theorem window_applyStaged {s : State} (hwh : s.buf.wh < s.slots) :
    windowEnd (applyStaged s).1 = enteredEnd s ∧ windowStart (applyStaged s).1 = enteredStart s := by
  obtain ⟨hcfg, hbuf, -, -, -, -, -, hslots, -⟩ := applyStaged_frame s
  have hctl := congrArg Prod.fst (applyStaged_requestedCtl s)
  have hend : windowEnd (applyStaged s).1 = enteredEnd s := by
    rw [windowEnd, hcfg, hbuf, hslots, setDepth_buf hwh]
    rfl
  refine ⟨hend, ?_⟩
  rw [windowStart, hend, hslots, show (applyStaged s).1.ctl = (requestedCtl s).1 from hctl, (requestedCtl_keeps s).1]
  rfl

/-- A window of 1 to n - 1 slots before a position does not start at it, and has its length. -/
theorem window_length {n e l : Nat} (he : e < n) (h1 : 1 ≤ l) (hl : l ≤ n - 1) :
    wrap ((e : Int) - l) n ≠ e ∧ wrap ((e : Int) - (wrap ((e : Int) - l) n : Nat)) n = l := by
  have hn : 0 < n := by omega
  have hlen : wrap ((e : Int) - (wrap ((e : Int) - l) n : Nat)) n = l := by
    rw [wrap_sub_wrap hn, sub_sub_cancel, wrap_of_lt (by omega)]
  refine ⟨fun heq => ?_, hlen⟩
  rw [heq, sub_self] at hlen
  have hzero : wrap 0 n = 0 := by simp [wrap]
  omega

/-- A callback that starts a freeze or a glitch performs LoopEnter (R234, R235). -/
theorem callbackStep_of_activation {s : State}
    (h : (s.ctl.cstate = .idle ∧ (s.stg.freeze = .on ∨ s.stg.freeze = .toggle ∨ s.stg.glitchPending = true)) ∨
      (s.ctl.cstate = .active ∧ s.ctl.cmode = .freeze ∧ (s.stg.freeze = .off ∨ s.stg.freeze = .toggle) ∧
        s.stg.glitchPending = true)) :
    ∃ m u, callbackStep s = (.enter, enteredCtl s m u) := by
  rcases h with ⟨hc, hreq⟩ | ⟨hc, hm, hreq, hp⟩
  · by_cases hon : FreezeOn s
    · exact ⟨_, _, callbackStep_of_idle_on hc hon⟩
    · rcases hreq with hreq | hreq | hp
      · exact absurd (.inl hreq) hon
      · exact absurd (.inr ⟨hreq, not_frozen_of_idle hc⟩) hon
      · exact ⟨_, _, callbackStep_of_idle_glitch hc hon hp⟩
  · exact ⟨_, _, callbackStep_of_frozen_glitch ⟨hc, hm⟩ (hreq.imp_right fun hreq => ⟨hreq, hc, hm⟩) hp⟩

/-- The entered window is not empty, and has the length of the live loop size. -/
theorem entered_window {s : State} (hi : Inv s) :
    enteredStart s < slotsAt s.cfg s.stg.bitDepth ∧ enteredEnd s < slotsAt s.cfg s.stg.bitDepth ∧
      enteredStart s ≠ enteredEnd s ∧
      wrap ((enteredEnd s : Int) - enteredStart s) (slotsAt s.cfg s.stg.bitDepth) = stagedLss s := by
  have hn := two_le_slotsAt hi.legal s.stg.bitDepth
  obtain ⟨h1, hl⟩ := loopSamples_range hn s.stg.loopSize.toNat
  have hend := wrap_lt (n := slotsAt s.cfg s.stg.bitDepth) (by omega)
  exact ⟨hend _, hend _, window_length (hend _) h1 hl⟩

/-- After a callback that entered, every head loops over the entered window. -/
theorem blockHead_of_enter {s : State} (hi : Inv s) {k : Controller} (hstep : callbackStep s = (.enter, k)) (h : Nat)
    (hd : Head) : (blockHead s h hd).loopEn = true ∧ (blockHead s h hd).loopStart = enteredStart s ∧
      (blockHead s h hd).loopEnd = enteredEnd s := by
  obtain ⟨hs, he, hne, -⟩ := entered_window hi
  obtain ⟨-, -, -, -, -, -, -, hslots, -⟩ := applyStaged_frame s
  obtain ⟨hwend, hwstart⟩ := window_applyStaged hi.buffer.1
  have hregion := loopRegion_blockHead s h hd
  rw [steppedHead, hstep] at hregion
  simp only [LoopStep.onHead, hslots, hwend, hwstart] at hregion
  rw [loopRegion_enableLoopHead _ hs he hne] at hregion
  simpa only [loopRegion, Prod.mk.injEq] using hregion

/-- Settles O47: LoopEnter on every head, and no later step moves a loop. -/
theorem activationLoopsEveryHeadBehindTheWriteHead : Obligations.ActivationLoopsEveryHeadBehindTheWriteHead := by
  intro s hi hin hreq n lss le
  obtain ⟨m, u, hstep⟩ := callbackStep_of_activation hreq
  refine ⟨_, exec_processBlock_of_le hin, ?_⟩
  rw [processBlock_ctl, hstep]
  refine ⟨rfl, rfl, rfl, fun hd hmem => ?_⟩
  obtain ⟨h, hd₀, -, rfl⟩ := exists_blockHead hmem
  obtain ⟨hen, hstart, hend⟩ := blockHead_of_enter hi hstep h hd₀
  obtain ⟨-, -, -, hlen⟩ := entered_window hi
  rw [hstart, hend]
  exact ⟨hen, rfl, rfl, hlen⟩

/-! ### Release -/

/-- A controller step that ends in IDLE released, or was in IDLE (R193). -/
theorem loopStep_idle {c : Config} {r : Bool} {k : Controller} (h : (loopStep c r k).2.cstate = .idle) :
    k.cstate = .idle ∨ (loopStep c r k).1 = .release := by
  unfold loopStep at h ⊢
  cases hc : k.cstate with
  | idle => exact .inl rfl
  | armed => simp only [hc] at h; cases h
  | releasing => exact .inr rfl
  | active =>
    cases hm : k.cmode with
    | freeze => simp only [hc, hm] at h; cases h
    | glitch =>
      simp only [hc, hm] at h ⊢
      generalize (if r = true then k.updates else k.updates - 1) = u at h ⊢
      split_ifs at h ⊢
      · exact .inr rfl
      · exact absurd ((shiftedCtl_spec c _).1.symm.trans h) (fun hne => nomatch hne)

/-- No request takes the controller to IDLE (R234, R235). -/
theorem requestedCtl_idle {s : State} (h : (requestedCtl s).1.cstate = .idle) : s.ctl.cstate = .idle := by
  obtain ⟨cs, m, v, heq, hidle⟩ := requestedCtl_cases s
  rw [heq] at h
  exact hidle h

/-- A head that does not loop is brought to its delay behind the write head (R160). -/
theorem followHead_pos {c : Config} {b : Buffer} {off : Int} {hd : Head} (hen : hd.loopEn = false) :
    (followHead c b off hd).pos = wrap ((b.wh : Int) - off) (b.slots c) := by
  rw [followHead, hen, if_neg Bool.false_ne_true]
  rcases retarget_cases c (b.slots c) (wrap ((b.wh : Int) - off) (b.slots c)) hd with ⟨-, he⟩ | ⟨-, he⟩ <;> rw [he]

/-- A head that does not loop moves on by its block (R150). -/
theorem readHead_pos {c : Config} {b : Buffer} {n : Nat} {hd : Head} (hen : hd.loopEn = false)
    (hinv : HeadInv c (b.slots c) hd) : (readHead c b n hd).pos = (hd.pos + n) % b.slots c := by
  obtain ⟨⟨hp, hx, -⟩, -⟩ := hinv
  rw [readHead, playSamples_of_unlooped n hen hp hx]
  rfl

/-- A position behind the write head moves on with it. -/
theorem wrap_add_sub {n : Nat} (hn : 0 < n) (w k : Nat) (d : Int) :
    wrap ((((w + k) % n : Nat) : Int) - d) n = (wrap ((w : Int) - d) n + k) % n := by
  rw [← wrap_natCast hn (w + k), ← wrap_natCast hn (wrap ((w : Int) - d) n + k), sub_eq_add_neg, wrap_add_wrap hn]
  push_cast
  rw [wrap_add_wrap hn]
  congr 1
  ring

theorem processBlock_slots (s : State) : (processBlock s).slots = slotsAt s.cfg s.stg.bitDepth := by
  obtain ⟨hcfg, hbuf, -⟩ := processBlock_frame s
  rw [State.slots, Buffer.slots, hcfg, hbuf, writeSamples_depth, setDepth_depth]

/-- WH after PROCESS_BLOCK: on by a block from where the depth change left it (R250). -/
theorem processBlock_wh {s : State} (hi : Inv s) (hin : s.cfg.blockSize ≤ s.inq.length) :
    (processBlock s).buf.wh = ((setDepth s.stg.bitDepth s).buf.wh + s.cfg.blockSize) %
      slotsAt s.cfg s.stg.bitDepth := by
  obtain ⟨-, hbuf, -⟩ := processBlock_frame s
  have hd := setDepth_keeps_inv hi s.stg.bitDepth
  have hwh : (setDepth s.stg.bitDepth s).buf.wh < (setDepth s.stg.bitDepth s).buf.slots s.cfg := by
    simpa only [setDepth_cfg] using hd.buffer.1
  rw [hbuf, (writeSamples_registers s.cfg _ _ hwh).2.1, List.length_take_of_le hin, Buffer.slots, setDepth_depth]

/-- A head that does not loop after PROCESS_BLOCK stands at its delay behind the write head. -/
theorem blockHead_pos {s : State} (hi : Inv s) (hin : s.cfg.blockSize ≤ s.inq.length) {h : Nat} {hd₀ : Head}
    (hget : (setDepth s.stg.bitDepth s).heads[h]? = some hd₀) (hen : (blockHead s h hd₀).loopEn = false) :
    (blockHead s h hd₀).pos =
      wrap (((processBlock s).buf.wh : Int) - stagedOffset s h) (slotsAt s.cfg s.stg.bitDepth) := by
  have hn := two_le_slotsAt hi.legal s.stg.bitDepth
  have hslots : (setDepth s.stg.bitDepth s).buf.slots s.cfg = slotsAt s.cfg s.stg.bitDepth := by
    rw [Buffer.slots, setDepth_depth]
  have hstepped : HeadInv s.cfg ((setDepth s.stg.bitDepth s).buf.slots s.cfg) (steppedHead s h hd₀) := by
    obtain ⟨hcfg, -, -, -, -, -, -, hsl, -⟩ := applyAndControl_frame s
    have hat : (applyAndControl s).heads[h]? = some (steppedHead s h hd₀) := by
      rw [applyAndControl_getElem?, hget, Option.map_some]
    have := (applyAndControl_keeps_inv hi).heads _ (List.mem_of_getElem? hat)
    rwa [hcfg, hsl, ← hslots] at this
  have hfollowed := followHead_keeps_inv (by omega) (stagedOffset s h) hstepped
  obtain ⟨-, hren, -⟩ := readHead_frame s.cfg (setDepth s.stg.bitDepth s).buf s.cfg.blockSize
    (followHead s.cfg (setDepth s.stg.bitDepth s).buf (stagedOffset s h) (steppedHead s h hd₀))
  obtain ⟨hfen, -⟩ := followHead_frame s.cfg (setDepth s.stg.bitDepth s).buf (stagedOffset s h) (steppedHead s h hd₀)
  have hen' := hren.symm.trans hen
  rw [blockHead, readHead_pos hen' hfollowed, followHead_pos (hfen.symm.trans hen'), hslots, processBlock_wh hi hin,
    wrap_add_sub (by omega)]

/-- Settles O48: a callback that ends in IDLE released, and every head that does not loop follows its delay. -/
theorem releasedHeadsReturnToTheirDelay : Obligations.ReleasedHeadsReturnToTheirDelay := by
  intro s t hi hin hexec
  rw [exec_processBlock_of_le hin] at hexec
  cases hexec
  refine ⟨fun hactive hidle hd hmem => ?_, fun hd hmem hen => ?_⟩ <;>
    obtain ⟨h, hd₀, hget, rfl⟩ := exists_blockHead hmem
  · rw [processBlock_ctl] at hidle
    have hrelease : (callbackStep s).1 = .release := by
      refine (loopStep_idle hidle).resolve_left fun hreq => ?_
      rw [requestedCtl_idle hreq] at hactive
      cases hactive
    have hregion := loopRegion_blockHead s h hd₀
    rw [steppedHead, hrelease] at hregion
    exact congrArg Prod.fst hregion
  · rw [blockHead_pos hi hin hget hen, processBlock_slots, (blockHead_frame s h hd₀).1]

/-- Settles O49: a freeze that stays keeps every loop (R198). -/
theorem freezeHoldsItsLoop : Obligations.FreezeHoldsItsLoop := by
  intro s hi hin hc hm hreq hdepth
  have hstep := callbackStep_of_frozen_stay ⟨hc, hm⟩ (not_freezeOff hreq)
  refine ⟨_, exec_processBlock_of_le hin, ?_, ?_⟩
  · rw [processBlock_ctl, hstep, statusWord_eq]
    exact congrArg (BitVec.ofNat 32) (if_pos ⟨hc, hm⟩)
  · have hregions := processBlock_loopRegions s
    rw [hstep, hdepth, setDepth_same] at hregions
    exact hregions

/-- Settles O50: the loops as the depth change left them, through no step or a shift. -/
theorem glitchShiftsItsLoopInCadence : Obligations.GlitchShiftsItsLoopInCadence := by
  intro s hi hin hc hm hreq hgo off region
  have hon := not_freezeOn hreq
  have hleft : 1 ≤ callbacksLeft s := by
    rcases hgo with hu | hp
    · have := one_le_stagedCallbacks s
      unfold callbacksLeft
      split <;> omega
    · rw [callbacksLeft, if_pos hp]
      exact one_le_stagedCallbacks s
  obtain ⟨hcs, hcm, -⟩ := callbackStep_of_running_on_going ⟨hc, hm⟩ hon hleft
  have hregions := processBlock_loopRegions s
  refine ⟨_, _, exec_setBitDepth_bits s.stg.bitDepth s, exec_processBlock_of_le hin, ?_⟩
  rw [processBlock_ctl]
  refine ⟨hcs, hcm, fun hP => ?_, fun hP htimer => ?_, fun hP htimer => ?_⟩
  · rw [callbackStep_of_running_noShift ⟨hc, hm⟩ hon hleft hP] at hregions ⊢
    exact ⟨hregions, rfl, rfl, rfl⟩
  · rw [callbackStep_of_running_tick ⟨hc, hm⟩ hon hleft hP htimer] at hregions ⊢
    exact ⟨hregions, rfl, rfl, rfl⟩
  · rw [callbackStep_of_running_shift ⟨hc, hm⟩ hon hleft hP htimer] at hregions ⊢
    refine ⟨?_, rfl, rfl, rfl⟩
    simp only [LoopStep.onHead, loopRegion_shiftLoopHead, shiftOffset_applyStaged] at hregions
    obtain ⟨-, -, -, -, -, -, -, hslots, -⟩ := applyStaged_frame s
    rw [hslots, ← setDepth_slots] at hregions
    exact hregions

end Sys2Proof.Machine
end

section
/-! PROCESS_BLOCK as a run of its commands, and what it leaves alone (45_callback.md R250, R253). -/

namespace Sys2Proof.Machine

/-! ### The frame -/

/-- The delay buffer after PROCESS_BLOCK: the block written to the buffer at the staged depth (R250). -/
theorem processBlock_buf {s : State} (hwh : s.buf.wh < s.slots) :
    (processBlock s).buf = writeSamples s.cfg
      { s.buf with depth := s.stg.bitDepth, wh := s.buf.wh % slotsAt s.cfg s.stg.bitDepth }
      (s.inq.take s.cfg.blockSize) := by
  obtain ⟨-, hbuf, -⟩ := processBlock_frame s
  rw [hbuf, setDepth_buf hwh]

/-- PROCESS_BLOCK changes the buffer, the heads, the controller, the two requests and IN, and nothing else (R253). -/
theorem processBlock_eq (s : State) :
    processBlock s = { s with
      buf := (processBlock s).buf
      heads := (processBlock s).heads
      ctl := (processBlock s).ctl
      stg := { s.stg with freeze := .none, glitchPending := false }
      inq := s.inq.drop s.cfg.blockSize } := by
  obtain ⟨hcfg, -, -, -, hstg, herr, hinq, hresp, hports⟩ := processBlock_frame s
  exact State.ext_parts hcfg rfl rfl rfl hstg herr hinq hresp hports

theorem processBlock_heads_length (s : State) : (processBlock s).heads.length = s.heads.length := by
  obtain ⟨-, -, hheads, -⟩ := processBlock_frame s
  obtain ⟨-, -, -, -, -, -, -, -, hlen⟩ := applyAndControl_frame s
  rw [hheads, List.length_map, hlen]

/-- Settles O43: the frame, the buffer as WRITE_BLOCK leaves it, and one block for each stream. -/
theorem processBlockTakesAndMakesOneBlock : Obligations.ProcessBlockTakesAndMakesOneBlock := by
  intro s hi hin n b₀ addr
  have hn : 2 ≤ n := two_le_slotsAt hi.legal s.stg.bitDepth
  have hslots : b₀.slots s.cfg = n := rfl
  have hwh₀ : b₀.wh < b₀.slots s.cfg := Nat.mod_lt _ (by omega)
  have hblock : s.cfg.blockSize < 65536 := by
    have := hi.legal.2.1.2
    omega
  have hlen : (s.inq.take s.cfg.blockSize).length = s.cfg.blockSize := List.length_take_of_le hin
  have hbuf : (processBlock s).buf = writeSamples s.cfg b₀ (s.inq.take s.cfg.blockSize) :=
    processBlock_buf hi.buffer.1
  obtain ⟨hdepth, hwh, hfade⟩ := writeSamples_registers s.cfg b₀ (s.inq.take s.cfg.blockSize) hwh₀
  rw [hlen] at hwh hfade
  refine ⟨_, _, _, (exec_processBlock_of_le hin).trans (congrArg _ (processBlock_eq s)), ?_, ?_, ?_, ?_, fun a ha => ?_,
    processBlock_heads_length s, fun h hd hget => ?_⟩
  · rw [hbuf, hdepth]
  · rw [hbuf]
    exact hwh
  · rw [hbuf, hfade]
  · rw [exec_writeBlock_ofNat (s := { s with buf := b₀ }) hblock hin, hbuf]
    rfl
  · rw [hbuf]
    refine read_writeSamples_other fun j hj => ?_
    rw [← slotAddr_mod]
    exact ha j (hj.trans_eq hlen)
  · obtain ⟨hd₀, hget₀, hout₀⟩ := setDepth_getElem? hget s.stg.bitDepth
    obtain ⟨-, ys, hys, hout⟩ := blockHead_frame s h hd₀
    exact ⟨blockHead s h hd₀, ys, by rw [processBlock_getElem?, hget₀, Option.map_some],
      hout.trans (by rw [hout₀]), hys⟩

/-! ### The commands of a callback -/

/-- The head commands of the controller step, for the heads 0 to H - 1 (R193 to R196). -/
def LoopStep.commands (s : State) : LoopStep → List Instr
  | .keep => []
  | .enter => (List.range s.cfg.numHeads).map fun h =>
      .enableLoop (BitVec.ofNat 4 h) (BitVec.ofNat 32 (enteredStart s)) (BitVec.ofNat 32 (enteredEnd s))
  | .release => (List.range s.cfg.numHeads).map fun h => .disableLoop (BitVec.ofNat 4 h)
  | .shift => (List.range s.cfg.numHeads).map fun h =>
      .shiftLoop (BitVec.ofNat 4 h) (BitVec.ofInt 32 (shiftOffset s))

/-- The state between the apply step and the controller step's head commands, the controller already stepped. -/
def preparedState (s : State) : State := (applyStaged s).1.setCtl (callbackStep s).2

theorem applyAndControl_eq_setHeads (s : State) :
    applyAndControl s =
      (preparedState s).setHeads ((preparedState s).heads.map ((callbackStep s).1.onHead (applyStaged s).1)) := by
  rw [applyAndControl_eq]
  rfl

/-- The prepared state, from the one the depth change left. -/
theorem preparedState_eq (s : State) :
    preparedState s = { setDepth s.stg.bitDepth s with
      heads := (setDepth s.stg.bitDepth s).heads.mapIdx (fun h hd => { hd with doff := stagedOffset s h })
      ctl := (callbackStep s).2
      stg := { s.stg with freeze := .none, glitchPending := false } } := by
  obtain ⟨hcfg, hbuf, hstg, herr, hinq, hresp, hports, -, hheads⟩ := applyStaged_frame s
  refine State.ext_parts ?_ hbuf hheads rfl hstg ?_ ?_ ?_ ?_
  · exact hcfg.trans (setDepth_cfg _ s).symm
  · exact herr.trans (setDepth_err _ s).symm
  · exact hinq.trans (setDepth_inq _ s).symm
  · exact hresp.trans (setDepth_resp _ s).symm
  · exact hports.trans (setDepth_ports _ s).symm

/-- A shift's offset fits its operand word (R5). -/
theorem shiftOffset_range {s : State} (hl : s.cfg.Legal) :
    -2147483648 ≤ shiftOffset s ∧ shiftOffset s < 2147483648 := by
  have hA : s.cfg.shiftSamples ≤ 2147483647 := hl.2.2.2.2.2.2.2.1
  unfold shiftOffset
  split <;> omega

/-- The head commands of the controller step, run one after another, are its operation on every head. -/
theorem runCommands_loopStep {s : State} (hi : Inv s) (op : LoopStep) :
    runCommands (op.commands s) (preparedState s) =
      .next ((preparedState s).setHeads ((preparedState s).heads.map (op.onHead (applyStaged s).1))) := by
  obtain ⟨hrest, -⟩ := applyStaged_keeps hi
  obtain ⟨hcfg, -, -, -, -, -, -, hslots, -⟩ := applyStaged_frame s
  obtain ⟨hs, he, -, -⟩ := entered_window hi
  obtain ⟨hwend, hwstart⟩ := window_applyStaged hi.buffer.1
  have hn : slotsAt s.cfg s.stg.bitDepth < 2147483648 := by
    have hcap : s.cfg.capacity ≤ 2147483647 := hi.legal.1.2
    have hle := slotsAt_le_capacity s.cfg s.stg.bitDepth
    omega
  have hH : (preparedState s).cfg.numHeads = s.cfg.numHeads := congrArg Config.numHeads hcfg
  have h16 : (preparedState s).cfg.numHeads ≤ 16 := hH.trans_le hi.legal.2.2.2.2.1.2
  have hlen : (preparedState s).heads.length = (preparedState s).cfg.numHeads := hrest.headCount
  cases op with
  | keep => exact congrArg _ (setHeads_map_id (preparedState s)).symm
  | enter =>
    have hrun := runCommands_enableLoop hlen h16 (hs.trans hn) (he.trans hn)
    rw [hH] at hrun
    rw [LoopStep.commands, hrun]
    simp only [LoopStep.onHead, hwend, hwstart]
    rfl
  | release =>
    have hrun := runCommands_disableLoop hlen h16
    rw [hH] at hrun
    exact hrun
  | shift =>
    have hrun := runCommands_shiftLoop hlen h16 (shiftOffset_range hi.legal)
    rw [hH] at hrun
    rw [LoopStep.commands, hrun]
    simp only [LoopStep.onHead, shiftOffset_applyStaged]
    rfl

/-- Every head brought to its live delay is every head brought to its staged one. -/
theorem followDelays_applyAndControl (s : State) :
    followDelays (applyAndControl s) = (applyAndControl s).setHeads ((applyAndControl s).heads.mapIdx (fun h =>
      followHead (applyAndControl s).cfg (applyAndControl s).buf (stagedOffset s h))) := by
  refine congrArg (applyAndControl s).setHeads (List.ext_getElem? fun h => ?_)
  rw [List.getElem?_map, List.getElem?_mapIdx, applyAndControl_getElem?, Option.map_map, Option.map_map]
  refine congrArg (Option.map · _) (funext fun hd => ?_)
  simp only [Function.comp_apply, (steppedHead_frame s h hd).1]

theorem stagedOffset_lt {s : State} (hl : s.cfg.Legal) (h : Nat) : stagedOffset s h < 2147483648 := by
  have hn := two_le_slotsAt hl s.stg.bitDepth
  have hcap : s.cfg.capacity ≤ 2147483647 := hl.1.2
  have hle := slotsAt_le_capacity s.cfg s.stg.bitDepth
  have hlt := delayOffset_lt s.cfg (n := slotsAt s.cfg s.stg.bitDepth) (by omega) (delayOf s.stg h)
  unfold stagedOffset
  omega

/-- PROCESS_BLOCK from its controller step on, as the run of its commands (R250). -/
theorem runCommands_processBlock {s : State} (hi : Inv s) (hin : s.cfg.blockSize ≤ s.inq.length) :
    runCommands ((callbackStep s).1.commands s ++
        (List.range s.cfg.numHeads).map (fun h =>
          .setPlayHead (BitVec.ofNat 4 h) (BitVec.ofNat 32 (stagedOffset s h))) ++
        (List.range s.cfg.numHeads).map (fun h =>
          .readBlock (BitVec.ofNat 4 h) (BitVec.ofNat 16 s.cfg.blockSize)) ++
        [.writeBlock (BitVec.ofNat 16 s.cfg.blockSize)]) (preparedState s) = .next (processBlock s) := by
  have hinv := applyAndControl_keeps_inv hi
  obtain ⟨hcfg, hbuf, -, -, hinq, -⟩ := applyAndControl_frame s
  have hblock : s.cfg.blockSize < 65536 := by
    have := hi.legal.2.1.2
    omega
  have hloops := runCommands_loopStep hi (callbackStep s).1
  rw [← applyAndControl_eq_setHeads] at hloops
  have h16 : (applyAndControl s).cfg.numHeads ≤ 16 := hinv.legal.2.2.2.2.1.2
  have hfollow := runCommands_setPlayHead hinv.headCount h16 (stagedOffset_lt hi.legal)
  rw [← followDelays_applyAndControl, hcfg] at hfollow
  have hread := runCommands_readBlock (t := followDelays (applyAndControl s)) s.cfg.blockSize hblock
    (by simpa using hinv.headCount) h16
  rw [followDelays_cfg, hcfg] at hread
  rw [List.append_assoc, List.append_assoc, runCommands_append hloops, runCommands_append hfollow,
    runCommands_append hread, runCommands, exec_writeBlock_ofNat hblock (by simpa [hinq] using hin)]
  simp only [processBlock, readBlocks, followDelays_cfg, hcfg]
  rfl

/-- Settles O44: the run of the commands, with the callback's step in each case. -/
theorem processBlockRunsTheCommandsOfItsSteps : Obligations.ProcessBlockRunsTheCommandsOfItsSteps := by
  intro s hi hin
  refine ⟨_, (callbackStep s).1.commands s, (callbackStep s).2, exec_setBitDepth_bits s.stg.bitDepth s, ?_,
    fun hc hon => ?_, fun hc hon hp => ?_, fun hc hon hp => ?_, fun hr hon => ?_, fun hr hon hu => ?_,
    fun hr hon hu hP => ?_, fun hr hon hu hP ht => ?_, fun hr hon hu hP ht => ?_, fun hf hoff hp => ?_,
    fun hf hoff hp => ?_, fun hf hoff => ?_⟩
  · rw [exec_processBlock_of_le hin, ← runCommands_processBlock hi hin, preparedState_eq]
    rfl
  · rw [callbackStep_of_idle_on hc hon]
    exact ⟨rfl, rfl⟩
  · rw [callbackStep_of_idle_glitch hc hon hp]
    exact ⟨rfl, rfl⟩
  · rw [callbackStep_of_idle hc hon hp]
    exact ⟨rfl, rfl⟩
  · rw [callbackStep_of_running_on hr hon]
    exact ⟨rfl, rfl⟩
  · rw [callbackStep_of_running_end hr hon hu]
    exact ⟨rfl, rfl⟩
  · rw [callbackStep_of_running_noShift hr hon hu hP]
    exact ⟨rfl, rfl⟩
  · rw [callbackStep_of_running_tick hr hon hu hP ht]
    exact ⟨rfl, rfl⟩
  · rw [callbackStep_of_running_shift hr hon hu hP ht]
    exact ⟨rfl, rfl⟩
  · rw [callbackStep_of_frozen_glitch hf hoff hp]
    exact ⟨rfl, rfl⟩
  · rw [callbackStep_of_frozen_release hf hoff hp]
    exact ⟨rfl, rfl⟩
  · rw [callbackStep_of_frozen_stay hf hoff]
    exact ⟨rfl, rfl⟩

end Sys2Proof.Machine
end

section
/-! Runs of callbacks: a timed glitch from its request to its end (43_controller.md R197), and the steady-state delay
(45_callback.md R252). -/

namespace Sys2Proof.Machine

/-! ### Callbacks in a row -/

theorem callbacks_succ_of_le {s : State} (hin : s.cfg.blockSize ≤ s.inq.length) (k : Nat) :
    callbacks (k + 1) s = callbacks k (processBlock s) := by
  rw [callbacks, exec_processBlock_of_le hin]

/-- One callback more at the end. -/
theorem callbacks_succ_last {s t : State} {k : Nat} (h : callbacks k s = .next t)
    (hin : t.cfg.blockSize ≤ t.inq.length) : callbacks (k + 1) s = .next (processBlock t) := by
  induction k generalizing s with
  | zero =>
    cases h
    exact callbacks_succ_of_le hin 0
  | succ k ih =>
    rw [callbacks] at h ⊢
    split at h
    · exact ih h
    all_goals cases h

/-! ### A timed glitch -/

/-- The state `k` callbacks after a glitch was requested in `s`, while it runs. -/
structure GlitchAfter (s : State) (k : Nat) (t : State) : Prop where
  inv : Inv t
  running : Running t
  updates : t.ctl.updates = stagedCallbacks s + 1 - k
  noFreeze : t.stg.freeze = .none
  noGlitch : t.stg.glitchPending = false
  cfg : t.cfg = s.cfg
  inq : t.inq = s.inq.drop (k * s.cfg.blockSize)

/-- The samples for the next callback wait in IN. -/
theorem GlitchAfter.block {s t : State} {k n : Nat} (h : GlitchAfter s k t)
    (hin : n * s.cfg.blockSize ≤ s.inq.length) (hk : k < n) : t.cfg.blockSize ≤ t.inq.length := by
  have hmul : (k + 1) * s.cfg.blockSize ≤ n * s.cfg.blockSize := Nat.mul_le_mul_right _ hk
  rw [h.cfg, h.inq, List.length_drop]
  rw [Nat.add_mul, Nat.one_mul] at hmul
  omega

/-- The callback that takes the request leaves the glitch running, all its callbacks ahead (R235). -/
theorem glitchAfter_processBlock {s : State} (hi : Inv s) (hc : s.ctl.cstate = .idle ∨ s.ctl.cmode = .glitch)
    (hreq : s.stg.freeze = .none) (hp : s.stg.glitchPending = true) : GlitchAfter s 1 (processBlock s) := by
  obtain ⟨hcfg, -, -, -, hstg, -, hinq, -⟩ := processBlock_frame s
  have hon := not_freezeOn (s := s) (.inl hreq)
  have hstep : (callbackStep s).2.cstate = .active ∧ (callbackStep s).2.cmode = .glitch ∧
      (callbackStep s).2.updates = stagedCallbacks s := by
    by_cases hidle : s.ctl.cstate = .idle
    · rw [callbackStep_of_idle_glitch hidle hon hp]
      exact ⟨rfl, rfl, rfl⟩
    · have hrun : Running s := ⟨hi.controller.1.resolve_left hidle, hc.resolve_left hidle⟩
      have hleft : callbacksLeft s = stagedCallbacks s := if_pos hp
      rw [← hleft]
      exact callbackStep_of_running_on_going hrun hon (hleft ▸ one_le_stagedCallbacks s)
  rw [← processBlock_ctl] at hstep
  obtain ⟨hactive, hmode, hupdates⟩ := hstep
  exact ⟨processBlock_keeps_inv hi, ⟨hactive, hmode⟩, hupdates, by rw [hstg], by rw [hstg], hcfg,
    by rw [hinq, Nat.one_mul]⟩

/-- A callback of a glitch with callbacks left counts one down (R193). -/
theorem GlitchAfter.next {s t : State} {k : Nat} (h : GlitchAfter s k t) (hk : k < stagedCallbacks s) :
    GlitchAfter s (k + 1) (processBlock t) := by
  obtain ⟨hcfg, -, -, -, hstg, -, hinq, -⟩ := processBlock_frame t
  have hleft : callbacksLeft t = stagedCallbacks s + 1 - (k + 1) := by
    rw [callbacksLeft, h.noGlitch, if_neg Bool.false_ne_true, h.updates]
    omega
  have hstep := callbackStep_of_running_on_going h.running (not_freezeOn (.inl h.noFreeze)) (by omega)
  rw [← processBlock_ctl, hleft] at hstep
  obtain ⟨hactive, hmode, hupdates⟩ := hstep
  refine ⟨processBlock_keeps_inv h.inv, ⟨hactive, hmode⟩, hupdates, by rw [hstg], by rw [hstg],
    hcfg.trans h.cfg, ?_⟩
  rw [hinq, h.inq, h.cfg, List.drop_drop, Nat.add_mul, Nat.one_mul]

/-- The callback with none left ends the glitch (R193, R196). -/
theorem GlitchAfter.last {s t : State} (h : GlitchAfter s (stagedCallbacks s) t)
    (hin : t.cfg.blockSize ≤ t.inq.length) :
    (processBlock t).ctl.cstate = .idle ∧ ∀ hd ∈ (processBlock t).heads, hd.loopEn = false := by
  have hleft : callbacksLeft t = 0 := by
    rw [callbacksLeft, h.noGlitch, if_neg Bool.false_ne_true, h.updates]
    omega
  have hidle : (processBlock t).ctl.cstate = .idle := by
    rw [processBlock_ctl, callbackStep_of_running_end h.running (not_freezeOn (.inl h.noFreeze)) hleft]
  exact ⟨hidle, (releasedHeadsReturnToTheirDelay t _ h.inv hin (exec_processBlock_of_le hin)).1 h.running.1 hidle⟩

/-- A glitch of U callbacks runs through the first U. -/
theorem exists_glitchAfter {s : State} (hi : Inv s) (hc : s.ctl.cstate = .idle ∨ s.ctl.cmode = .glitch)
    (hreq : s.stg.freeze = .none) (hp : s.stg.glitchPending = true)
    (hin : (stagedCallbacks s + 1) * s.cfg.blockSize ≤ s.inq.length) {k : Nat} (h1 : 1 ≤ k)
    (hk : k ≤ stagedCallbacks s) : ∃ t, callbacks k s = .next t ∧ GlitchAfter s k t := by
  induction k, h1 using Nat.le_induction with
  | base =>
    have hblock : s.cfg.blockSize ≤ s.inq.length := (Nat.le_mul_of_pos_left _ (Nat.succ_pos _)).trans hin
    exact ⟨_, callbacks_succ_of_le hblock 0, glitchAfter_processBlock hi hc hreq hp⟩
  | succ k h1 ih =>
    obtain ⟨t, hrun, hafter⟩ := ih (Nat.le_of_succ_le hk)
    exact ⟨_, callbacks_succ_last hrun (hafter.block hin (by omega)), hafter.next hk⟩

/-- Settles O51: the glitch runs through U callbacks, counting down, and the next one ends it. -/
theorem timedGlitchLastsExactlyItsCallbacks : Obligations.TimedGlitchLastsExactlyItsCallbacks := by
  intro s hi hc hreq hp u hin
  refine ⟨fun k h1 hk => ?_, ?_⟩
  · obtain ⟨t, hrun, hafter⟩ := exists_glitchAfter hi hc hreq hp hin h1 hk
    refine ⟨t, hrun, ?_, hafter.updates⟩
    rw [statusWord_eq, hafter.running.1, hafter.running.2]
    rfl
  · obtain ⟨t, hrun, hafter⟩ := exists_glitchAfter hi hc hreq hp hin (one_le_stagedCallbacks s) le_rfl
    have hblock := hafter.block hin (Nat.lt_succ_self _)
    obtain ⟨hidle, hloops⟩ := hafter.last hblock
    refine ⟨_, callbacks_succ_last hrun hblock, hidle, ?_, hloops⟩
    rw [statusWord_eq, hidle]
    rfl

/-! ### The delay line -/

/-- Head `h` is a delay line of `off` samples: no request and no fade, depth 16, the head without a loop at its staged
delay of at least a block behind the write head (R252). -/
structure DelayLine (s : State) (h off : Nat) (hd : Head) : Prop where
  inv : Inv s
  head : s.heads[h]? = some hd
  idle : s.ctl.cstate = .idle
  noFreeze : s.stg.freeze = .none
  noGlitch : s.stg.glitchPending = false
  depth : s.buf.depth = .d16
  stagedDepth : s.stg.bitDepth = .d16
  noWriteFade : s.buf.wfade = 0
  noFade : hd.xrem = 0
  noLoop : hd.loopEn = false
  staged : stagedOffset s h = off
  block_le : s.cfg.blockSize ≤ off
  pos : hd.pos = wrap ((s.buf.wh : Int) - off) s.slots

/-- The i-th sample the delay line will give: the ring first, then the input. -/
def delayedSample (s : State) (off i : Nat) : Sample :=
  if i < off then slotRead s.cfg s.buf (wrap ((s.buf.wh : Int) - off) s.slots + i) else s.inq.getD (i - off) 0

/-- The head of the delay line after a callback. -/
def delayedHead (s : State) (off : Nat) (hd : Head) : Head :=
  { hd with
    doff := off
    pos := (hd.pos + s.cfg.blockSize) % s.slots
    out := hd.out ++ (List.range s.cfg.blockSize).map (delayedSample s off) }

/-- Depth 16 stores a sample as it is (R104). -/
theorem decode_encode_d16 (x : Sample) : decodeSample (encodeSample x .d16) .d16 = x := by
  rw [decode_encode_eq_shift]
  exact (BitVec.shiftLeft_zero _).trans (BitVec.ushiftRight_zero _)

/-- The ring `off` slots behind where a block was written, from the block's length on: what the ring held, up to the
block, and then the block. -/
theorem slotRead_written_behind {c : Config} {b : Buffer} (hwf : b.arena.wf) (hdepth : b.depth = .d16)
    (hfade : b.wfade = 0) {p off : Nat} (hwh : (p + off) % b.slots c = b.wh) (hoff : off < b.slots c) {xs : List Sample}
    (hxs : xs.length ≤ off) {i : Nat} (hi : i < off) :
    slotRead c (writeSamples c b xs) (p + (xs.length + i)) =
      if xs.length + i < off then slotRead c b (p + (xs.length + i)) else xs.getD (xs.length + i - off) 0 := by
  have hslot (j : Nat) : (b.wh + j) % b.slots c = (p + off + j) % b.slots c := by rw [← hwh, Nat.mod_add_mod]
  split
  · refine slotRead_writeSamples_other fun j hj heq => ?_
    rw [hslot, show p + off + j = p + (xs.length + i) + (off + j - (xs.length + i)) by omega] at heq
    have hzero := add_mod_inj (j := 0) (by omega) (by omega) heq
    omega
  · have hj : xs.length + i - off < xs.length := by omega
    have hwritten := slotRead_writeSamples hwf (hxs.trans hoff.le) hj
    rw [hfade, hdepth, if_neg (Nat.not_lt_zero _), decode_encode_d16] at hwritten
    rw [← hwritten]
    refine slotRead_congr ?_
    rw [writeSamples_slots, hslot]
    congr 1
    omega

/-- A head at its delay is not moved by following it. -/
theorem followHead_of_at {c : Config} {b : Buffer} {off : Int} {hd : Head}
    (hpos : hd.pos = wrap ((b.wh : Int) - off) (b.slots c)) : followHead c b off hd = hd := by
  rw [followHead]
  split
  · rfl
  · rw [retarget, ← hpos]
    simp [cdist, wrap]

section
variable {s : State} {h off : Nat} {hd : Head}

theorem DelayLine.setDepth_eq (hl : DelayLine s h off hd) : setDepth s.stg.bitDepth s = s := by
  rw [hl.stagedDepth, ← hl.depth, setDepth_same]

theorem DelayLine.off_lt (hl : DelayLine s h off hd) : off < s.slots := by
  have hslots : s.slots = slotsAt s.cfg s.stg.bitDepth := by rw [State.slots, Buffer.slots, hl.depth, hl.stagedDepth]
  have hn := hl.inv.two_le_slots
  rw [← hl.staged, hslots]
  exact delayOffset_lt _ (by omega) _

/-- The write head stands the delay ahead of the head. -/
theorem DelayLine.pos_add_off (hl : DelayLine s h off hd) : (hd.pos + off) % s.slots = s.buf.wh := by
  rw [hl.pos, Nat.add_comm]
  exact add_wrap_sub hl.inv.buffer.1 hl.off_lt

/-- The head after a callback: its block read from where it stood (R150, R160). -/
theorem DelayLine.blockHead_eq (hl : DelayLine s h off hd) : blockHead s h hd = delayedHead s off hd := by
  obtain ⟨⟨hp, hx, -⟩, -⟩ := hl.inv.heads hd (List.mem_of_getElem? hl.head)
  have hkeep : steppedHead s h hd = { hd with doff := off } := by
    rw [steppedHead, callbackStep_of_idle hl.idle (not_freezeOn (.inl hl.noFreeze)) (by simp [hl.noGlitch]), hl.staged]
    rfl
  have hplayed : (List.range s.cfg.blockSize).map (fadedSample s.cfg s.buf { hd with doff := off }) =
      (List.range s.cfg.blockSize).map (delayedSample s off) := by
    refine List.map_congr_left fun i hi => ?_
    have hlt : i < off := (List.mem_range.mp hi).trans_le hl.block_le
    rw [fadedSample, delayedSample, if_pos hlt, hl.noFade, if_neg (Nat.not_lt_zero i), hl.pos]
  rw [blockHead, hl.setDepth_eq, hkeep, hl.staged, followHead_of_at (hd := { hd with doff := off }) hl.pos, readHead,
    playSamples_of_unlooped (hd := { hd with doff := off }) _ hl.noLoop hp hx, hplayed, delayedHead]
  simp only [unloopedAfter, hl.noFade, Nat.min_zero, Nat.zero_sub, Nat.add_zero, State.slots,
    show hd.xpos % s.buf.slots s.cfg = hd.xpos from Nat.mod_eq_of_lt hx]

theorem DelayLine.processBlock_buf (hl : DelayLine s h off hd) :
    (processBlock s).buf = writeSamples s.cfg s.buf (s.inq.take s.cfg.blockSize) := by
  obtain ⟨-, hbuf, -⟩ := processBlock_frame s
  rw [hbuf, hl.setDepth_eq]

theorem DelayLine.processBlock_slots (hl : DelayLine s h off hd) : (processBlock s).slots = s.slots := by
  rw [Machine.processBlock_slots, ← setDepth_slots, hl.setDepth_eq]

/-- The head's position after a callback, from where it stood and from the write head. -/
theorem DelayLine.wrap_processBlock (hl : DelayLine s h off hd) (hin : s.cfg.blockSize ≤ s.inq.length) :
    wrap (((processBlock s).buf.wh : Int) - off) (processBlock s).slots = (hd.pos + s.cfg.blockSize) % s.slots := by
  have hn := hl.inv.two_le_slots
  rw [processBlock_wh hl.inv hin, ← Machine.processBlock_slots, hl.processBlock_slots, hl.setDepth_eq, hl.pos,
    wrap_add_sub (by omega)]

/-- A callback leaves a delay line. -/
theorem DelayLine.processBlock (hl : DelayLine s h off hd) (hin : s.cfg.blockSize ≤ s.inq.length) :
    DelayLine (processBlock s) h off (delayedHead s off hd) := by
  obtain ⟨hcfg, -, -, -, hstg, -⟩ := processBlock_frame s
  refine ⟨processBlock_keeps_inv hl.inv, ?_, ?_, by rw [hstg], by rw [hstg], ?_, ?_, ?_, hl.noFade, hl.noLoop, ?_, ?_,
    (hl.wrap_processBlock hin).symm⟩
  · rw [processBlock_getElem?, hl.setDepth_eq, hl.head, Option.map_some, hl.blockHead_eq]
  · rw [processBlock_ctl, callbackStep_of_idle hl.idle (not_freezeOn (.inl hl.noFreeze)) (by simp [hl.noGlitch])]
    exact hl.idle
  · rw [hl.processBlock_buf, writeSamples_depth, hl.depth]
  · rw [hstg]
    exact hl.stagedDepth
  · rw [hl.processBlock_buf, (writeSamples_registers s.cfg s.buf _ hl.inv.buffer.1).2.2, hl.noWriteFade,
      Nat.zero_sub]
  · rw [stagedOffset, hcfg, hstg]
    exact hl.staged
  · rw [hcfg]
    exact hl.block_le

/-- The samples to come after a callback are those to come before it, less its block. -/
theorem DelayLine.delayedSample_processBlock (hl : DelayLine s h off hd) (hin : s.cfg.blockSize ≤ s.inq.length) :
    delayedSample (Machine.processBlock s) off = fun i => delayedSample s off (s.cfg.blockSize + i) := by
  funext i
  obtain ⟨hcfg, -, -, -, -, -, hinq, -⟩ := processBlock_frame s
  obtain ⟨-, -, hwf, -⟩ := hl.inv.buffer
  have hlen : (s.inq.take s.cfg.blockSize).length = s.cfg.blockSize := List.length_take_of_le hin
  have hblock := hl.block_le
  have hslots : (writeSamples s.cfg s.buf (s.inq.take s.cfg.blockSize)).slots s.cfg = s.slots :=
    writeSamples_slots _ _ _
  rw [delayedSample, delayedSample, hl.wrap_processBlock hin, ← hl.pos, hcfg, hinq, hl.processBlock_buf, ← hslots,
    slotRead_mod_add, Nat.add_assoc]
  by_cases hi : i < off
  · have hread := slotRead_written_behind hwf hl.depth hl.noWriteFade hl.pos_add_off hl.off_lt (hlen.trans_le hblock) hi
    rw [hlen] at hread
    rw [if_pos hi, hread]
    split
    · rfl
    · rw [List.getD_eq_getElem?_getD, List.getElem?_take_of_lt (by omega), List.getD_eq_getElem?_getD]
  · rw [if_neg hi, if_neg (by omega), List.getD_eq_getElem?_getD, List.getElem?_drop, List.getD_eq_getElem?_getD,
      Nat.add_sub_assoc (by omega)]

/-- `k` callbacks of a delay line give `k` blocks of its samples. -/
theorem DelayLine.callbacks {k : Nat} (hl : DelayLine s h off hd) (hin : k * s.cfg.blockSize ≤ s.inq.length) :
    ∃ t hd', Machine.callbacks k s = .next t ∧ t.heads[h]? = some hd' ∧
      hd'.out = hd.out ++ (List.range (k * s.cfg.blockSize)).map (delayedSample s off) := by
  induction k generalizing s hd with
  | zero => exact ⟨s, hd, rfl, hl.head, by simp⟩
  | succ k ih =>
    obtain ⟨hcfg, -, -, -, -, -, hinq, -⟩ := processBlock_frame s
    rw [Nat.add_mul, Nat.one_mul] at hin
    have hblock : s.cfg.blockSize ≤ s.inq.length := by omega
    obtain ⟨t, hd', hrun, hget, hout⟩ := ih (hl.processBlock hblock) (by rw [hcfg, hinq, List.length_drop]; omega)
    refine ⟨t, hd', (callbacks_succ_of_le hblock k).trans hrun, hget, ?_⟩
    rw [hout, hl.delayedSample_processBlock hblock, hcfg, delayedHead, List.append_assoc, Nat.add_mul, Nat.one_mul,
      Nat.add_comm (k * _), List.range_add, List.map_append, List.map_map]
    rfl

end

/-- Settles O52: the head is a delay line, and stays one from callback to callback. -/
theorem delayLineReturnsTheInputDelayed : Obligations.DelayLineReturnsTheInputDelayed := by
  intro s h hd d k hi hget hdelay hidle hfreeze hglitch hdepth hstaged hwfade hxrem hloop off hblock hpos hin
  have hoff : stagedOffset s h = off := by
    rw [stagedOffset, delayOf, List.getD_eq_getElem?_getD, hdelay, hstaged, ← hdepth]
    rfl
  have hline : DelayLine s h off hd := ⟨hi, hget, hidle, hfreeze, hglitch, hdepth, hstaged, hwfade, hxrem, hloop, hoff,
    hblock, hpos⟩
  simp only [State.slots, slotRead_mod]
  exact hline.callbacks hin

end Sys2Proof.Machine
end
